-- ==== Sys2Proof/Word.lean ====
section
/-! DEFINITION. The machine's word types (00_scope.md R3, R7): abbreviations only, so that the library's bit-vector
lemmas apply to them as they stand. -/

namespace Sys2Proof

/-- The machine word: "A 16-bit unsigned value" (00_scope.md R3). -/
abbrev Word := BitVec 16

/-- The unit of a data address (20_memory.md R61). -/
abbrev Byte := BitVec 8

/-- An exception code as `ex` holds it: a 6-bit value (10_state.md R42). -/
abbrev ExCode := BitVec 6

/-- A general register number, r0..r7 of one file (10_state.md R20; three bits in an instruction, 30_encoding.md R101). -/
abbrev Reg := Fin 8

end Sys2Proof
end

