-- ==== Sys2Proof/Syntax.lean ====
section
/-! DEFINITION. The instruction set: one constructor per row of spec/opcode_table.json (30_encoding.md R110), and the
mnemonics as the table names them. Immediates are held as the values they stand for (30_encoding.md R104): imm7 and imm6
signed, imm10 unsigned; `WellFormed.lean` says which values a field can hold. -/

namespace Sys2Proof

/-- The 37 instructions (30_encoding.md R110), operands named as in R101. -/
inductive Instr where
  /-- load word (R200) -/
  | ldw (rA rB : Reg) (imm : Int)
  /-- load byte, zero-extended (R201) -/
  | ldb (rA rB : Reg) (imm : Int)
  /-- store word (R202) -/
  | stw (rA rB : Reg) (imm : Int)
  /-- store byte (R203) -/
  | stb (rA rB : Reg) (imm : Int)
  /-- branch if equal (R220) -/
  | beq (rA rB : Reg) (imm : Int)
  /-- add immediate (R221) -/
  | adi (rA rB : Reg) (imm : Int)
  /-- load upper immediate (R222) -/
  | lui (rA : Reg) (imm : Nat)
  /-- sub-opcode j: 0 sys, 1 call, 2 jump, 3..7 illegal (R240) -/
  | jlr (j : Nat) (rB : Reg) (imm : Int)
  /-- add (R260) -/
  | add (rA rB rC : Reg)
  /-- add with carry (R261) -/
  | adc (rA rB rC : Reg)
  /-- subtract (R262) -/
  | sub (rA rB rC : Reg)
  /-- subtract with borrow (R263) -/
  | sbb (rA rB rC : Reg)
  /-- bit clear (R264) -/
  | bic (rA rB rC : Reg)
  /-- bit set (OR) (R265) -/
  | bis (rA rB rC : Reg)
  /-- exclusive OR (R266) -/
  | xor (rA rB rC : Reg)
  /-- load special register (R290) -/
  | lsp (rA rB : Reg)
  /-- load from I/O slot (R291) -/
  | lio (rA rB : Reg)
  /-- store special register (R292) -/
  | ssp (rA rB : Reg)
  /-- store to I/O slot (R293) -/
  | sio (rA rB : Reg)
  /-- reserved (R294) -/
  | y04 (rA rB : Reg)
  /-- reserved (R295) -/
  | y05 (rA rB : Reg)
  /-- reserved (R296) -/
  | y06 (rA rB : Reg)
  /-- one's complement (R320) -/
  | not (rA : Reg)
  /-- two's-complement negate (R321) -/
  | neg (rA : Reg)
  /-- sign-extend byte (R322) -/
  | sxt (rA : Reg)
  /-- swap bytes (R323) -/
  | swb (rA : Reg)
  /-- logical shift right by one (R324) -/
  | lsr (rA : Reg)
  /-- logical shift left by one (R325) -/
  | lsl (rA : Reg)
  /-- arithmetic shift right by one (R326) -/
  | asr (rA : Reg)
  /-- return from exception (R350) -/
  | rti
  /-- return from link (R351) -/
  | rtl
  /-- disable interrupts (R352) -/
  | di
  /-- enable interrupts (R353) -/
  | ei
  /-- halt (R354) -/
  | hlt
  /-- breakpoint (R355) -/
  | brk
  /-- no meaning given: ExIllegal (R356) -/
  | v06
  /-- no meaning given: ExIllegal (R357) -/
  | die
  deriving DecidableEq, Repr

/-- The 37 mnemonics of 30_encoding.md R110. -/
inductive Mnemonic where
  | ldw | ldb | stw | stb | beq | adi | lui | jlr
  | add | adc | sub | sbb | bic | bis | xor | lsp
  | lio | ssp | sio | y04 | y05 | y06 | not | neg
  | sxt | swb | lsr | lsl | asr | rti | rtl | di
  | ei | hlt | brk | v06 | die
  deriving DecidableEq, Repr

/-- The row an instruction belongs to. -/
def Instr.mnemonic : Instr → Mnemonic
  | .ldw _ _ _ => .ldw
  | .ldb _ _ _ => .ldb
  | .stw _ _ _ => .stw
  | .stb _ _ _ => .stb
  | .beq _ _ _ => .beq
  | .adi _ _ _ => .adi
  | .lui _ _ => .lui
  | .jlr _ _ _ => .jlr
  | .add _ _ _ => .add
  | .adc _ _ _ => .adc
  | .sub _ _ _ => .sub
  | .sbb _ _ _ => .sbb
  | .bic _ _ _ => .bic
  | .bis _ _ _ => .bis
  | .xor _ _ _ => .xor
  | .lsp _ _ => .lsp
  | .lio _ _ => .lio
  | .ssp _ _ => .ssp
  | .sio _ _ => .sio
  | .y04 _ _ => .y04
  | .y05 _ _ => .y05
  | .y06 _ _ => .y06
  | .not _ => .not
  | .neg _ => .neg
  | .sxt _ => .sxt
  | .swb _ => .swb
  | .lsr _ => .lsr
  | .lsl _ => .lsl
  | .asr _ => .asr
  | .rti => .rti
  | .rtl => .rtl
  | .di => .di
  | .ei => .ei
  | .hlt => .hlt
  | .brk => .brk
  | .v06 => .v06
  | .die => .die

/-- The mnemonic's text, lower case as the table spells it (30_encoding.md R110, R120). -/
def Mnemonic.name : Mnemonic → String
  | .ldw => "ldw"
  | .ldb => "ldb"
  | .stw => "stw"
  | .stb => "stb"
  | .beq => "beq"
  | .adi => "adi"
  | .lui => "lui"
  | .jlr => "jlr"
  | .add => "add"
  | .adc => "adc"
  | .sub => "sub"
  | .sbb => "sbb"
  | .bic => "bic"
  | .bis => "bis"
  | .xor => "xor"
  | .lsp => "lsp"
  | .lio => "lio"
  | .ssp => "ssp"
  | .sio => "sio"
  | .y04 => "y04"
  | .y05 => "y05"
  | .y06 => "y06"
  | .not => "not"
  | .neg => "neg"
  | .sxt => "sxt"
  | .swb => "swb"
  | .lsr => "lsr"
  | .lsl => "lsl"
  | .asr => "asr"
  | .rti => "rti"
  | .rtl => "rtl"
  | .di => "di"
  | .ei => "ei"
  | .hlt => "hlt"
  | .brk => "brk"
  | .v06 => "v06"
  | .die => "die"

/-- The classes of 30_encoding.md R103; a base op is one whose top three bits are 0..6 (00_scope.md R14). -/
inductive OpClass where
  | vop
  | zop
  | yop
  | xop
  | jlr
  | base
  deriving DecidableEq, Repr

/-- The class each row of R110 names. -/
def Mnemonic.opClass : Mnemonic → OpClass
  | .ldw | .ldb | .stw | .stb | .beq | .adi | .lui => .base
  | .jlr => .jlr
  | .add | .adc | .sub | .sbb | .bic | .bis | .xor => .xop
  | .lsp | .lio | .ssp | .sio | .y04 | .y05 | .y06 => .yop
  | .not | .neg | .sxt | .swb | .lsr | .lsl | .asr => .zop
  | .rti | .rtl | .di | .ei | .hlt | .brk | .v06 | .die => .vop

/-- All 37 mnemonics, in the table's order. -/
def Mnemonic.all : List Mnemonic :=
  [.ldw, .ldb, .stw, .stb, .beq, .adi, .lui, .jlr, .add, .adc] ++
  [.sub, .sbb, .bic, .bis, .xor, .lsp, .lio, .ssp, .sio, .y04] ++
  [.y05, .y06, .not, .neg, .sxt, .swb, .lsr, .lsl, .asr, .rti] ++
  [.rtl, .di, .ei, .hlt, .brk, .v06, .die]

end Sys2Proof
end

