-- ==== Sys2Proof/WellFormed.lean ====
section
/-! DEFINITION. Which operand values an encoding can hold: the immediate ranges of 30_encoding.md R104 and R125. Register
numbers need no check, since `Reg` holds exactly r0..r7. -/

namespace Sys2Proof

/-- imm7: -64..63 (30_encoding.md R104). -/
def imm7Fits (imm : Int) : Bool := decide (-64 ≤ imm ∧ imm ≤ 63)

/-- imm6: -32..31 (30_encoding.md R104, 92_eei_decisions.md D26). -/
def imm6Fits (imm : Int) : Bool := decide (-32 ≤ imm ∧ imm ≤ 31)

/-- The ten-bit field of lui: 0..1023 (30_encoding.md R125). -/
def imm10Fits (imm : Nat) : Bool := decide (imm ≤ 1023)

/-- The sub-opcode of jlr: 0..7 (30_encoding.md R101, R125). -/
def subopFits (j : Nat) : Bool := decide (j ≤ 7)

/-- Every operand lies in the range its field can hold (30_encoding.md R125). -/
def Instr.wellFormed : Instr → Bool
  | .ldw _ _ imm => imm7Fits imm
  | .ldb _ _ imm => imm7Fits imm
  | .stw _ _ imm => imm7Fits imm
  | .stb _ _ imm => imm7Fits imm
  | .beq _ _ imm => imm7Fits imm
  | .adi _ _ imm => imm7Fits imm
  | .lui _ imm => imm10Fits imm
  | .jlr j _ imm => subopFits j && imm6Fits imm
  | .add _ _ _ => true
  | .adc _ _ _ => true
  | .sub _ _ _ => true
  | .sbb _ _ _ => true
  | .bic _ _ _ => true
  | .bis _ _ _ => true
  | .xor _ _ _ => true
  | .lsp _ _ => true
  | .lio _ _ => true
  | .ssp _ _ => true
  | .sio _ _ => true
  | .y04 _ _ => true
  | .y05 _ _ => true
  | .y06 _ _ => true
  | .not _ => true
  | .neg _ => true
  | .sxt _ => true
  | .swb _ => true
  | .lsr _ => true
  | .lsl _ => true
  | .asr _ => true
  | .rti => true
  | .rtl => true
  | .di => true
  | .ei => true
  | .hlt => true
  | .brk => true
  | .v06 => true
  | .die => true

end Sys2Proof
end

