-- ==== Sys2Proof/Decode.lean ====
section
/-! DEFINITION. The decoder and the encoder (30_encoding.md sections 1 and 2): field extraction, the nested classes, the
opcode table and recognition by it, decoding from bytes, and encoding. -/

namespace Sys2Proof

/-! ## Fields (30_encoding.md R101, R102, R104) -/

/-- A three-bit field as a register number or a selector: bits lo+2..lo. -/
def field3 (w : Word) (lo : Nat) : Fin 8 := ⟨(w.extractLsb' lo 3).toNat, (w.extractLsb' lo 3).isLt⟩

/-- rA = vop = j: bits 2..0 (R102). -/
def fieldA (w : Word) : Fin 8 := field3 w 0

/-- rB = zop: bits 5..3 (R102). -/
def fieldB (w : Word) : Fin 8 := field3 w 3

/-- rC = yop: bits 8..6 (R102). -/
def fieldC (w : Word) : Fin 8 := field3 w 6

/-- xop: bits 11..9 (R102). -/
def fieldXop (w : Word) : Fin 8 := field3 w 9

/-- op: the top three bits (R102). -/
def fieldOp (w : Word) : Fin 8 := field3 w 13

/-- imm7: bits 12..6, sign-extended (R104). -/
def fieldImm7 (w : Word) : Int := (w.extractLsb' 6 7).toInt

/-- imm6: bits 11..6, sign-extended (R104, 92_eei_decisions.md D26). -/
def fieldImm6 (w : Word) : Int := (w.extractLsb' 6 6).toInt

/-- imm10: bits 12..3, unsigned (R104). -/
def fieldImm10 (w : Word) : Nat := (w.extractLsb' 3 10).toNat

/-! ## Decoding

"The class escapes nest: the all-ones value of each class's selector field ... is the prefix of the next class" (R103), so
each class hands its selector 7 to the next one and no selector is left over. -/

/-- VOPs: bits 2..0 select (R110 rows 30 to 37). -/
def decodeVop (w : Word) : Instr :=
  match fieldA w with
  | 0 => .rti
  | 1 => .rtl
  | 2 => .di
  | 3 => .ei
  | 4 => .hlt
  | 5 => .brk
  | 6 => .v06
  | 7 => .die

/-- ZOPs: bits 5..3 select (R110 rows 23 to 29); 7 is the VOP prefix (46_zop.md R327). -/
def decodeZop (w : Word) : Instr :=
  match fieldB w with
  | 0 => .not (fieldA w)
  | 1 => .neg (fieldA w)
  | 2 => .sxt (fieldA w)
  | 3 => .swb (fieldA w)
  | 4 => .lsr (fieldA w)
  | 5 => .lsl (fieldA w)
  | 6 => .asr (fieldA w)
  | 7 => decodeVop w

/-- YOPs: bits 8..6 select (R110 rows 16 to 22); 7 is the ZOP prefix (45_yop.md R296). -/
def decodeYop (w : Word) : Instr :=
  match fieldC w with
  | 0 => .lsp (fieldA w) (fieldB w)
  | 1 => .lio (fieldA w) (fieldB w)
  | 2 => .ssp (fieldA w) (fieldB w)
  | 3 => .sio (fieldA w) (fieldB w)
  | 4 => .y04 (fieldA w) (fieldB w)
  | 5 => .y05 (fieldA w) (fieldB w)
  | 6 => .y06 (fieldA w) (fieldB w)
  | 7 => decodeZop w

/-- XOPs: bits 11..9 select (R110 rows 9 to 15); 7 is the YOP prefix (44_xop.md R267). -/
def decodeXop (w : Word) : Instr :=
  match fieldXop w with
  | 0 => .add (fieldA w) (fieldB w) (fieldC w)
  | 1 => .adc (fieldA w) (fieldB w) (fieldC w)
  | 2 => .sub (fieldA w) (fieldB w) (fieldC w)
  | 3 => .sbb (fieldA w) (fieldB w) (fieldC w)
  | 4 => .bic (fieldA w) (fieldB w) (fieldC w)
  | 5 => .bis (fieldA w) (fieldB w) (fieldC w)
  | 6 => .xor (fieldA w) (fieldB w) (fieldC w)
  | 7 => decodeYop w

/-- The instruction a word stands for: total, since every word matches exactly one row (R106). Decoding is the same in both
modes (R100) and raises nothing (40_machine_cycle.md R164). -/
def decodeWord (w : Word) : Instr :=
  match fieldOp w with
  | 0 => .ldw (fieldA w) (fieldB w) (fieldImm7 w)
  | 1 => .ldb (fieldA w) (fieldB w) (fieldImm7 w)
  | 2 => .stw (fieldA w) (fieldB w) (fieldImm7 w)
  | 3 => .stb (fieldA w) (fieldB w) (fieldImm7 w)
  | 4 => .beq (fieldA w) (fieldB w) (fieldImm7 w)
  | 5 => .adi (fieldA w) (fieldB w) (fieldImm7 w)
  | 6 => .lui (fieldA w) (fieldImm10 w)
  | 7 => if w.getLsbD 12 then decodeXop w else .jlr (fieldA w) (fieldB w) (fieldImm6 w)

/-- The class of a word by its prefixes, tested in the order of R103. `decodeWord` reaches the same classes by nesting. -/
def classify (w : Word) : OpClass :=
  if w.extractLsb' 3 13 = 0x1FFF#13 then .vop
  else if w.extractLsb' 6 10 = 0x3FF#10 then .zop
  else if w.extractLsb' 9 7 = 0x7F#7 then .yop
  else if w.extractLsb' 12 4 = 0xF#4 then .xop
  else if w.extractLsb' 12 4 = 0xE#4 then .jlr
  else .base

/-- Two bytes as a word, the lower address first: little-endian (20_memory.md R62). -/
def wordOfBytes (lo hi : Byte) : Word := hi ++ lo

/-- Bits 7..0 of a word: the byte at the lower address (20_memory.md R62). -/
def loByte (w : Word) : Byte := w.extractLsb' 0 8

/-- Bits 15..8 of a word: the byte at the higher address (20_memory.md R62). -/
def hiByte (w : Word) : Byte := w.extractLsb' 8 8

/-- Why bytes are no instruction. -/
inductive DecodeError where
  /-- fewer than the two bytes every instruction has (R100) -/
  | truncated
  deriving DecidableEq, Repr

/-- The first instruction of a byte sequence and the bytes after it: every instruction is one little-endian word (R100,
20_memory.md R62). -/
def decodeBytes : List Byte → Except DecodeError (Instr × List Byte)
  | lo :: hi :: rest => .ok (decodeWord (wordOfBytes lo hi), rest)
  | _ => .error .truncated

/-- The bytes of an instruction whose bits are `w`, laid out as the hardware stores them; `nbits` is 16 for every row, and
any bit above bit 15 belongs to no instruction. -/
def tableBytes (nbits w : Nat) : List Byte :=
  let word : Word := BitVec.ofNat 16 (w % 2 ^ nbits)
  [loByte word, hiByte word]

/-- What the decoder reads from an instruction whose bits are `w`. -/
def decodeTableWord (nbits w : Nat) : Option Instr :=
  match decodeBytes (tableBytes nbits w) with
  | .ok (i, _) => some i
  | .error _ => none

/-! ## The opcode table (R105, R110) -/

/-- One row of R110: `opcode` is the match word and `nbits` the width of its fixed top bits. -/
structure OpcodeRow where
  mnemonic : Mnemonic
  opcode : Word
  nbits : Nat
  deriving DecidableEq, Repr

/-- R110, rows 1 to 8. -/
def opcodeRowsBase : List OpcodeRow :=
  [⟨.ldw, 0x0000, 3⟩,
   ⟨.ldb, 0x2000, 3⟩,
   ⟨.stw, 0x4000, 3⟩,
   ⟨.stb, 0x6000, 3⟩,
   ⟨.beq, 0x8000, 3⟩,
   ⟨.adi, 0xA000, 3⟩,
   ⟨.lui, 0xC000, 3⟩,
   ⟨.jlr, 0xE000, 4⟩]

/-- R110, rows 9 to 15. -/
def opcodeRowsXop : List OpcodeRow :=
  [⟨.add, 0xF000, 7⟩,
   ⟨.adc, 0xF200, 7⟩,
   ⟨.sub, 0xF400, 7⟩,
   ⟨.sbb, 0xF600, 7⟩,
   ⟨.bic, 0xF800, 7⟩,
   ⟨.bis, 0xFA00, 7⟩,
   ⟨.xor, 0xFC00, 7⟩]

/-- R110, rows 16 to 22. -/
def opcodeRowsYop : List OpcodeRow :=
  [⟨.lsp, 0xFE00, 10⟩,
   ⟨.lio, 0xFE40, 10⟩,
   ⟨.ssp, 0xFE80, 10⟩,
   ⟨.sio, 0xFEC0, 10⟩,
   ⟨.y04, 0xFF00, 10⟩,
   ⟨.y05, 0xFF40, 10⟩,
   ⟨.y06, 0xFF80, 10⟩]

/-- R110, rows 23 to 29. -/
def opcodeRowsZop : List OpcodeRow :=
  [⟨.not, 0xFFC0, 13⟩,
   ⟨.neg, 0xFFC8, 13⟩,
   ⟨.sxt, 0xFFD0, 13⟩,
   ⟨.swb, 0xFFD8, 13⟩,
   ⟨.lsr, 0xFFE0, 13⟩,
   ⟨.lsl, 0xFFE8, 13⟩,
   ⟨.asr, 0xFFF0, 13⟩]

/-- R110, rows 30 to 37. -/
def opcodeRowsVop : List OpcodeRow :=
  [⟨.rti, 0xFFF8, 16⟩,
   ⟨.rtl, 0xFFF9, 16⟩,
   ⟨.di, 0xFFFA, 16⟩,
   ⟨.ei, 0xFFFB, 16⟩,
   ⟨.hlt, 0xFFFC, 16⟩,
   ⟨.brk, 0xFFFD, 16⟩,
   ⟨.v06, 0xFFFE, 16⟩,
   ⟨.die, 0xFFFF, 16⟩]

/-- The 37 rows of R110, in the table's order. -/
def opcodeTable : List OpcodeRow :=
  opcodeRowsBase ++ opcodeRowsXop ++ opcodeRowsYop ++ opcodeRowsZop ++ opcodeRowsVop

/-- "whose top `nbits` of `opcode` equal the top `nbits` of W" (R105). -/
def OpcodeRow.recognises (r : OpcodeRow) (w : Word) : Bool :=
  w >>> (16 - r.nbits) == r.opcode >>> (16 - r.nbits)

/-- The mask of a row: its top `nbits` set (R105, R110). -/
def OpcodeRow.mask (r : OpcodeRow) : Word := BitVec.allOnes 16 <<< (16 - r.nbits)

/-- Recognition by table: the first row that recognises the word (R105). -/
def recognise (w : Word) : Option Mnemonic := (opcodeTable.find? (·.recognises w)).map (·.mnemonic)

/-! ## Encoding (R101, R126) -/

/-- A register number as its three-bit field. -/
def regBits (r : Reg) : BitVec 3 := BitVec.ofNat 3 r.val

/-- RRI: op, imm7, rB, rA (R101). -/
def encodeRri (op : BitVec 3) (rA rB : Reg) (imm : Int) : Word :=
  op ++ (BitVec.ofInt 7 imm ++ (regBits rB ++ regBits rA))

/-- RJX: 110, imm10, rA (R101). -/
def encodeRjx (rA : Reg) (imm : Nat) : Word := 0b110#3 ++ (BitVec.ofNat 10 imm ++ regBits rA)

/-- jlr: 1110, imm6, rB, j (R101). -/
def encodeJlr (j : Nat) (rB : Reg) (imm : Int) : Word :=
  0b1110#4 ++ (BitVec.ofInt 6 imm ++ (regBits rB ++ BitVec.ofNat 3 j))

/-- RRR: 1111, xop, rC, rB, rA (R101). -/
def encodeRrr (xop : BitVec 3) (rA rB rC : Reg) : Word :=
  0b1111#4 ++ (xop ++ (regBits rC ++ (regBits rB ++ regBits rA)))

/-- RRX: 1111111, yop, rB, rA (R101). -/
def encodeRrx (yop : BitVec 3) (rA rB : Reg) : Word := 0b1111111#7 ++ (yop ++ (regBits rB ++ regBits rA))

/-- RXX: 1111111111, zop, rA (R101). -/
def encodeRxx (zop : BitVec 3) (rA : Reg) : Word := 0b1111111111#10 ++ (zop ++ regBits rA)

/-- XXX: 1111111111111, vop (R101). -/
def encodeXxx (vop : BitVec 3) : Word := 0b1111111111111#13 ++ vop

/-- The word of an instruction (R110, R126). -/
def encode : Instr → Word
  | .ldw rA rB imm => encodeRri 0 rA rB imm
  | .ldb rA rB imm => encodeRri 1 rA rB imm
  | .stw rA rB imm => encodeRri 2 rA rB imm
  | .stb rA rB imm => encodeRri 3 rA rB imm
  | .beq rA rB imm => encodeRri 4 rA rB imm
  | .adi rA rB imm => encodeRri 5 rA rB imm
  | .lui rA imm => encodeRjx rA imm
  | .jlr j rB imm => encodeJlr j rB imm
  | .add rA rB rC => encodeRrr 0 rA rB rC
  | .adc rA rB rC => encodeRrr 1 rA rB rC
  | .sub rA rB rC => encodeRrr 2 rA rB rC
  | .sbb rA rB rC => encodeRrr 3 rA rB rC
  | .bic rA rB rC => encodeRrr 4 rA rB rC
  | .bis rA rB rC => encodeRrr 5 rA rB rC
  | .xor rA rB rC => encodeRrr 6 rA rB rC
  | .lsp rA rB => encodeRrx 0 rA rB
  | .lio rA rB => encodeRrx 1 rA rB
  | .ssp rA rB => encodeRrx 2 rA rB
  | .sio rA rB => encodeRrx 3 rA rB
  | .y04 rA rB => encodeRrx 4 rA rB
  | .y05 rA rB => encodeRrx 5 rA rB
  | .y06 rA rB => encodeRrx 6 rA rB
  | .not rA => encodeRxx 0 rA
  | .neg rA => encodeRxx 1 rA
  | .sxt rA => encodeRxx 2 rA
  | .swb rA => encodeRxx 3 rA
  | .lsr rA => encodeRxx 4 rA
  | .lsl rA => encodeRxx 5 rA
  | .asr rA => encodeRxx 6 rA
  | .rti => encodeXxx 0
  | .rtl => encodeXxx 1
  | .di => encodeXxx 2
  | .ei => encodeXxx 3
  | .hlt => encodeXxx 4
  | .brk => encodeXxx 5
  | .v06 => encodeXxx 6
  | .die => encodeXxx 7

/-- The bytes of an instruction as memory holds them. -/
def encodeBytes (i : Instr) : List Byte := [loByte (encode i), hiByte (encode i)]

end Sys2Proof
end

