-- ==== Sys2Proof/Config.lean ====
section
/-! DEFINITION. What the spec leaves open as named parameters (00_scope.md R8, 93_implementation_defined.md section 3).
`Params` holds the parameters that are plain data; a state carries them (log 1), so that every statement holds for every
choice of them. `Config.ioRead` is the free value IO_READ: it has no body, so nothing can be proved of its values. -/

namespace Sys2Proof

/-- The operand order of `sub` and `sbb`: the parameter SUB_ORDER (44_xop.md R262, 92_eei_decisions.md D8). -/
inductive SubOrder where
  /-- rC minus rB, the spec's default -/
  | cMinusB
  /-- rB minus rC -/
  | bMinusC
  deriving DecidableEq, Repr

/-- The parameters PHYS_WORDS, SUB_ORDER and IO_BITS (00_scope.md R8). No instruction changes them. -/
structure Params where
  /-- PHYS_WORDS: how many 16-bit words of physical memory exist (20_memory.md R60, D4). -/
  physWords : Nat
  /-- SUB_ORDER (D8). -/
  subOrder : SubOrder
  /-- IO_BITS: how many low bits of the address select an I/O slot (20_memory.md R80, D15). -/
  ioBits : Nat
  deriving DecidableEq, Repr

/-- The values the spec takes when the model is not told otherwise (00_scope.md R8). -/
def Params.standard : Params := { physWords := 2 ^ 23, subOrder := .cMinusB, ioBits := 6 }

/-- IO_READ: the environment's answer to the `draw`-th `lio` read, which reads slot `slot`: "any word, chosen freshly at
each read, with no law" (20_memory.md R81, D15). FREE VALUE: unconstrained (log 3). -/
opaque Config.ioRead (draw slot : Nat) : Word

end Sys2Proof
end

