-- ==== Sys2Proof/Machine/State.lean ====
section
/-! DEFINITION. The state of the block as plain data (10_state.md), the reasons a step can stop, and the state after
reset (10_state.md R46, 70_reset_and_hazards.md R450). -/

namespace Sys2Proof.Machine

/-- The two modes (10_state.md R20, R37): User = 0, Kernel = 1. -/
inductive Mode where
  | user
  | kernel
  deriving DecidableEq, Repr

/-- Why `run` is false (10_state.md R40). -/
inductive HaltReason where
  /-- after `hlt` (47_vop.md R354) -/
  | hlt
  /-- after an exception raised while `en` was false (60_exceptions.md R420) -/
  | doubleFault (code : ExCode)
  deriving DecidableEq, Repr

/-- A recorded event (40_machine_cycle.md R176). -/
inductive Event where
  /-- `lio` read `value` from `slot` (20_memory.md R81) -/
  | ioRead (slot : Nat) (value : Word)
  /-- `sio` wrote `value` to `slot` (20_memory.md R82) -/
  | ioWrite (slot : Nat) (value : Word)
  /-- `brk` in kernel mode, with the pc after it (60_exceptions.md R433) -/
  | brk (pc : Word)
  deriving DecidableEq, Repr

/-- Physical memory (10_state.md R44, 20_memory.md R60) as its bytes: physical byte address and value, addresses strictly
rising, no entry equal to what an unlisted address reads as (`Memory.wf` in Machine/Ops.lean). -/
structure Memory where
  cells : List Host.Cell
  deriving DecidableEq, Repr

/-- The state of the block (10_state.md section 1). The latches ir, alu, sd and wb hold values only inside one cycle (R45)
and are the local values of `fetch` and of the meanings (log 4). -/
structure State where
  /-- the user file's general registers (R20); r0's entry is never read or written (R21) -/
  xu : Vector Word 8
  /-- the kernel file's general registers (R20) -/
  xk : Vector Word 8
  /-- Link of the user file (R32) -/
  linkU : Word
  /-- Link of the kernel file (R32) -/
  linkK : Word
  /-- mmu[User]: code pages 0..15, then data pages 0..15 (R35) -/
  mmuU : Vector Word 32
  /-- mmu[Kernel] (R35) -/
  mmuK : Vector Word 32
  /-- exception return pc, kernel SPR 2 (R34) -/
  irr : Word
  /-- exception cause, kernel SPR 3 (R34) -/
  icr : Word
  /-- exception-return mode, kernel SPR 4; all 16 bits are stored (R34) -/
  imr : Word
  /-- program counter, a code virtual address in words (R24) -/
  pc : Word
  /-- the current mode (R37) -/
  mode : Mode
  /-- interrupt-enable flag (R38) -/
  en : Bool
  /-- carry latch, one for the machine (R29) -/
  hc : Bool
  /-- pending exception code, 0 for none (R42) -/
  ex : ExCode
  /-- run flag (R39) -/
  run : Bool
  /-- the status output when `run` is false (R40) -/
  haltReason : Option HaltReason
  /-- cycle counter, SPRs 6 and 7 (R41) -/
  cycles : BitVec 32
  /-- physical memory (R44) -/
  mem : Memory
  /-- the recorded I/O and debug events, oldest first (40_machine_cycle.md R176) -/
  events : List Event
  /-- the model's own: how many `lio` reads the environment has answered, the index of the next free value (log 3) -/
  ioDraws : Nat
  /-- the model's own: the parameters of 00_scope.md R8, which no step changes (log 1) -/
  params : Params
  deriving DecidableEq, Repr

/-- Why a step answers no next state. Both are SAFE: "A state with `run` = false has no next cycle and is final"
(40_machine_cycle.md R176), so nothing the hardware does is left out. `step` alone raises them; no instruction does. -/
inductive Fault where
  /-- `run` is false and the run did not end in a double fault: the normal end after `hlt`. Raised by `step`. Safe. -/
  | halted
  /-- `run` is false after a double fault with this code, "a fault outcome, not a normal end" (R176). Raised by `step`.
  Safe. -/
  | doubleFault (code : ExCode)
  deriving DecidableEq, Repr

/-- Refusals. -/
inductive Refusal where
  /-- An instruction without a meaning. No arm of `exec` answers it: every instruction has its meaning. Safe. -/
  | notModelled (mnemonic : String)
  deriving DecidableEq, Repr

/-- What an instruction or a step answers. -/
abbrev Result := Host.Outcome State Fault Refusal

/-- Memory with nothing listed. -/
def Memory.empty : Memory := ⟨[]⟩

/-- The machine right after reset (10_state.md R46, 70_reset_and_hazards.md R450) with parameters `p`. "Reset does not write
physical memory" (R451): `initMem` is what memory holds, the parameter INIT_MEM. -/
def State.afterReset (p : Params) (initMem : Memory) : State where
  xu := Vector.replicate 8 0
  xk := Vector.replicate 8 0
  linkU := 0
  linkK := 0
  mmuU := Vector.replicate 32 0
  mmuK := Vector.replicate 32 0
  irr := 0
  icr := 0
  imr := 0
  pc := 0
  mode := .kernel
  en := false
  hc := false
  ex := 0
  run := true
  haltReason := none
  cycles := 0
  mem := initMem
  events := []
  ioDraws := 0
  params := p

/-- The machine right after reset with the spec's default parameters and no memory listed (log 1, log 2). -/
def State.reset : State := State.afterReset Params.standard Memory.empty

end Sys2Proof.Machine
end

