-- ==== Sys2Proof/Machine/Ops.lean ====
section
/-! DEFINITION. The named operations over registers, physical memory, the MMU, the special registers and the I/O slots;
raising an exception, its delivery and the return from it; the fetch stage and the end of a cycle. -/

namespace Sys2Proof.Machine

/-! ## General registers (10_state.md R20, R21) -/

/-- Read of one file: "reads as zero" for r0 (R21). -/
def gprRead (file : Vector Word 8) (r : Reg) : Word := if r = 0 then 0 else file[r]

/-- Write of one file: "writes to r0 are silently discarded" (R21). -/
def gprWrite (file : Vector Word 8) (r : Reg) (v : Word) : Vector Word 8 :=
  if r = 0 then file else file.set r v

/-- General register r of mode m's file: the spec's `xu[r]` and `xk[r]` (00_scope.md R11). -/
def State.reg (s : State) (m : Mode) (r : Reg) : Word :=
  match m with
  | .user => gprRead s.xu r
  | .kernel => gprRead s.xk r

/-- Write of general register r of mode m's file. -/
def State.setReg (s : State) (m : Mode) (r : Reg) (v : Word) : State :=
  match m with
  | .user => { s with xu := gprWrite s.xu r v }
  | .kernel => { s with xk := gprWrite s.xk r v }

/-- `x[r]`: general register r of the current mode (00_scope.md R11). -/
def State.x (s : State) (r : Reg) : Word := s.reg s.mode r

/-- `x[r] <- v`: the writeback stage (40_machine_cycle.md R170). -/
def State.setX (s : State) (r : Reg) (v : Word) : State := s.setReg s.mode r v

/-! ## Link and MMU entries (10_state.md R32, R35) -/

/-- `link[m]`. -/
def State.link (s : State) (m : Mode) : Word :=
  match m with
  | .user => s.linkU
  | .kernel => s.linkK

/-- `link[m] <- v`. -/
def State.setLink (s : State) (m : Mode) (v : Word) : State :=
  match m with
  | .user => { s with linkU := v }
  | .kernel => { s with linkK := v }

/-- `mmu[m][k]`. -/
def State.mmu (s : State) (m : Mode) (k : Fin 32) : Word :=
  match m with
  | .user => s.mmuU[k]
  | .kernel => s.mmuK[k]

/-- `mmu[m][k] <- v`: all 16 bits are stored (R35). -/
def State.setMmu (s : State) (m : Mode) (k : Fin 32) (v : Word) : State :=
  match m with
  | .user => { s with mmuU := s.mmuU.set k v }
  | .kernel => { s with mmuK := s.mmuK.set k v }

/-! ## Physical memory (20_memory.md R60, R62)

Physical byte b is in word b >> 1: its low lane when b is even, its high lane when b is odd (R62). -/

/-- What a physical byte that the list does not name reads as: INIT_MEM's value for `State.reset`. The spec gives an
arbitrary value (92_eei_decisions.md D5); DESIGN CHOICE, unsafe (log 2). -/
def unlistedByte : Byte := 0

/-- The byte at an address, from a list in rising order. -/
def readCells : List Host.Cell → Nat → Byte
  | [], _ => unlistedByte
  | (k, b) :: rest, a => if a = k then b else readCells rest a

/-- A list with one byte changed: the form stays canonical, so writing what an unlisted address reads as removes the
entry. -/
def writeCells : List Host.Cell → Nat → Byte → List Host.Cell
  | [], a, v => if v = unlistedByte then [] else [(a, v)]
  | (k, b) :: rest, a, v =>
    if a < k then (if v = unlistedByte then (k, b) :: rest else (a, v) :: (k, b) :: rest)
    else if a = k then (if v = unlistedByte then rest else (a, v) :: rest)
    else (k, b) :: writeCells rest a v

/-- The physical byte at byte address a. -/
def Memory.read (m : Memory) (a : Nat) : Byte := readCells m.cells a

/-- Memory with one physical byte changed. -/
def Memory.write (m : Memory) (a : Nat) (v : Byte) : Memory := ⟨writeCells m.cells a v⟩

/-- The canonical form: addresses strictly rising, and no entry equal to what an unlisted address reads as. -/
abbrev Memory.wf (m : Memory) : Prop :=
  m.cells.Pairwise (fun c d => c.1 < d.1) ∧ ∀ c ∈ m.cells, c.2 ≠ unlistedByte

/-- `PhysRead(i)`: the word at word index i (20_memory.md R60), little-endian (R62). -/
def physRead (m : Memory) (i : Nat) : Word := wordOfBytes (m.read (2 * i)) (m.read (2 * i + 1))

/-- `PhysWrite(i, v)` (20_memory.md R60). -/
def physWrite (m : Memory) (i : Nat) (v : Word) : Memory :=
  (m.write (2 * i) (loByte v)).write (2 * i + 1) (hiByte v)

/-! ## Address translation (20_memory.md R64 to R67) -/

/-- The page of a virtual address: bits 15..12 (R64). -/
def pageOf (va : Word) : Fin 16 := ⟨(va.extractLsb' 12 4).toNat, (va.extractLsb' 12 4).isLt⟩

/-- `{upper, va[11:0]}`: the 24-bit physical address an MMU entry gives; its bits 15..12 are ignored (R65, R66). -/
def physAddr (entry va : Word) : BitVec 24 := entry.extractLsb' 0 12 ++ va.extractLsb' 0 12

/-- The MMU entry of a code page: SPR 32 + page (R64). -/
def codeEntry (page : Fin 16) : Fin 32 := ⟨page.val, by omega⟩

/-- The MMU entry of a data page: SPR 48 + page (R64). -/
def dataEntry (page : Fin 16) : Fin 32 := ⟨16 + page.val, by omega⟩

/-- The 24-bit physical word index of a code virtual address in the current mode (R65). -/
def codeWordAddr (s : State) (va : Word) : Nat :=
  (physAddr (s.mmu s.mode (codeEntry (pageOf va))) va).toNat

/-- `TranslateCode(va)` in the current mode: the physical word index, or none for ExMemory (R65). -/
def translateCode (s : State) (va : Word) : Option Nat :=
  if codeWordAddr s va < s.params.physWords then some (codeWordAddr s va) else none

/-- The 24-bit physical byte address of a data virtual address in the current mode (R66). -/
def dataByteAddr (s : State) (va : Word) : Nat :=
  (physAddr (s.mmu s.mode (dataEntry (pageOf va))) va).toNat

/-- `TranslateData(va)` in the current mode: the physical word index and the lane, true for bits 15..8; none for ExMemory,
compared after the shift, in words (R66, R67). -/
def translateData (s : State) (va : Word) : Option (Nat × Bool) :=
  if dataByteAddr s va / 2 < s.params.physWords then
    some (dataByteAddr s va / 2, decide (dataByteAddr s va % 2 = 1))
  else none

/-! ## Data access (20_memory.md R70 to R74) -/

/-- The widths of a data access (R74). -/
inductive Width where
  | byte
  | word
  deriving DecidableEq, Repr

/-- `MemRead(addr, n)`: none for ExMemory; a byte is zero-extended, and a word access ignores bit 0 (R70, R72). -/
def memRead (s : State) (addr : Word) (w : Width) : Option Word :=
  match translateData s addr with
  | none => none
  | some (wi, lane) =>
    match w with
    | .word => some (physRead s.mem wi)
    | .byte => some ((if lane then hiByte (physRead s.mem wi) else loByte (physRead s.mem wi)).setWidth 16)

/-- `MemWrite(addr, n, v)`: none for ExMemory, and then nothing is written; a byte store writes one lane of its word and
keeps the other (R71). -/
def memWrite (s : State) (addr : Word) (w : Width) (v : Word) : Option State :=
  match translateData s addr with
  | none => none
  | some (wi, lane) =>
    match w with
    | .word => some { s with mem := physWrite s.mem wi v }
    | .byte => some { s with mem := s.mem.write (2 * wi + lane.toNat) (loByte v) }

/-! ## Exceptions (40_machine_cycle.md R165, 60_exceptions.md) -/

/-- ExIllegal, 32 (60_exceptions.md R400). -/
def exIllegal : ExCode := 32

/-- ExMemory, 48 (60_exceptions.md R400). -/
def exMemory : ExCode := 48

/-- ExMachine, 62 (60_exceptions.md R400). -/
def exMachine : ExCode := 62

/-- `raise E` (40_machine_cycle.md R165): latched while `en` is true, a double fault that stops the machine while it is
false. -/
def raise (code : ExCode) (s : State) : State :=
  if s.en then { s with ex := code } else { s with run := false, haltReason := some (.doubleFault code) }

/-- The value `imr` receives for a mode: 0 = User, 1 = Kernel (60_exceptions.md R410). -/
def modeWord (m : Mode) : Word :=
  match m with
  | .user => 0
  | .kernel => 1

/-- The mode `rti` restores: bit 0 of imr (47_vop.md R350). -/
def modeOfWord (w : Word) : Mode := if w.getLsbD 0 then .kernel else .user

/-- `Deliver()`: taking the pending exception (60_exceptions.md R410). -/
def deliver (s : State) : State :=
  { s with
    irr := s.pc
    icr := s.ex.setWidth 16
    imr := modeWord s.mode
    mode := .kernel
    pc := s.ex.setWidth 16
    en := false
    ex := 0 }

/-- The return from an exception, `rti` in kernel mode (47_vop.md R350, 60_exceptions.md R421). -/
def returnFromException (s : State) : State :=
  { s with ex := 0, en := true, mode := modeOfWord s.imr, pc := s.irr }

/-- An effect for kernel mode alone: ExIllegal in user mode, before any other effect (47_vop.md R358). -/
def privileged (effect : State → State) (s : State) : State :=
  match s.mode with
  | .user => raise exIllegal s
  | .kernel => effect s

/-! ## Special registers (10_state.md R30 to R36, 45_yop.md R300 to R302) -/

/-- What an SPR number names (10_state.md R31). -/
inductive Spr where
  | pc
  | link
  | irr
  | icr
  | imr
  | cycleLow
  | cycleHigh
  | userReg (r : Reg)
  | userLink
  | mmu (k : Fin 32)
  | unassigned
  deriving DecidableEq, Repr

/-- The SPR map by number (10_state.md R31). -/
def sprOf (n : BitVec 6) : Spr :=
  if h : 32 ≤ n.toNat then .mmu ⟨n.toNat - 32, by have := n.isLt; omega⟩
  else if h : 16 ≤ n.toNat ∧ n.toNat ≤ 23 then .userReg ⟨n.toNat - 16, by omega⟩
  else if n = 0 then .pc
  else if n = 1 then .link
  else if n = 2 then .irr
  else if n = 3 then .icr
  else if n = 4 then .imr
  else if n = 6 then .cycleLow
  else if n = 7 then .cycleHigh
  else if n = 25 then .userLink
  else .unassigned

/-- `SprRead(n)` in the current mode; none for ExIllegal (45_yop.md R301). -/
def sprRead (s : State) (n : BitVec 6) : Option Word :=
  match sprOf n, s.mode with
  | .pc, _ => some s.pc
  | .link, m => some (s.link m)
  | .cycleLow, _ => some (s.cycles.extractLsb' 0 16)
  | .cycleHigh, _ => some (s.cycles.extractLsb' 16 16)
  | .irr, .kernel => some s.irr
  | .icr, .kernel => some s.icr
  | .imr, .kernel => some s.imr
  | .userReg r, .kernel => some (s.reg .user r)
  | .userLink, .kernel => some (s.link .user)
  | .mmu k, .kernel => some (s.mmu .kernel k)
  | _, _ => none

/-- `SprWrite(n, v)` in the current mode; none for ExIllegal, and then nothing is written (45_yop.md R302). -/
def sprWrite (s : State) (n : BitVec 6) (v : Word) : Option State :=
  match sprOf n, s.mode with
  | .link, m => some (s.setLink m v)
  | .irr, .kernel => some { s with irr := v }
  | .icr, .kernel => some { s with icr := v }
  | .imr, .kernel => some { s with imr := v }
  | .userReg r, .kernel => some (s.setReg .user r v)
  | .userLink, .kernel => some (s.setLink .user v)
  | .mmu k, .kernel => some (s.setMmu .kernel k v)
  | _, _ => none

/-! ## I/O slots and events (20_memory.md R80 to R82, 60_exceptions.md R433) -/

/-- Recording an event, after the ones recorded before. -/
def State.record (s : State) (e : Event) : State := { s with events := s.events ++ [e] }

/-- The slot an address selects: its low IO_BITS bits (20_memory.md R80). -/
def ioSlot (s : State) (addr : Word) : Nat := addr.toNat % 2 ^ s.params.ioBits

/-- The word the environment answers to the next read of a slot: a free value (20_memory.md R81, log 3). -/
def ioAnswer (s : State) (slot : Nat) : Word := Config.ioRead s.ioDraws slot

/-- `IoRead(slot)`: the transaction is recorded with the environment's answer (20_memory.md R81). -/
def ioRead (s : State) (slot : Nat) : State :=
  { s.record (.ioRead slot (ioAnswer s slot)) with ioDraws := s.ioDraws + 1 }

/-- `IoWrite(slot, v)`: the transaction is recorded and no other state changes (20_memory.md R82). -/
def ioWrite (s : State) (slot : Nat) (v : Word) : State := s.record (.ioWrite slot v)

/-! ## The cycle (40_machine_cycle.md R161) -/

/-- The fetch-stage advance: `pc <- pc + 1 (mod 2^16)`. -/
def advancePc (s : State) : State := { s with pc := s.pc + 1 }

/-- `if ex != 0 then Deliver()` (40_machine_cycle.md R161, 60_exceptions.md R410). -/
def deliverPending (s : State) : State := if s.ex = 0 then s else deliver s

/-- What the fetch stage ends in. -/
inductive Fetched where
  /-- the instruction word, and the state the decode stage begins with -/
  | word (ir : Word) (s : State)
  /-- an exception was raised and the cycle goes to its end -/
  | ended (s : State)
  deriving DecidableEq, Repr

/-- The fetch stage after delivery: translation of pc, the read, and the advance, with ExMemory when pc does not translate
(40_machine_cycle.md R163) and ExMachine when the advance wraps to 0 (R162), in that order (R167). -/
def fetchAt (d : State) : Fetched :=
  match translateCode d d.pc with
  | none => .ended (raise exMemory (advancePc d))
  | some pa =>
    if d.pc + 1 = 0 then .ended (raise exMachine (advancePc d)) else .word (physRead d.mem pa) (advancePc d)

/-- The fetch stage: delivery of what is pending, then the fetch (40_machine_cycle.md R161). -/
def fetch (s : State) : Fetched := fetchAt (deliverPending s)

/-- What `ex` holds when a cycle that began in `before` ends in `s`: after a double fault "it holds the value before the
faulting cycle" (40_machine_cycle.md R176, 93_implementation_defined.md I16), although the delivery of that cycle cleared it
(log 12). -/
def exAtEnd (before s : State) : ExCode :=
  match s.run, s.haltReason with
  | false, some (.doubleFault _) => before.ex
  | _, _ => s.ex

/-- The end of every cycle, of the one that began in `before`: `cycles <- cycles + 1 (mod 2^32)` (40_machine_cycle.md R175), and
what `ex` then holds. -/
def endCycle (before s : State) : State := { s with ex := exAtEnd before s, cycles := s.cycles + 1 }

/-- Why a state whose `run` is false is final (40_machine_cycle.md R176). -/
def stopReason (s : State) : Fault :=
  match s.haltReason with
  | some (.doubleFault code) => .doubleFault code
  | _ => .halted

end Sys2Proof.Machine
end

