-- ==== Sys2Proof/Machine/Operands.lean ====
section
/-! DEFINITION. The operand forms: immediates as words, effective addresses, branch and jump targets, SPR numbers, and the
shared load and store over them. -/

namespace Sys2Proof.Machine

/-- A sign-extended immediate as a word (30_encoding.md R104). -/
def immWord (imm : Int) : Word := BitVec.ofInt 16 imm

/-- lui's immediate: the ten-bit field in bits 15..6, bits 5..0 zero (30_encoding.md R104). -/
def upperWord (imm : Nat) : Word := BitVec.ofNat 16 imm <<< 6

/-- Base register plus immediate, modulo 2^16: the effective address of ldw, ldb, stw and stb (41_base_memory.md R204), the
target of jlr (43_jlr.md R242, R243) and the sum of adi (42_base_alu_branch.md R221). -/
def basePlusImm (s : State) (rB : Reg) (imm : Int) : Word := s.x rB + immWord imm

/-- pc plus immediate, modulo 2^16, with pc already advanced: the target of beq (42_base_alu_branch.md R220). -/
def pcPlusImm (s : State) (imm : Int) : Word := s.pc + immWord imm

/-- `alu[5:0]`: the SPR number of lsp and ssp (45_yop.md R300). -/
def sprNumber (alu : Word) : BitVec 6 := alu.extractLsb' 0 6

/-- The memory stage and writeback of a load: ExMemory with nothing written, or the value to rA (41_base_memory.md R200,
R201, R206). -/
def load (w : Width) (rA : Reg) (addr : Word) (s : State) : State :=
  match memRead s addr w with
  | none => raise exMemory s
  | some v => s.setX rA v

/-- The memory stage of a store: ExMemory with nothing written, or the store (41_base_memory.md R202, R203, R206). -/
def store (w : Width) (addr v : Word) (s : State) : State :=
  match memWrite s addr w v with
  | none => raise exMemory s
  | some t => t

/-- A control transfer (40_machine_cycle.md R168). -/
def jumpTo (target : Word) (s : State) : State := { s with pc := target }

/-- An XOP: two registers to one (44_xop.md, common part). -/
def alu2 (f : Word → Word → Word) (rA rB rC : Reg) (s : State) : State := s.setX rA (f (s.x rB) (s.x rC))

/-- An XOP that reads and writes hc: adc and sbb (44_xop.md R261, R263). -/
def alu2Carry (f : Word → Word → Bool → Word × Bool) (rA rB rC : Reg) (s : State) : State :=
  { s.setX rA (f (s.x rB) (s.x rC) s.hc).1 with hc := (f (s.x rB) (s.x rC) s.hc).2 }

/-- A ZOP that leaves hc alone (46_zop.md, common part). -/
def alu1 (f : Word → Word) (rA : Reg) (s : State) : State := s.setX rA (f (s.x rA))

/-- A shift: the result to rA and the bit shifted out to hc (46_zop.md R324 to R326). -/
def alu1Carry (f : Word → Word × Bool) (rA : Reg) (s : State) : State :=
  { s.setX rA (f (s.x rA)).1 with hc := (f (s.x rA)).2 }

end Sys2Proof.Machine
end

