-- ==== Sys2Proof/Machine/Base.lean ====
section
/-! DEFINITION. Base memory instructions (41_base_memory.md). -/

namespace Sys2Proof.Machine

/-- ldw (R200). The word 0x0000, `ldw r0, r0, 0`, raises ExIllegal before any translation (R205, 30_encoding.md R112). -/
def execLdw (rA rB : Reg) (imm : Int) (s : State) : Result :=
  .next (if rA = 0 ∧ rB = 0 ∧ imm = 0 then raise exIllegal s else load .word rA (basePlusImm s rB imm) s)

/-- ldb (R201). -/
def execLdb (rA rB : Reg) (imm : Int) (s : State) : Result :=
  .next (load .byte rA (basePlusImm s rB imm) s)

/-- stw (R202). -/
def execStw (rA rB : Reg) (imm : Int) (s : State) : Result :=
  .next (store .word (basePlusImm s rB imm) (s.x rA) s)

/-- stb (R203). -/
def execStb (rA rB : Reg) (imm : Int) (s : State) : Result :=
  .next (store .byte (basePlusImm s rB imm) (s.x rA) s)

end Sys2Proof.Machine
end

