-- ==== Sys2Proof/Machine/Branch.lean ====
section
/-! DEFINITION. Base branch and immediate instructions (42_base_alu_branch.md). -/

namespace Sys2Proof.Machine

/-- beq (R220): pc is already the address plus 1. -/
def execBeq (rA rB : Reg) (imm : Int) (s : State) : Result :=
  .next (if s.x rA = s.x rB then jumpTo (pcPlusImm s imm) s else s)

/-- adi (R221). -/
def execAdi (rA rB : Reg) (imm : Int) (s : State) : Result :=
  .next (s.setX rA (basePlusImm s rB imm))

/-- lui (R222). -/
def execLui (rA : Reg) (imm : Nat) (s : State) : Result :=
  .next (s.setX rA (upperWord imm))

end Sys2Proof.Machine
end

