-- ==== Sys2Proof/Machine/Jlr.lean ====
section
/-! DEFINITION. Jump and link register (43_jlr.md): the rA field j selects sys, call or jump. -/

namespace Sys2Proof.Machine

/-- `sys N` (R241): the trap N when N is even and in 2..30, else ExIllegal. rB is ignored (92_eei_decisions.md D25). -/
def sysTrap (n : Int) (s : State) : State :=
  if n % 2 = 0 ∧ 2 ≤ n ∧ n ≤ 30 then raise (BitVec.ofInt 6 n) s else raise exIllegal s

/-- Call (R242): Link of the current mode receives pc, the address after the jlr. -/
def callTo (target : Word) (s : State) : State := jumpTo target (s.setLink s.mode s.pc)

/-- jlr (R240 to R244). -/
def execJlr (j : Nat) (rB : Reg) (imm : Int) (s : State) : Result :=
  .next (
    if j = 0 then sysTrap imm s
    else if j = 1 then callTo (basePlusImm s rB imm) s
    else if j = 2 then jumpTo (basePlusImm s rB imm) s
    else raise exIllegal s)

end Sys2Proof.Machine
end

