-- ==== Sys2Proof/Machine/Vop.lean ====
section
/-! DEFINITION. No-operand instructions (47_vop.md). rti, di, ei, hlt and brk raise ExIllegal in user mode (R358). -/

namespace Sys2Proof.Machine

/-- rti (R350). -/
def execRti (s : State) : Result := .next (privileged returnFromException s)

/-- rtl (R351): Link of the current mode; not privileged. -/
def execRtl (s : State) : Result := .next (jumpTo (s.link s.mode) s)

/-- di (R352). -/
def execDi (s : State) : Result := .next (privileged (fun t => { t with en := false }) s)

/-- ei (R353). -/
def execEi (s : State) : Result := .next (privileged (fun t => { t with en := true }) s)

/-- hlt (R354). -/
def execHlt (s : State) : Result :=
  .next (privileged (fun t => { t with run := false, haltReason := some .hlt }) s)

/-- brk (R355): the event Brk(pc) to the host, and no architectural state changes. -/
def execBrk (s : State) : Result := .next (privileged (fun t => t.record (.brk t.pc)) s)

/-- v06 (R356): ExIllegal in both modes. -/
def execV06 (s : State) : Result := .next (raise exIllegal s)

/-- die (R357): ExIllegal in both modes. -/
def execDie (s : State) : Result := .next (raise exIllegal s)

end Sys2Proof.Machine
end

