-- ==== Sys2Proof/Machine/Flags.lean ====
section
/-! DEFINITION. The ALU's results and every computation of hc, the one flag (10_state.md R29). Sums and differences are
taken as exact integers and narrowed at the end. -/

namespace Sys2Proof.Machine

/-- adc: the 17-bit sum, its low 16 bits and the carry out (44_xop.md R261, 92_eei_decisions.md D9). -/
def addCarry (x y : Word) (hc : Bool) : Word × Bool :=
  (BitVec.ofNat 16 (x.toNat + y.toNat + hc.toNat), decide (2 ^ 16 ≤ x.toNat + y.toNat + hc.toNat))

/-- Minuend minus subtrahend minus the incoming borrow, as an integer in -0x10000..0xFFFF (44_xop.md R263). -/
def subInt (minuend subtrahend : Word) (hc : Bool) : Int := (minuend.toNat : Int) - subtrahend.toNat - hc.toNat

/-- Minuend minus subtrahend minus the incoming borrow, and the borrow out (44_xop.md R263, D9). -/
def subBorrow (minuend subtrahend : Word) (hc : Bool) : Word × Bool :=
  (BitVec.ofInt 16 (subInt minuend subtrahend hc), decide (subInt minuend subtrahend hc < 0))

/-- The minuend and the subtrahend of sub and sbb from x[rB] and x[rC] (44_xop.md R262, R263, D8). -/
def subOperands (o : SubOrder) (b c : Word) : Word × Word :=
  match o with
  | .cMinusB => (c, b)
  | .bMinusC => (b, c)

/-- sub (44_xop.md R262). -/
def subResult (o : SubOrder) (b c : Word) : Word := (subOperands o b c).1 - (subOperands o b c).2

/-- sbb (44_xop.md R263). -/
def sbbResult (o : SubOrder) (b c : Word) (hc : Bool) : Word × Bool :=
  subBorrow (subOperands o b c).1 (subOperands o b c).2 hc

/-- bic: "rC AND NOT rB" (44_xop.md R264). -/
def bitClear (b c : Word) : Word := c &&& ~~~b

/-- sxt: bits 15..8 become bit 7 (46_zop.md R322). -/
def signExtendByte (x : Word) : Word := (loByte x).signExtend 16

/-- swb: the two bytes exchanged (46_zop.md R323). -/
def swapBytes (x : Word) : Word := wordOfBytes (hiByte x) (loByte x)

/-- lsr by one, and the bit shifted out, bit 0 (46_zop.md R324). -/
def shiftRight (x : Word) : Word × Bool := (x >>> 1, x.getLsbD 0)

/-- lsl by one, and the bit shifted out, bit 15 (46_zop.md R325). -/
def shiftLeft (x : Word) : Word × Bool := (x <<< 1, x.getLsbD 15)

/-- asr by one, keeping the sign, and the bit shifted out, bit 0 (46_zop.md R326). -/
def shiftRightArith (x : Word) : Word × Bool := (x.sshiftRight 1, x.getLsbD 0)

end Sys2Proof.Machine
end

