-- ==== Sys2Proof/Machine/Xop.lean ====
section
/-! DEFINITION. Three-register ALU instructions (44_xop.md). -/

namespace Sys2Proof.Machine

/-- add (R260): hc is not written. -/
def execAdd (rA rB rC : Reg) (s : State) : Result := .next (alu2 (fun b c => b + c) rA rB rC s)

/-- adc (R261): hc is written even when rA = r0. -/
def execAdc (rA rB rC : Reg) (s : State) : Result := .next (alu2Carry addCarry rA rB rC s)

/-- sub (R262): the operand order is the parameter SUB_ORDER. -/
def execSub (rA rB rC : Reg) (s : State) : Result := .next (alu2 (subResult s.params.subOrder) rA rB rC s)

/-- sbb (R263). -/
def execSbb (rA rB rC : Reg) (s : State) : Result := .next (alu2Carry (sbbResult s.params.subOrder) rA rB rC s)

/-- bic (R264). -/
def execBic (rA rB rC : Reg) (s : State) : Result := .next (alu2 bitClear rA rB rC s)

/-- bis (R265). -/
def execBis (rA rB rC : Reg) (s : State) : Result := .next (alu2 (fun b c => b ||| c) rA rB rC s)

/-- xor (R266). -/
def execXor (rA rB rC : Reg) (s : State) : Result := .next (alu2 (fun b c => b ^^^ c) rA rB rC s)

end Sys2Proof.Machine
end

