-- ==== Sys2Proof/Machine/Yop.lean ====
section
/-! DEFINITION. Special-register and I/O instructions (45_yop.md). alu is x[rB], with no immediate
(92_eei_decisions.md D11). -/

namespace Sys2Proof.Machine

/-- lsp (R290): ExIllegal on an access violation, and then rA is not written. -/
def execLsp (rA rB : Reg) (s : State) : Result :=
  .next (
    match sprRead s (sprNumber (s.x rB)) with
    | none => raise exIllegal s
    | some v => s.setX rA v)

/-- lio (R291): the transaction happens even when rA = r0. -/
def execLio (rA rB : Reg) (s : State) : Result :=
  .next ((ioRead s (ioSlot s (s.x rB))).setX rA (ioAnswer s (ioSlot s (s.x rB))))

/-- ssp (R292): ExIllegal on an access violation, and then nothing is written. -/
def execSsp (rA rB : Reg) (s : State) : Result :=
  .next (
    match sprWrite s (sprNumber (s.x rB)) (s.x rA) with
    | none => raise exIllegal s
    | some t => t)

/-- sio (R293). -/
def execSio (rA rB : Reg) (s : State) : Result := .next (ioWrite s (ioSlot s (s.x rB)) (s.x rA))

/-- y04 (R294): reserved, ExIllegal in both modes. -/
def execY04 (_rA _rB : Reg) (s : State) : Result := .next (raise exIllegal s)

/-- y05 (R295): reserved, ExIllegal in both modes. -/
def execY05 (_rA _rB : Reg) (s : State) : Result := .next (raise exIllegal s)

/-- y06 (R296): reserved, ExIllegal in both modes. -/
def execY06 (_rA _rB : Reg) (s : State) : Result := .next (raise exIllegal s)

end Sys2Proof.Machine
end

