-- ==== Sys2Proof/Machine/Zop.lean ====
section
/-! DEFINITION. One-register instructions (46_zop.md). -/

namespace Sys2Proof.Machine

/-- not (R320). -/
def execNot (rA : Reg) (s : State) : Result := .next (alu1 (fun x => ~~~x) rA s)

/-- neg (R321): hc is not written. -/
def execNeg (rA : Reg) (s : State) : Result := .next (alu1 (fun x => 0 - x) rA s)

/-- sxt (R322). -/
def execSxt (rA : Reg) (s : State) : Result := .next (alu1 signExtendByte rA s)

/-- swb (R323). -/
def execSwb (rA : Reg) (s : State) : Result := .next (alu1 swapBytes rA s)

/-- lsr (R324): hc is written even when rA = r0. -/
def execLsr (rA : Reg) (s : State) : Result := .next (alu1Carry shiftRight rA s)

/-- lsl (R325). -/
def execLsl (rA : Reg) (s : State) : Result := .next (alu1Carry shiftLeft rA s)

/-- asr (R326). -/
def execAsr (rA : Reg) (s : State) : Result := .next (alu1Carry shiftRightArith rA s)

end Sys2Proof.Machine
end

