-- ==== Sys2Proof/Machine/Dispatch.lean ====
section
/-! DEFINITION. The execute, memory and writeback stages of an instruction: one arm per constructor of Instr, each one
call of its meaning. The state it is given is the one after the fetch stage: pc is already the address plus 1
(10_state.md R25). -/

namespace Sys2Proof.Machine

def exec (i : Instr) (s : State) : Host.Outcome State Fault Refusal :=
  match i with
  | .ldw rA rB imm => Sys2Proof.Machine.execLdw rA rB imm s
  | .ldb rA rB imm => Sys2Proof.Machine.execLdb rA rB imm s
  | .stw rA rB imm => Sys2Proof.Machine.execStw rA rB imm s
  | .stb rA rB imm => Sys2Proof.Machine.execStb rA rB imm s
  | .beq rA rB imm => Sys2Proof.Machine.execBeq rA rB imm s
  | .adi rA rB imm => Sys2Proof.Machine.execAdi rA rB imm s
  | .lui rA imm => Sys2Proof.Machine.execLui rA imm s
  | .jlr j rB imm => Sys2Proof.Machine.execJlr j rB imm s
  | .add rA rB rC => Sys2Proof.Machine.execAdd rA rB rC s
  | .adc rA rB rC => Sys2Proof.Machine.execAdc rA rB rC s
  | .sub rA rB rC => Sys2Proof.Machine.execSub rA rB rC s
  | .sbb rA rB rC => Sys2Proof.Machine.execSbb rA rB rC s
  | .bic rA rB rC => Sys2Proof.Machine.execBic rA rB rC s
  | .bis rA rB rC => Sys2Proof.Machine.execBis rA rB rC s
  | .xor rA rB rC => Sys2Proof.Machine.execXor rA rB rC s
  | .lsp rA rB => Sys2Proof.Machine.execLsp rA rB s
  | .lio rA rB => Sys2Proof.Machine.execLio rA rB s
  | .ssp rA rB => Sys2Proof.Machine.execSsp rA rB s
  | .sio rA rB => Sys2Proof.Machine.execSio rA rB s
  | .y04 rA rB => Sys2Proof.Machine.execY04 rA rB s
  | .y05 rA rB => Sys2Proof.Machine.execY05 rA rB s
  | .y06 rA rB => Sys2Proof.Machine.execY06 rA rB s
  | .not rA => Sys2Proof.Machine.execNot rA s
  | .neg rA => Sys2Proof.Machine.execNeg rA s
  | .sxt rA => Sys2Proof.Machine.execSxt rA s
  | .swb rA => Sys2Proof.Machine.execSwb rA s
  | .lsr rA => Sys2Proof.Machine.execLsr rA s
  | .lsl rA => Sys2Proof.Machine.execLsl rA s
  | .asr rA => Sys2Proof.Machine.execAsr rA s
  | .rti => Sys2Proof.Machine.execRti s
  | .rtl => Sys2Proof.Machine.execRtl s
  | .di => Sys2Proof.Machine.execDi s
  | .ei => Sys2Proof.Machine.execEi s
  | .hlt => Sys2Proof.Machine.execHlt s
  | .brk => Sys2Proof.Machine.execBrk s
  | .v06 => Sys2Proof.Machine.execV06 s
  | .die => Sys2Proof.Machine.execDie s

end Sys2Proof.Machine
end

