-- ==== Sys2Proof/Machine/Step.lean ====
section
/-! DEFINITION. One machine cycle (40_machine_cycle.md R160, R161), and a state whose next fetch reads a given word. -/

namespace Sys2Proof.Machine

/-- One machine cycle: fetch (with delivery), decode, execute, memory and writeback, and the count. "when `run` is false it
performs none" (R160). -/
def step (s : State) : Result :=
  if s.run then
    match fetch s with
    | .ended t => .next (endCycle s t)
    | .word ir t =>
      match exec (decodeWord ir) t with
      | .next u => .next (endCycle s u)
      | .fault f => .fault f
      | .refused r => .refused r
  else .fault (stopReason s)

/-- The state with the instruction word `w` stored where the next fetch reads: the translation of pc, or of the vector when
an exception is pending. A pc that does not translate is fetched from nowhere, and the state is left as it is. -/
def State.withFetchWord (s : State) (nbits w : Nat) : State :=
  match translateCode (deliverPending s) (deliverPending s).pc with
  | some pa => { s with mem := physWrite s.mem pa (BitVec.ofNat 16 (w % 2 ^ nbits)) }
  | none => s

end Sys2Proof.Machine
end

