-- ==== Sys2Proof/Machine/Lexer.lean ====
section
/-! DEFINITION. The codec's lexer (30_encoding.md R120). Source text is a list of characters; every function is structural,
so that the kernel can run it. -/

namespace Sys2Proof.Machine

/-- Source and listing text. -/
abbrev Text := List Char

/-- The token kinds of R120. -/
inductive Token where
  | symbol (name : Text)
  | label (name : Text)
  | number (value : Nat)
  | str (text : Text)
  | minus
  | colon
  | newline
  | eof
  | error
  deriving DecidableEq, Repr

/-- "Strict ASCII" (R120). -/
def isAscii (c : Char) : Bool := decide (c.toNat < 128)

/-- Space, tab, and the comma, which "is treated as whitespace between tokens" (R120). -/
def isBlank (c : Char) : Bool := c == ' ' || c == '\t' || c == ','

/-- "Symbols begin with a letter, `_`, or `.`" (R120). -/
def isSymbolStart (c : Char) : Bool := c.isAlpha || c == '_' || c == '.'

/-- "and continue with letters, digits, `_`" (R120). -/
def isSymbolRest (c : Char) : Bool := c.isAlpha || c.isDigit || c == '_'

/-- The value of a decimal digit. -/
def decDigit? (c : Char) : Option Nat := if c.isDigit then some (c.toNat - '0'.toNat) else none

/-- The value of a hexadecimal digit, either case. -/
def hexDigit? (c : Char) : Option Nat :=
  if c.isDigit then some (c.toNat - '0'.toNat)
  else if 'a' ≤ c ∧ c ≤ 'f' then some (c.toNat - 'a'.toNat + 10)
  else if 'A' ≤ c ∧ c ≤ 'F' then some (c.toNat - 'A'.toNat + 10)
  else none

/-- The value of a digit sequence in a base, most significant digit first; none where a character is no digit. -/
def digitsValue (base : Nat) (digit : Char → Option Nat) : Nat → Text → Option Nat
  | acc, [] => some acc
  | acc, c :: rest =>
    match digit c with
    | none => none
    | some d => digitsValue base digit (acc * base + d) rest

/-- Number: "decimal or `0x`/`0X`-prefixed hex" (R120). -/
def numberValue (t : Text) : Option Nat :=
  match t with
  | '0' :: 'x' :: d :: rest => digitsValue 16 hexDigit? 0 (d :: rest)
  | '0' :: 'X' :: d :: rest => digitsValue 16 hexDigit? 0 (d :: rest)
  | d :: rest => digitsValue 10 decDigit? 0 (d :: rest)
  | [] => none

/-- The symbol or label that starts here: a label is a "Symbol immediately followed by `:`" (R120). -/
def lexSymbol (c : Char) (rest : Text) : Token × Text :=
  let name := c :: rest.takeWhile isSymbolRest
  match rest.dropWhile isSymbolRest with
  | ':' :: after => (.label name, after)
  | after => (.symbol name, after)

/-- The number that starts here: the longest run of letters, digits and `_`, an error where that run is no number
(DESIGN CHOICE, log 10). -/
def lexNumber (c : Char) (rest : Text) : Token × Text :=
  let after := rest.dropWhile isSymbolRest
  match numberValue (c :: rest.takeWhile isSymbolRest) with
  | some v => (.number v, after)
  | none => (.error, after)

/-- The string after an opening quote: "no escapes, no embedded newline" (R120). -/
def lexString (rest : Text) : Token × Text :=
  let inside := rest.takeWhile (fun c => !(c == '"' || c == '\n'))
  match rest.dropWhile (fun c => !(c == '"' || c == '\n')) with
  | '"' :: after => (if inside.all isAscii then .str inside else .error, after)
  | after => (.error, after)

/-- The token that starts with a character that is neither blank nor `#` (R120). -/
def lexToken (c : Char) (rest : Text) : Token × Text :=
  if c == '\n' then (.newline, rest)
  else if isSymbolStart c then lexSymbol c rest
  else if c.isDigit then lexNumber c rest
  else if c == '"' then lexString rest
  else if c == '-' then (.minus, rest)
  else if c == ':' then (.colon, rest)
  else (.error, rest)

/-- The tokens of a text, with as much fuel as it has characters. A comment runs from `#` to the end of its line, and a
non-ASCII character in it is an error too (R120). -/
def lexWith : Nat → Text → List Token
  | 0, _ => [.eof]
  | _ + 1, [] => [.eof]
  | fuel + 1, c :: rest =>
    if isBlank c then lexWith fuel rest
    else if c == '#' then
      let after := rest.dropWhile (fun d => !(d == '\n'))
      if (rest.takeWhile (fun d => !(d == '\n'))).all isAscii then lexWith fuel after
      else .error :: lexWith fuel after
    else (lexToken c rest).1 :: lexWith fuel (lexToken c rest).2

/-- The lexer (R120). -/
def lex (source : Text) : List Token := lexWith (source.length + 1) source

end Sys2Proof.Machine
end

