-- ==== Sys2Proof/Machine/Parser.lean ====
section
/-! DEFINITION. The codec's line grammar (30_encoding.md R121 to R125): keys, operands, one source line from its tokens. -/

namespace Sys2Proof.Machine

/-- What the codec refuses an input for (30_encoding.md R127, R129, R134; 93_implementation_defined.md I29 to I33). -/
inductive CodecError where
  /-- a character sequence that is no token, a non-ASCII character among them (R120) -/
  | lexError
  /-- not a line of the grammar (R121) -/
  | syntaxError
  /-- a key position holding no key (R121) -/
  | unknownKey
  /-- a directive line (R134, D40) -/
  | directive
  /-- two or more `-` prefixes (R122, D41) -/
  | doubleMinus
  /-- "symbol redefined" (R123) -/
  | redefined
  /-- more than 0x7FFE user symbols (R123, I33) -/
  | tooManySymbols
  /-- a register position holding anything but r0..r7 (R127) -/
  | notARegister
  /-- a symbol that is never defined (R129) -/
  | unresolved
  /-- a key used as a value: the spec gives its shape signature no number (R123; log 10) -/
  | keyAsValue
  /-- "immediate out of range" (R127) -/
  | outOfRange
  /-- a line that would encode 0x0000 (R127, D42) -/
  | zeroWord
  /-- more code than 64 K instructions (R135) -/
  | imageTooLarge
  deriving DecidableEq, Repr

/-- A KeySymbol: "a mnemonic of rule R110, a pseudo-instruction of rule R130 or a directive of rule R134" (R121). -/
inductive Key where
  | op (m : Mnemonic)
  | lli
  | ldi
  | jmp
  | jsr
  | sys
  | nop
  | directive
  deriving DecidableEq, Repr

/-- The pseudo-instructions and directives by name (R130, R134). -/
def otherKeys : List (Text × Key) :=
  [("lli".toList, .lli), ("ldi".toList, .ldi), ("jmp".toList, .jmp), ("jsr".toList, .jsr), ("sys".toList, .sys),
   ("nop".toList, .nop), (".set".toList, .directive), (".space".toList, .directive), (".fill".toList, .directive),
   (".word".toList, .directive), (".byte".toList, .directive), (".string".toList, .directive)]

/-- All keys by name. -/
def keyTable : List (Text × Key) := Mnemonic.all.map (fun m => (m.name.toList, .op m)) ++ otherKeys

/-- The key a symbol names. -/
def keyOf (name : Text) : Option Key := keyTable.lookup name

/-- `numOperands`: fixed per key (R121, R125, R130). -/
def numOperands : Key → Nat
  | .op m =>
    match m with
    | .ldw | .ldb | .stw | .stb | .beq | .adi | .jlr => 3
    | .add | .adc | .sub | .sbb | .bic | .bis | .xor => 3
    | .lui | .lsp | .lio | .ssp | .sio | .y04 | .y05 | .y06 => 2
    | .not | .neg | .sxt | .swb | .lsr | .lsl | .asr => 1
    | .rti | .rtl | .di | .ei | .hlt | .brk | .v06 | .die => 0
  | .lli | .ldi | .jmp | .jsr => 2
  | .sys => 1
  | .nop | .directive => 0

/-- What an operand names. -/
inductive Atom where
  | num (value : Nat)
  | sym (name : Text)
  deriving DecidableEq, Repr

/-- An Expression: at most one `-`, then a Number or Symbol (R122). -/
structure Operand where
  negated : Bool
  atom : Atom
  deriving DecidableEq, Repr

/-- A source line: an optional label and an optional statement (R121). -/
structure Line where
  label : Option Text
  stmt : Option (Key × List Operand)
  deriving DecidableEq, Repr

/-- Exactly n operands and nothing after them (R121, R122). -/
def parseOperands : Nat → List Token → Except CodecError (List Operand)
  | 0, [] => .ok []
  | 0, _ :: _ => .error .syntaxError
  | n + 1, .number v :: rest => (parseOperands n rest).map (⟨false, .num v⟩ :: ·)
  | n + 1, .symbol x :: rest => (parseOperands n rest).map (⟨false, .sym x⟩ :: ·)
  | n + 1, .minus :: .number v :: rest => (parseOperands n rest).map (⟨true, .num v⟩ :: ·)
  | n + 1, .minus :: .symbol x :: rest => (parseOperands n rest).map (⟨true, .sym x⟩ :: ·)
  | _ + 1, .minus :: .minus :: _ => .error .doubleMinus
  | _ + 1, _ => .error .syntaxError

/-- A statement: a key and its operands. Every directive line is refused (R134). -/
def parseStmt : List Token → Except CodecError (Option (Key × List Operand))
  | [] => .ok none
  | .symbol x :: rest =>
    match keyOf x with
    | none => .error .unknownKey
    | some .directive => .error .directive
    | some k => (parseOperands (numOperands k) rest).map (fun ops => some (k, ops))
  | _ => .error .syntaxError

/-- One source line from the tokens before its newline (R121). -/
def parseLine (tokens : List Token) : Except CodecError Line :=
  if tokens.contains .error then .error .lexError
  else
    match tokens with
    | .label name :: rest => (parseStmt rest).map (fun st => ⟨some name, st⟩)
    | _ => (parseStmt tokens).map (fun st => ⟨none, st⟩)

/-- The tokens of each line: a line ends at a newline, and the last one at the end of the text (log 10). -/
def splitLines : List Token → List (List Token)
  | [] => []
  | .newline :: rest => [] :: splitLines rest
  | .eof :: rest => splitLines rest
  | t :: rest =>
    match splitLines rest with
    | [] => [[t]]
    | l :: ls => (t :: l) :: ls

end Sys2Proof.Machine
end

