-- ==== Sys2Proof/Machine/Assembler.lean ====
section
/-! DEFINITION. The assembler (30_encoding.md R122 to R135): symbols, the records a line produces, the two passes of the
generator, and the output image. -/

namespace Sys2Proof.Machine

/-- The user symbols defined so far: name and word address. -/
abbrev Labels := List (Text × Nat)

/-- "r0..r7 at indices 0..7 with value=index" (R123). -/
def registerOf (name : Text) : Option Reg :=
  match name with
  | ['r', '0'] => some 0
  | ['r', '1'] => some 1
  | ['r', '2'] => some 2
  | ['r', '3'] => some 3
  | ['r', '4'] => some 4
  | ['r', '5'] => some 5
  | ['r', '6'] => some 6
  | ['r', '7'] => some 7
  | _ => none

/-- A name the symbol table is seeded with: the registers and the keys (R123). -/
def isSeeded (name : Text) : Bool := (registerOf name).isSome || (keyOf name).isSome

/-- The value a symbol has where it is defined: a register's index or a label's address (R123). -/
def symbolValue (labels : Labels) (name : Text) : Option Nat :=
  match registerOf name with
  | some r => some r.val
  | none => labels.lookup name

/-- "a negated operand has the value -v of its Number or Symbol v" (R122). -/
def signed (negated : Bool) (v : Nat) : Int := if negated then -(v : Int) else v

/-- The value of an operand that is a number or an already defined symbol; none for a forward reference (R131, R132). -/
def knownValue (labels : Labels) (o : Operand) : Option Int :=
  match o.atom with
  | .num v => some (signed o.negated v)
  | .sym x => (symbolValue labels x).map (signed o.negated)

/-- The value of an operand in pass 1 of the generator, with every label known (R129). -/
def operandValue (labels : Labels) (o : Operand) : Except CodecError Int :=
  match knownValue labels o with
  | some v => .ok v
  | none =>
    match o.atom with
    | .num _ => .error .unresolved
    | .sym x => if (keyOf x).isSome then .error .keyAsValue else .error .unresolved

/-- A register operand: "exactly one of the symbols r0..r7; anything else in a register position is refused" (R125). -/
def operandReg (o : Operand) : Except CodecError Reg :=
  match o.negated, o.atom with
  | false, .sym x =>
    match registerOf x with
    | some r => .ok r
    | none => .error .notARegister
  | _, _ => .error .notARegister

/-- The machine records of a line, each of which becomes one word (R124): an instruction as written, or one word of a
pseudo-instruction. -/
inductive Record where
  /-- a mnemonic with its operands -/
  | plain (m : Mnemonic) (ops : List Operand)
  /-- `adi rT, r0, V`: lli, and ldi in its short form (R130, R131) -/
  | loadSmall (rT v : Operand)
  /-- `lui rT, x[15:6]` (R131) -/
  | ldiHigh (rT v : Operand)
  /-- `adi rT, rT, x[5:0]` (R131) -/
  | ldiLow (rT v : Operand)
  /-- `jlr r0, j, T` (R132) -/
  | jumpSmall (j : Nat) (rT t : Operand)
  /-- `lui rT, U` (R132) -/
  | jumpHigh (rT t : Operand)
  /-- `jlr rT, j, L` (R132) -/
  | jumpLow (j : Nat) (rT t : Operand)
  /-- `jlr r0, 0, N` (R133) -/
  | sysCall (n : Operand)
  /-- `neg r0` (R130) -/
  | noOp
  deriving DecidableEq, Repr

/-- Whether an operand has a known value in a range when its line is parsed (R131, R132). -/
def knownIn (labels : Labels) (o : Operand) (lo hi : Int) : Bool :=
  match knownValue labels o with
  | some v => decide (lo ≤ v ∧ v ≤ hi)
  | none => false

/-- ldi: one word where V is known and in -64..63, else two (R131). -/
def ldiRecords (labels : Labels) (rT v : Operand) : List Record :=
  if knownIn labels v (-64) 63 then [.loadSmall rT v] else [.ldiHigh rT v, .ldiLow rT v]

/-- jmp (j = 2) and jsr (j = 1): one word where T is known and in -32..31, else two (R132). -/
def jumpRecords (labels : Labels) (j : Nat) (rT t : Operand) : List Record :=
  if knownIn labels t (-32) 31 then [.jumpSmall j rT t] else [.jumpHigh rT t, .jumpLow j rT t]

/-- "each line produces zero, one, or two records" (R124); the sizes are fixed when the line is parsed. -/
def recordsOf (labels : Labels) (k : Key) (ops : List Operand) : Except CodecError (List Record) :=
  match k, ops with
  | .op m, ops => .ok [.plain m ops]
  | .lli, [rT, v] => .ok [.loadSmall rT v]
  | .ldi, [rT, v] => .ok (ldiRecords labels rT v)
  | .jmp, [rT, t] => .ok (jumpRecords labels 2 rT t)
  | .jsr, [rT, t] => .ok (jumpRecords labels 1 rT t)
  | .sys, [n] => .ok [.sysCall n]
  | .nop, [] => .ok [.noOp]
  | .directive, _ => .error .directive
  | _, _ => .error .syntaxError

/-! ## Generation (R126 to R133) -/

/-- The word of an instruction whose operands are in range and whose encoding is not 0x0000 (R126, R127). -/
def emit (i : Instr) : Except CodecError Word :=
  if i.wellFormed then (if encode i = 0 then .error .zeroWord else .ok (encode i)) else .error .outOfRange

/-- The offset of a branch: (target - (pc + 1)) modulo 2^16, read as signed (R128). -/
def branchOffset (pc : Nat) (target : Int) : Int := (BitVec.ofInt 16 (target - (pc + 1))).toInt

/-- A non-negative value where a field is unsigned (R125). -/
def natOperand (v : Int) : Except CodecError Nat := if v < 0 then .error .outOfRange else .ok v.toNat

/-- Two registers and an immediate (R125). -/
def buildRri (labels : Labels) (f : Reg → Reg → Int → Instr) (a b i : Operand) : Except CodecError Instr := do
  let rA ← operandReg a
  let rB ← operandReg b
  let v ← operandValue labels i
  return f rA rB v

/-- Three registers (R125). -/
def buildRrr (f : Reg → Reg → Reg → Instr) (a b c : Operand) : Except CodecError Instr := do
  let rA ← operandReg a
  let rB ← operandReg b
  let rC ← operandReg c
  return f rA rB rC

/-- Two registers (R125). -/
def buildRrx (f : Reg → Reg → Instr) (a b : Operand) : Except CodecError Instr := do
  let rA ← operandReg a
  let rB ← operandReg b
  return f rA rB

/-- One register (R125). -/
def buildRxx (f : Reg → Instr) (a : Operand) : Except CodecError Instr := do
  let rA ← operandReg a
  return f rA

/-- `lui rA, I` (R125). -/
def buildLui (labels : Labels) (a i : Operand) : Except CodecError Instr := do
  let rA ← operandReg a
  let v ← operandValue labels i
  let n ← natOperand v
  return .lui rA n

/-- `jlr rB, J, I`: the base register first (R125, 92_eei_decisions.md D33). -/
def buildJlr (labels : Labels) (b j i : Operand) : Except CodecError Instr := do
  let rB ← operandReg b
  let jv ← operandValue labels j
  let n ← natOperand jv
  let v ← operandValue labels i
  return .jlr n rB v

/-- `beq rA, rB, T` at word address pc (R125, R128). -/
def buildBeq (labels : Labels) (pc : Nat) (a b t : Operand) : Except CodecError Instr := do
  let rA ← operandReg a
  let rB ← operandReg b
  let v ← operandValue labels t
  return .beq rA rB (branchOffset pc v)

/-- The instruction of a mnemonic line at word address pc (R125). -/
def buildInstr (labels : Labels) (pc : Nat) (m : Mnemonic) (ops : List Operand) : Except CodecError Instr :=
  match m, ops with
  | .ldw, [a, b, i] => buildRri labels .ldw a b i
  | .ldb, [a, b, i] => buildRri labels .ldb a b i
  | .stw, [a, b, i] => buildRri labels .stw a b i
  | .stb, [a, b, i] => buildRri labels .stb a b i
  | .adi, [a, b, i] => buildRri labels .adi a b i
  | .beq, [a, b, t] => buildBeq labels pc a b t
  | .lui, [a, i] => buildLui labels a i
  | .jlr, [b, j, i] => buildJlr labels b j i
  | .add, [a, b, c] => buildRrr .add a b c
  | .adc, [a, b, c] => buildRrr .adc a b c
  | .sub, [a, b, c] => buildRrr .sub a b c
  | .sbb, [a, b, c] => buildRrr .sbb a b c
  | .bic, [a, b, c] => buildRrr .bic a b c
  | .bis, [a, b, c] => buildRrr .bis a b c
  | .xor, [a, b, c] => buildRrr .xor a b c
  | .lsp, [a, b] => buildRrx .lsp a b
  | .lio, [a, b] => buildRrx .lio a b
  | .ssp, [a, b] => buildRrx .ssp a b
  | .sio, [a, b] => buildRrx .sio a b
  | .y04, [a, b] => buildRrx .y04 a b
  | .y05, [a, b] => buildRrx .y05 a b
  | .y06, [a, b] => buildRrx .y06 a b
  | .not, [a] => buildRxx .not a
  | .neg, [a] => buildRxx .neg a
  | .sxt, [a] => buildRxx .sxt a
  | .swb, [a] => buildRxx .swb a
  | .lsr, [a] => buildRxx .lsr a
  | .lsl, [a] => buildRxx .lsl a
  | .asr, [a] => buildRxx .asr a
  | .rti, [] => .ok .rti
  | .rtl, [] => .ok .rtl
  | .di, [] => .ok .di
  | .ei, [] => .ok .ei
  | .hlt, [] => .ok .hlt
  | .brk, [] => .ok .brk
  | .v06, [] => .ok .v06
  | .die, [] => .ok .die
  | _, _ => .error .syntaxError

/-- The 16-bit value of an ldi, jmp or jsr operand, which "must lie in -32768..65535" (R131, R132). -/
def wideValue (labels : Labels) (o : Operand) : Except CodecError Word := do
  let v ← operandValue labels o
  if -32768 ≤ v ∧ v ≤ 65535 then return BitVec.ofInt 16 v else throw .outOfRange

/-- ldi's split: x[15:6] and x[5:0] (R131). -/
def ldiParts (x : Word) : Nat × Int := ((x.extractLsb' 6 10).toNat, ((x.extractLsb' 0 6).toNat : Int))

/-- jmp's and jsr's split: L = sext_6(t[5:0]) and U = ((t - L) mod 2^16) >> 6 (R132). -/
def jumpParts (t : Word) : Nat × Int :=
  let low : Int := (t.extractLsb' 0 6).toInt
  (((t - BitVec.ofInt 16 low) >>> 6).toNat, low)

/-- The instruction a record stands for at word address pc (R125 to R133). -/
def recordInstr (labels : Labels) (pc : Nat) : Record → Except CodecError Instr
  | .plain m ops => buildInstr labels pc m ops
  | .loadSmall rT v => do
    let r ← operandReg rT
    let x ← operandValue labels v
    return .adi r 0 x
  | .ldiHigh rT v => do
    let r ← operandReg rT
    let x ← wideValue labels v
    return .lui r (ldiParts x).1
  | .ldiLow rT v => do
    let r ← operandReg rT
    let x ← wideValue labels v
    return .adi r r (ldiParts x).2
  | .jumpSmall j rT t => do
    let _ ← operandReg rT
    let x ← operandValue labels t
    return .jlr j 0 x
  | .jumpHigh rT t => do
    let r ← operandReg rT
    let x ← wideValue labels t
    return .lui r (jumpParts x).1
  | .jumpLow j rT t => do
    let r ← operandReg rT
    let x ← wideValue labels t
    return .jlr j r (jumpParts x).2
  | .sysCall n => do
    let v ← operandValue labels n
    if v % 2 = 0 ∧ -32 ≤ v ∧ v ≤ 30 then return .jlr 0 0 v else throw .outOfRange
  | .noOp => .ok (.neg 0)

/-- The word of a record at word address pc. -/
def recordWord (labels : Labels) (pc : Nat) (r : Record) : Except CodecError Word :=
  match recordInstr labels pc r with
  | .ok i => emit i
  | .error e => .error e

/-! ## The passes (R123, R129) -/

/-- An error with the number of its line, counted from 1: "a model reports success or failure and the line"
(91_not_in_source.md N29). -/
abbrev LineError := Nat × CodecError

/-- A record with its line number and word address. -/
structure Placed where
  lineNo : Nat
  addr : Nat
  record : Record
  deriving DecidableEq, Repr

/-- What the parser has built: the labels, the address of the next word, the records and the errors. -/
structure Parsed where
  labels : Labels
  addr : Nat
  records : List Placed
  errors : List LineError
  deriving DecidableEq, Repr

/-- The parser before the first line. -/
def Parsed.start : Parsed := ⟨[], 0, [], []⟩

/-- "limit 0x7FFE" user symbols (R123, 93_implementation_defined.md I33). -/
def maxUserSymbols : Nat := 0x7FFE

/-- The parser with one more error. -/
def Parsed.fail (p : Parsed) (n : Nat) (e : CodecError) : Parsed := { p with errors := p.errors ++ [(n, e)] }

/-- A label's value is "the word address of the next word the generator emits after the label" (R123). The spec does not say what
it is where no word follows, as for a label at the end of the source. DESIGN CHOICE (log 10): the address one past the last
word. -/
def defineLabel (p : Parsed) (n : Nat) (name : Text) : Parsed :=
  if isSeeded name || (p.labels.lookup name).isSome then p.fail n .redefined
  else if maxUserSymbols ≤ p.labels.length then p.fail n .tooManySymbols
  else { p with labels := p.labels ++ [(name, p.addr)] }

/-- Records placed one after another from an address. -/
def placeFrom (n : Nat) : Nat → List Record → List Placed
  | _, [] => []
  | a, r :: rest => ⟨n, a, r⟩ :: placeFrom n (a + 1) rest

/-- One line's statement added to the records. -/
def addStmt (p : Parsed) (n : Nat) (st : Option (Key × List Operand)) : Parsed :=
  match st with
  | none => p
  | some (k, ops) =>
    match recordsOf p.labels k ops with
    | .error e => p.fail n e
    | .ok rs => { p with addr := p.addr + rs.length, records := p.records ++ placeFrom n p.addr rs }

/-- One line; a line that did not parse is skipped and counted (R129). The spec does not say whether a label counts as "a Symbol
already defined when the line is parsed" (R131, R132) for the statement of its own line, as in `L: ldi r1, L`. DESIGN CHOICE
(log 10): it does, the label is defined before the statement is sized. -/
def addLine (p : Parsed) (n : Nat) (l : Except CodecError Line) : Parsed :=
  match l with
  | .error e => p.fail n e
  | .ok line =>
    match line.label with
    | none => addStmt p n line.stmt
    | some name => addStmt (defineLabel p n name) n line.stmt

/-- All lines in order, numbered from n. -/
def addLines : Parsed → Nat → List (Except CodecError Line) → Parsed
  | p, _, [] => p
  | p, n, l :: rest => addLines (addLine p n l) (n + 1) rest

/-- The words and the errors of the placed records, "Collected and reported together" (R129). -/
def generate (labels : Labels) : List Placed → List Word × List LineError
  | [] => ([], [])
  | r :: rest =>
    let more := generate labels rest
    match recordWord labels r.addr r.record with
    | .ok w => (w :: more.1, more.2)
    | .error e => (more.1, (r.lineNo, e) :: more.2)

/-- "maximum 128 KiB (64 K instructions)" (R135). -/
def maxCodeWords : Nat := 65536

/-- The code words of parsed source lines, or the errors: "on nonzero count they ... write no binary" (R129). -/
def assembleLines (lines : List (Except CodecError Line)) : Except (List LineError) (List Word) :=
  let p := addLines .start 1 lines
  if p.errors ≠ [] then .error p.errors
  else
    let out := generate p.labels p.records
    if out.2 ≠ [] then .error out.2
    else if maxCodeWords < out.1.length then .error [(0, .imageTooLarge)]
    else .ok out.1

/-- The assembler: source text to code words (R120 to R134). -/
def assemble (source : Text) : Except (List LineError) (List Word) :=
  assembleLines ((splitLines (lex source)).map parseLine)

/-- The output image: "Contiguous little-endian 16-bit code words from offset 0" (R135). -/
def imageBytes (words : List Word) : List Byte := words.flatMap (fun w => [loByte w, hiByte w])

end Sys2Proof.Machine
end

