-- ==== Sys2Proof/Machine/Disassembler.lean ====
section
/-! DEFINITION. The disassembler (30_encoding.md R140 to R149): the code segment, the three passes, and the listing. Pass 2
works on lines as data; a line is printed only in pass 3, in the syntax the assembler reads (R125, R149). -/

namespace Sys2Proof.Machine

/-! ## Input (R140) -/

/-- The words of a file: file bytes 2k and 2k+1 are word k (20_memory.md R62). A last single byte is no word. -/
def wordsOfBytes : List Byte → List Word
  | lo :: hi :: rest => wordOfBytes lo hi :: wordsOfBytes rest
  | _ => []

/-- The code segment "stops at the first aligned zero word" (R140), and no later than file offset 128 KiB, where a data segment
begins (R135): "The data segment is not disassembled" (R140). -/
def codeSegment (words : List Word) : List Word := (words.take maxCodeWords).takeWhile (fun w => !(w == 0))

/-! ## Pass 2 (R143 to R148) -/

/-- What a line position of the listing holds. -/
inductive DisLine where
  /-- a suppressed line: "blanked, not removed" (R148) -/
  | blank
  /-- the instruction in its canonical syntax (R141) -/
  | instr (i : Instr)
  /-- `ldi rT, V` (R143) -/
  | ldi (rT : Reg) (v : Word)
  /-- `jmp rT, T` (R144) -/
  | jmp (rT : Reg) (t : Word)
  /-- `jsr rT, T` (R144) -/
  | jsr (rT : Reg) (t : Word)
  /-- `sys N` (R145) -/
  | sys (n : Int)
  /-- `lli rT, I` (R146) -/
  | lli (rT : Reg) (imm : Int)
  /-- `nop` (R147) -/
  | nop
  deriving DecidableEq, Repr

/-- The value a `lui rT, U ; adi rT, rT, L` pair builds: (U << 6) | L (R143). -/
def ldiValue (upper : Nat) (low : Int) : Word := (BitVec.ofNat 16 upper <<< 6) ||| BitVec.ofInt 16 low

/-- The target of a `lui rB, U ; jlr rB, j, L` pair: ((U << 6) + L) mod 2^16 (R144). -/
def jumpTarget (upper : Nat) (low : Int) : Word := (BitVec.ofNat 16 upper <<< 6) + BitVec.ofInt 16 low

/-- The fusion of `lui rT, U` with the next instruction, R143 first, then R144; none where neither applies (R148). -/
def fusePair (rT : Reg) (upper : Nat) (next : Instr) : Option DisLine :=
  match next with
  | .adi rA rB low =>
    if rA = rT ∧ rB = rT ∧ 0 ≤ low ∧ low ≤ 63 ∧ upper ≠ 0 then some (.ldi rT (ldiValue upper low)) else none
  | .jlr j rB low =>
    if rB = rT ∧ 32 ≤ (jumpTarget upper low).toNat then
      if j = 2 then some (.jmp rT (jumpTarget upper low))
      else if j = 1 then some (.jsr rT (jumpTarget upper low))
      else none
    else none
  | _ => none

/-- The rewrites of a word that no fusion consumed (R145 to R147). -/
def rewriteOne (i : Instr) : DisLine :=
  match i with
  | .jlr j rB imm => if j = 0 ∧ rB = 0 ∧ imm % 2 = 0 then .sys imm else .instr i
  | .adi rA rB imm => if rB = 0 then .lli rA imm else .instr i
  | .neg rA => if rA = 0 then .nop else .instr i
  | _ => .instr i

/-- Pass 2 over the decoded words, in increasing index: one line position per word (R148). -/
def fuse : List Instr → List DisLine
  | .lui rT upper :: next :: rest =>
    match fusePair rT upper next with
    | some l => .blank :: l :: fuse rest
    | none => rewriteOne (.lui rT upper) :: fuse (next :: rest)
  | i :: rest => rewriteOne i :: fuse rest
  | [] => []

/-! ## Lines as source (R125, R130, R142) -/

/-- The symbol of a register (R123, R141). -/
def regName (r : Reg) : Text := ['r', Char.ofNat ('0'.toNat + r.val)]

/-- A register operand. -/
def regOperand (r : Reg) : Operand := ⟨false, .sym (regName r)⟩

/-- A numeric operand, with a leading `-` when negative (R141). -/
def intOperand (v : Int) : Operand := ⟨decide (v < 0), .num v.natAbs⟩

/-- An unsigned operand. -/
def natNumber (v : Nat) : Operand := ⟨false, .num v⟩

/-- The absolute target of a beq at index k: (k + 1 + imm7) mod 2^16 (R142). -/
def beqTarget (k : Nat) (imm : Int) : Word := BitVec.ofNat 16 (k + 1) + BitVec.ofInt 16 imm

/-- The operands of an instruction at index k, in the order of R125. -/
def instrOperands (k : Nat) : Instr → List Operand
  | .ldw rA rB imm => [regOperand rA, regOperand rB, intOperand imm]
  | .ldb rA rB imm => [regOperand rA, regOperand rB, intOperand imm]
  | .stw rA rB imm => [regOperand rA, regOperand rB, intOperand imm]
  | .stb rA rB imm => [regOperand rA, regOperand rB, intOperand imm]
  | .adi rA rB imm => [regOperand rA, regOperand rB, intOperand imm]
  | .beq rA rB imm => [regOperand rA, regOperand rB, natNumber (beqTarget k imm).toNat]
  | .lui rA imm => [regOperand rA, natNumber imm]
  | .jlr j rB imm => [regOperand rB, natNumber j, intOperand imm]
  | .add rA rB rC => [regOperand rA, regOperand rB, regOperand rC]
  | .adc rA rB rC => [regOperand rA, regOperand rB, regOperand rC]
  | .sub rA rB rC => [regOperand rA, regOperand rB, regOperand rC]
  | .sbb rA rB rC => [regOperand rA, regOperand rB, regOperand rC]
  | .bic rA rB rC => [regOperand rA, regOperand rB, regOperand rC]
  | .bis rA rB rC => [regOperand rA, regOperand rB, regOperand rC]
  | .xor rA rB rC => [regOperand rA, regOperand rB, regOperand rC]
  | .lsp rA rB => [regOperand rA, regOperand rB]
  | .lio rA rB => [regOperand rA, regOperand rB]
  | .ssp rA rB => [regOperand rA, regOperand rB]
  | .sio rA rB => [regOperand rA, regOperand rB]
  | .y04 rA rB => [regOperand rA, regOperand rB]
  | .y05 rA rB => [regOperand rA, regOperand rB]
  | .y06 rA rB => [regOperand rA, regOperand rB]
  | .not rA => [regOperand rA]
  | .neg rA => [regOperand rA]
  | .sxt rA => [regOperand rA]
  | .swb rA => [regOperand rA]
  | .lsr rA => [regOperand rA]
  | .lsl rA => [regOperand rA]
  | .asr rA => [regOperand rA]
  | .rti => []
  | .rtl => []
  | .di => []
  | .ei => []
  | .hlt => []
  | .brk => []
  | .v06 => []
  | .die => []

/-- The statement a line position at index k stands for, none where it is blank. -/
def disStmt (k : Nat) : DisLine → Option (Key × List Operand)
  | .blank => none
  | .instr i => some (.op i.mnemonic, instrOperands k i)
  | .ldi rT v => some (.ldi, [regOperand rT, natNumber v.toNat])
  | .jmp rT t => some (.jmp, [regOperand rT, natNumber t.toNat])
  | .jsr rT t => some (.jsr, [regOperand rT, natNumber t.toNat])
  | .sys n => some (.sys, [intOperand n])
  | .lli rT imm => some (.lli, [regOperand rT, intOperand imm])
  | .nop => some (.nop, [])

/-- The lines of a listing as source lines, numbered from index k. -/
def disSource : Nat → List DisLine → List Line
  | _, [] => []
  | k, l :: rest => ⟨none, disStmt k l⟩ :: disSource (k + 1) rest

/-! ## Pass 3: text (R141, R149) -/

/-- A hexadecimal digit, upper case (R141). -/
def hexDigit (d : Nat) : Char := if d < 10 then Char.ofNat ('0'.toNat + d) else Char.ofNat ('A'.toNat + (d - 10))

/-- The last n hexadecimal digits of a number (R141). -/
def hexDigits : Nat → Nat → Text
  | 0, _ => []
  | n + 1, v => hexDigits n (v / 16) ++ [hexDigit (v % 16)]

/-- Decimal digits with no leading zero, for numbers of at most `fuel` digits. -/
def decDigits : Nat → Nat → Text
  | 0, _ => []
  | fuel + 1, v =>
    if v < 10 then [Char.ofNat ('0'.toNat + v)] else decDigits fuel (v / 10) ++ [Char.ofNat ('0'.toNat + v % 10)]

/-- How a number is printed (R141, R143, R144, R145). -/
inductive NumFormat where
  /-- `0x` and this many hexadecimal digits -/
  | hex (digits : Nat)
  /-- decimal, as few digits as it takes, at most eight -/
  | dec
  deriving DecidableEq, Repr

/-- A number's text. -/
def printNumber (f : NumFormat) (v : Nat) : Text :=
  match f with
  | .hex n => '0' :: 'x' :: hexDigits n v
  | .dec => decDigits 8 v

/-- An operand's text. -/
def printOperand (f : NumFormat) (o : Operand) : Text :=
  (if o.negated then ['-'] else []) ++
    match o.atom with
    | .num v => printNumber f v
    | .sym x => x

/-- The name of a key. -/
def keyName : Key → Text
  | .op m => m.name.toList
  | .lli => "lli".toList
  | .ldi => "ldi".toList
  | .jmp => "jmp".toList
  | .jsr => "jsr".toList
  | .sys => "sys".toList
  | .nop => "nop".toList
  | .directive => ".word".toList

/-- The number format of each operand of a key: "imm7 and imm6 as `0x` followed by two upper-case hex digits ... the lui field
as `0x` and three hex digits; beq targets as unsigned decimal; the jlr sub-opcode as a decimal digit" (R141), four digits for
ldi (R143), decimal for jmp, jsr and sys (R144, R145). Register operands print their name whatever the format. -/
def operandFormats : Key → List NumFormat
  | .op m =>
    match m with
    | .beq => [.dec, .dec, .dec]
    | .lui => [.dec, .hex 3]
    | .jlr => [.dec, .dec, .hex 2]
    | _ => [.dec, .dec, .hex 2]
  | .lli => [.dec, .hex 2]
  | .ldi => [.dec, .hex 4]
  | .jmp | .jsr | .sys | .nop | .directive => [.dec, .dec]

/-- Operands after the first, each after a comma and a space (the examples of R125 and R143). -/
def printOperands : Bool → List NumFormat → List Operand → Text
  | first, f :: fs, o :: os =>
    (if first then [' '] else [',', ' ']) ++ printOperand f o ++ printOperands false fs os
  | _, _, _ => []

/-- A line's text, without prefix columns (R141). -/
def printLine (l : Line) : Text :=
  match l.stmt with
  | none => []
  | some (k, ops) => keyName k ++ printOperands true (operandFormats k) ops

/-- The lines of the `-q` listing of a code segment: one line position per word (R148, R149). -/
def listingLines (words : List Word) : List Text :=
  (disSource 0 (fuse ((codeSegment words).map decodeWord))).map printLine

/-- The prefix columns: `INDEX: 0xOPCODE: ` (R149, 92_eei_decisions.md D39). -/
def prefixColumns (k : Nat) (w : Word) : Text :=
  hexDigits 4 k ++ [':', ' ', '0', 'x'] ++ hexDigits 4 w.toNat ++ [':', ' ']

/-- Lines with their prefix columns, from index k. -/
def addPrefixes : Nat → List Word → List Text → List Text
  | k, w :: ws, t :: ts => (prefixColumns k w ++ t) :: addPrefixes (k + 1) ws ts
  | _, _, _ => []

/-- The lines of the listing with prefix columns (R149). -/
def prefixedLines (words : List Word) : List Text :=
  addPrefixes 0 (codeSegment words) (listingLines words)

/-- The `-q` listing as one text, a newline after every line: "producing output acceptable as input to the assembler"
(R149). -/
def disassemble (words : List Word) : Text := (listingLines words).flatMap (fun t => t ++ ['\n'])

end Sys2Proof.Machine
end

