-- ==== Sys2Proof/Machine/Load.lean ====
section
/-! DEFINITION. The host load before the first cycle: the kernel and user images and the MMU preload
(70_reset_and_hazards.md R455, R456), and the machine a run starts from. -/

namespace Sys2Proof.Machine

/-- Why the load fails; then no cycle runs (R455, 93_implementation_defined.md I28). -/
inductive LoadError where
  /-- "file too large (> 3·64 KiB)" -/
  | fileTooLarge
  /-- the image does not fit below PHYS_WORDS (92_eei_decisions.md D44) -/
  | beyondMemory
  deriving DecidableEq, Repr

/-- One value of MMU_PRELOAD (R456). -/
structure MmuValue where
  mode : Mode
  entry : Fin 32
  value : Word
  deriving DecidableEq, Repr

/-- The largest image: 3·64 KiB (R455). -/
def maxImageBytes : Nat := 0x30000

/-- Physical byte address of the kernel image (R455). -/
def kernelBase : Nat := 0

/-- Physical byte address of the user image: 3·64 KiB (R455). -/
def userBase : Nat := 0x30000

/-- The file copied byte for byte (R455): byte k of the file to physical byte base + k. -/
def loadBytes (m : Memory) (base : Nat) : List Byte → Memory
  | [] => m
  | b :: rest => loadBytes (m.write base b) (base + 1) rest

/-- One image of the load, with its two checks (R455, D44). -/
def loadImage (s : State) (base : Nat) (file : List Byte) : Except LoadError State :=
  if maxImageBytes < file.length then .error .fileTooLarge
  else if s.params.physWords < (base + file.length + 1) / 2 then .error .beyondMemory
  else .ok { s with mem := loadBytes s.mem base file }

/-- MMU_PRELOAD applied (R456). -/
def applyPreload (s : State) (preload : List MmuValue) : State :=
  preload.foldl (fun t p => t.setMmu p.mode p.entry p.value) s

/-- `HostLoad`: kernel image, then the user image where there is one, then MMU_PRELOAD (R455). -/
def hostLoad (s : State) (kernelFile : List Byte) (userFile : Option (List Byte)) (preload : List MmuValue) :
    Except LoadError State :=
  match loadImage s kernelBase kernelFile with
  | .error e => .error e
  | .ok t =>
    match userFile with
    | none => .ok (applyPreload t preload)
    | some file =>
      match loadImage t userBase file with
      | .error e => .error e
      | .ok u => .ok (applyPreload u preload)

/-- LAYOUT's four values for page p (R456). -/
def layoutPage (p : Fin 16) : List MmuValue :=
  [⟨.kernel, codeEntry p, BitVec.ofNat 16 p.val⟩,
   ⟨.kernel, dataEntry p, BitVec.ofNat 16 (0x020 + p.val)⟩,
   ⟨.user, codeEntry p, BitVec.ofNat 16 (0x018 + p.val)⟩,
   ⟨.user, dataEntry p, BitVec.ofNat 16 (0x050 + p.val)⟩]

/-- The preload that maps each image region one to one: the named value LAYOUT (R456). -/
def layout : List MmuValue := (List.finRange 16).flatMap layoutPage

/-- The machine a run starts from: reset with parameters `p` over memory holding `initMem` (INIT_MEM), then the host load
(R450 to R456). -/
def boot (p : Params) (initMem : Memory) (kernelFile : List Byte) (userFile : Option (List Byte))
    (preload : List MmuValue) : Except LoadError State :=
  hostLoad (State.afterReset p initMem) kernelFile userFile preload

end Sys2Proof.Machine
end

