-- ==== Sys2Proof/Safety.lean ====
section
/-! DEFINITION. The terms claims use: what an instruction may write, the invariant every step keeps, how a run ends, and
what a user program can see. -/

namespace Sys2Proof

/-- The general register an instruction's writeback writes: `writes_gpr(d)` of 40_machine_cycle.md R170, with its rA. -/
def Instr.destination : Instr → Option Reg
  | .ldw rA _ _ | .ldb rA _ _ | .adi rA _ _ => some rA
  | .lui rA _ => some rA
  | .add rA _ _ | .adc rA _ _ | .sub rA _ _ | .sbb rA _ _ | .bic rA _ _ | .bis rA _ _ | .xor rA _ _ => some rA
  | .lsp rA _ | .lio rA _ => some rA
  | .not rA | .neg rA | .sxt rA | .swb rA | .lsr rA | .lsl rA | .asr rA => some rA
  | .stw _ _ _ | .stb _ _ _ | .beq _ _ _ | .jlr _ _ _ => none
  | .ssp _ _ | .sio _ _ | .y04 _ _ | .y05 _ _ | .y06 _ _ => none
  | .rti | .rtl | .di | .ei | .hlt | .brk | .v06 | .die => none

/-- The instructions that write hc (10_state.md R29). -/
def Instr.writesHc : Instr → Bool
  | .adc _ _ _ | .sbb _ _ _ | .lsr _ | .lsl _ | .asr _ => true
  | _ => false

/-- The instructions that read hc (10_state.md R29). -/
def Instr.readsHc : Instr → Bool
  | .adc _ _ _ | .sbb _ _ _ => true
  | _ => false

/-- The instructions legal in kernel mode alone (47_vop.md R358). -/
def Instr.isPrivileged : Instr → Bool
  | .rti | .di | .ei | .hlt | .brk => true
  | _ => false

namespace Machine

/-- A code an exception can have: even, in 2..62 (10_state.md R42, R43). -/
abbrev validCode (c : ExCode) : Prop := c ≠ 0 ∧ c.getLsbD 0 = false

/-- How many of the recorded events are I/O reads. -/
def readCount : List Event → Nat
  | [] => 0
  | .ioRead _ _ :: rest => readCount rest + 1
  | .ioWrite _ _ :: rest => readCount rest
  | .brk _ :: rest => readCount rest

/-- A recorded I/O event names a slot that exists (20_memory.md R80). -/
def slotExists (p : Params) : Event → Prop
  | .ioRead slot _ => slot < 2 ^ p.ioBits
  | .ioWrite slot _ => slot < 2 ^ p.ioBits
  | .brk _ => True

/-- What every run from reset keeps (10_state.md R39, R40, R42, R43; 20_memory.md R60): the invariant of the machine. -/
structure State.Inv (s : State) : Prop where
  /-- memory is in canonical form -/
  memCanonical : s.mem.wf
  /-- "Indices at or above PHYS_WORDS do not exist" (R60) -/
  memExists : ∀ c ∈ s.mem.cells, c.1 < 2 * s.params.physWords
  /-- r0 of the user file holds nothing but 0 (R21) -/
  userZero : s.xu[0] = 0
  /-- r0 of the kernel file holds nothing but 0 (R21) -/
  kernelZero : s.xk[0] = 0
  /-- a pending code is an even number in 2..62 (R42, R43) -/
  pendingValid : s.ex ≠ 0 → validCode s.ex
  /-- while the machine runs, a code is latched only with `en` true (40_machine_cycle.md R165); after a double fault `ex` may still
  hold what it held before (log 12) -/
  pendingEnabled : s.run = true → s.ex ≠ 0 → s.en = true
  /-- `hlt` runs with nothing pending and leaves nothing pending (40_machine_cycle.md R161, 47_vop.md R354) -/
  haltedClear : s.haltReason = some .hlt → s.ex = 0
  /-- "in user mode `en` is always true" (R43) -/
  userEnabled : s.mode = .user → s.en = true
  /-- a halt reason is given exactly when `run` is false (R40) -/
  haltStatus : s.haltReason = none ↔ s.run = true
  /-- the code of a double fault is an exception code (60_exceptions.md R400, R420) -/
  faultValid : ∀ c, s.haltReason = some (.doubleFault c) → validCode c
  /-- the free values of IO_READ are drawn one per recorded read (20_memory.md R81) -/
  drawsCounted : s.ioDraws = readCount s.events
  /-- every recorded transaction is with a slot that exists (20_memory.md R80) -/
  slotsExist : ∀ e ∈ s.events, slotExists s.params e

/-- The normal end of a run: `hlt` (40_machine_cycle.md R176, 47_vop.md R354). -/
def State.endedNormally (s : State) : Prop := s.run = false ∧ s.haltReason = some .hlt

/-- The fault outcome of a run: a double fault with this code (40_machine_cycle.md R176). -/
def State.doubleFaulted (s : State) (c : ExCode) : Prop := s.run = false ∧ s.haltReason = some (.doubleFault c)

/-- The kernel-only part of the state: the kernel file, its Link and MMU entries, and irr, icr, imr
(60_exceptions.md R435). -/
structure KernelPart where
  xk : Vector Word 8
  linkK : Word
  mmuK : Vector Word 32
  irr : Word
  icr : Word
  imr : Word
  deriving DecidableEq, Repr

/-- A state with its kernel-only part replaced: what a user program cannot tell apart. -/
def State.withKernelPart (s : State) (k : KernelPart) : State :=
  { s with xk := k.xk, linkK := k.linkK, mmuK := k.mmuK, irr := k.irr, icr := k.icr, imr := k.imr }

end Machine

end Sys2Proof
end

