-- ==== Sys2Proof/Certificates/Slice0/Obligations.lean ====
section
/-! DEFINITION. The statements for the provers. A docstring names the rule of spec/ a statement formalises; where a statement
rests on a decision or an inference that the spec marks as its own, or on a choice of the model, it says so. An encoding is
written out as the spec's pattern, bit 15 on the left (30_encoding.md R110). -/

open Sys2Proof Sys2Proof.Machine

/-! ## Encoding -/

/-- No bit of an encoding is dropped: the decoder gives every well-formed instruction back from its word (30_encoding.md R101,
R110, R126). -/
def Obligations.DecodeInvertsEncode : Prop := ∀ i : Instr, i.wellFormed = true → decodeWord (encode i) = i

/-- The decoder is total and loses nothing: every word is the word of the instruction it decodes to, and that instruction's
operands lie in the ranges of 30_encoding.md R104 (the spec's inference R106). -/
def Obligations.EncodeInvertsDecode : Prop :=
  ∀ w : Word, encode (decodeWord w) = w ∧ (decodeWord w).wellFormed = true

/-- Every word matches exactly one row of the opcode table, whatever the scan order, and it is the row of the instruction the
simulator's decoder reads (30_encoding.md R105, R151; the spec's inference R106). -/
def Obligations.EveryWordMatchesExactlyOneRow : Prop :=
  ∀ w : Word, ∃ r ∈ opcodeTable,
    (w &&& r.mask = r.opcode ∧ r.mnemonic = (decodeWord w).mnemonic ∧ recognise w = some r.mnemonic) ∧
      ∀ q ∈ opcodeTable, w &&& q.mask = q.opcode → q = r

/-- The class of the decoded instruction is the one the prefix tests give, tested in the order VOP, ZOP, YOP, XOP, JLR, BASE
(30_encoding.md R103; that the classes nest is the spec's inference). -/
def Obligations.ClassFollowsPrefixes : Prop :=
  ∀ w : Word, (decodeWord w).mnemonic.opClass = classify w ∧ classify w =
    if w.toNat / 8 = 0x1FFF then .vop
    else if w.toNat / 64 = 0x3FF then .zop
    else if w.toNat / 512 = 0x7F then .yop
    else if w.toNat / 4096 = 0xF then .xop
    else if w.toNat / 4096 = 0xE then .jlr
    else .base

/-- Words that the spec's examples write out decode to the instructions they stand for (30_encoding.md R130, R131, R142, R147;
41_base_memory.md R200; 44_xop.md R262; 45_yop.md R292; 47_vop.md R350). A sanity statement. -/
def Obligations.KnownWordsDecode : Prop :=
  decodeWord 0xE200 = .jlr 0 0 8 ∧ decodeWord 0xDFF9 = .lui 1 0x3FF ∧ decodeWord 0xAFC9 = .adi 1 1 0x3F ∧
    decodeWord 0x9FCA = .beq 2 1 (-1) ∧ decodeWord 0xFFC8 = .neg 0 ∧ decodeWord 0x0111 = .ldw 1 2 4 ∧
    decodeWord 0xF4D1 = .sub 1 2 3 ∧ decodeWord 0xFE91 = .ssp 1 2 ∧ decodeWord 0xFFF8 = .rti

/-! ## The machine cycle -/

/-- A step of a running machine delivers what is pending, fetches at pc, and runs the decoded instruction with pc already one
further; then it counts the cycle (40_machine_cycle.md R161, R175). A double fault leaves `ex` as it was before the cycle, the
delivery of that cycle notwithstanding (R176; log 12). The bytes are those of the physical word that pc translates to, the byte
at the even address first (20_memory.md R62). -/
def Obligations.StepRunsDecodedInstruction : Prop :=
  ∀ (s d : State) (pa : Nat) (i : Instr), s.run = true → d = deliverPending s → translateCode d d.pc = some pa →
    d.pc ≠ 0xFFFF → decodeBytes [d.mem.read (2 * pa), d.mem.read (2 * pa + 1)] = .ok (i, []) →
    ∃ u, exec i { d with pc := d.pc + 1 } = .next u ∧
      ((∀ c, ¬u.doubleFaulted c) → step s = .next { u with cycles := u.cycles + 1 }) ∧
      ∀ c, u.doubleFaulted c → step s = .next { u with ex := s.ex, cycles := u.cycles + 1 }

/-- A state whose run flag is false has no next cycle; a double fault is told apart from the normal end (40_machine_cycle.md
R176, the spec's decision D46; the two faults are the model's form of that end, log 6). -/
def Obligations.HaltedStateIsFinal : Prop :=
  ∀ s : State, s.run = false →
    (∀ t, step s ≠ .next t) ∧ (s.haltReason = some .hlt → step s = .fault .halted) ∧
      ∀ c, s.haltReason = some (.doubleFault c) → step s = .fault (.doubleFault c)

/-- A pc that does not translate raises ExMemory, a fetch that wraps pc to 0 raises ExMachine; pc has advanced, no instruction
runs, and the cycle is counted (40_machine_cycle.md R162, R163, R167: the spec's decisions D20, D21, D22). While `en` is false,
after a delivery too, the raise is a double fault (60_exceptions.md R413, R420: D29), and `ex` stays as it was before the cycle
(40_machine_cycle.md R176; log 12). -/
def Obligations.FetchExceptions : Prop :=
  ∀ s d : State, s.run = true → d = deliverPending s →
    ∀ code, (translateCode d d.pc = none ∧ code = exMemory) ∨
        (∃ pa, translateCode d d.pc = some pa ∧ d.pc = 0xFFFF ∧ code = exMachine) →
      (d.en = true → step s = .next { d with pc := d.pc + 1, cycles := d.cycles + 1, ex := code }) ∧
      (d.en = false →
        step s = .next
          { d with
            pc := d.pc + 1
            cycles := d.cycles + 1
            run := false
            haltReason := some (.doubleFault code)
            ex := s.ex })

/-- Delivery (60_exceptions.md R410): what taking the pending exception saves, where it goes, that it changes nothing else, and
that the fetch and the rest of the same cycle follow it. Where that cycle double-faults, `ex` shows the code that was pending
(40_machine_cycle.md R176; log 12). -/
def Obligations.DeliveryTakesPendingException : Prop :=
  ∀ s : State,
    (s.ex = 0 → fetch s = fetchAt s) ∧
    (s.ex ≠ 0 → ∀ d : State,
      d = { s with
            irr := s.pc
            icr := BitVec.ofNat 16 s.ex.toNat
            imr := if s.mode = .user then 0 else 1
            mode := .kernel
            pc := BitVec.ofNat 16 s.ex.toNat
            en := false
            ex := 0 } →
      fetch s = fetchAt d ∧
      (s.run = true → ∃ t, step d = .next t ∧
        ((∀ c, ¬t.doubleFaulted c) → step s = .next t) ∧
        ∀ c, t.doubleFaulted c → step s = .next { t with ex := s.ex }))

/-- A running machine always has a next state, and every cycle counts one, the faulting and the halting ones too; the
parameters never change (40_machine_cycle.md R160, R161, R175: the spec's decision D24; that the parameters stand in the state
is log 1). -/
def Obligations.RunningMachineAlwaysSteps : Prop :=
  ∀ s : State, s.run = true → ∃ t, step s = .next t ∧ t.cycles = s.cycles + 1 ∧ t.params = s.params

/-- The only ways the block stops are hlt in kernel mode and a double fault (40_machine_cycle.md R173, R165; the spec's
decision D29); after a double fault `ex` holds what it held before that cycle (R176; log 12). -/
def Obligations.OnlyHltAndDoubleFaultStop : Prop :=
  ∀ s d t : State, d = deliverPending s → step s = .next t → t.run = false →
    (t.haltReason = some .hlt ∧ d.mode = .kernel ∧
      ∃ pa, translateCode d d.pc = some pa ∧ decodeWord (physRead d.mem pa) = .hlt) ∨
    ∃ c, t.haltReason = some (.doubleFault c) ∧ d.en = false ∧ t.ex = s.ex

/-- Raising a code (40_machine_cycle.md R165, the spec's decision D29): latched while `en` is true, a double fault that stops
the machine while it is false, and nothing else in either case. The codes the block raises by itself are 32, 48 and 62
(60_exceptions.md R400). -/
def Obligations.RaiseLatchesOrDoubleFaults : Prop :=
  exIllegal = 32#6 ∧ exMemory = 48#6 ∧ exMachine = 62#6 ∧
  ∀ (c : ExCode) (s : State),
    (s.en = true → raise c s = { s with ex := c }) ∧
    (s.en = false → raise c s = { s with run := false, haltReason := some (.doubleFault c) })

/-- The invariant of the machine is kept by every step (10_state.md R21, R40, R42, R43; 20_memory.md R60, R80). Its clauses on the
canonical list of cells (log 2), on the count of recorded reads (log 3) and on the entries behind r0 (log 9) are about the
model's own form of the state; its clauses on `ex` bind a stopped machine less, since a double fault leaves `ex` as it was before
the cycle (40_machine_cycle.md R176; log 12). -/
def Obligations.InvariantKeptByEveryStep : Prop := ∀ s t : State, s.Inv → step s = .next t → t.Inv

/-- The machine after reset meets the invariant, over any memory in canonical form that exists. It rests on values of the model's
own at reset: the parameters (log 1), the memory with nothing listed (log 2), ioDraws = 0 (log 3, the clause drawsCounted) and
the zero entries behind r0 (log 9). -/
def Obligations.ResetMeetsInvariant : Prop :=
  State.reset.Inv ∧
    ∀ (p : Params) (m : Memory), m.wf → (∀ c ∈ m.cells, c.1 < 2 * p.physWords) → (State.afterReset p m).Inv

/-- What reset leaves (10_state.md R46, 70_reset_and_hazards.md R450, R451). pc, hc, cycles and run are the spec's decisions D1
to D3. The parameters of State.reset are the defaults of 00_scope.md R8, and that they stand in the state is log 1; that its
memory reads as 0 everywhere is the model's choice (log 2); that no event is recorded yet is the model's form of the record
(log 5). -/
def Obligations.ResetValues : Prop :=
  State.reset = State.afterReset { physWords := 2 ^ 23, subOrder := .cMinusB, ioBits := 6 } State.reset.mem ∧
  (∀ a, State.reset.mem.read a = 0) ∧
  ∀ (p : Params) (mem : Memory) (s : State), s = State.afterReset p mem →
    (∀ m r, s.reg m r = 0) ∧ (∀ m, s.link m = 0) ∧ (∀ m k, s.mmu m k = 0) ∧ s.irr = 0 ∧ s.icr = 0 ∧ s.imr = 0 ∧
      s.mode = .kernel ∧ s.en = false ∧ s.ex = 0 ∧ s.pc = 0 ∧ s.hc = false ∧ s.cycles = 0 ∧ s.run = true ∧
      s.haltReason = none ∧ s.mem = mem ∧ s.events = [] ∧ s.params = p

/-- Only delivery and rti change the mode, and no step changes a user MMU entry (10_state.md R35, the spec's decision D14, and
R23, the spec's inference). -/
def Obligations.ModeAndUserMmuOverAStep : Prop :=
  ∀ s d t : State, d = deliverPending s → step s = .next t →
    (∀ k, t.mmu .user k = s.mmu .user k) ∧
    (t.mode ≠ d.mode →
      d.mode = .kernel ∧ ∃ pa, translateCode d d.pc = some pa ∧ decodeWord (physRead d.mem pa) = .rti) ∧
    (d.mode ≠ s.mode → s.ex ≠ 0 ∧ s.mode = .user)

/-! ## Translation and memory -/

/-- Code translation (20_memory.md R65). -/
def Obligations.CodeTranslation : Prop :=
  ∀ (s : State) (va : Word) (page : Fin 32) (upper pa : Nat), page.val = va.toNat / 4096 →
    upper = (s.mmu s.mode page).toNat % 4096 → pa = upper * 4096 + va.toNat % 4096 →
    translateCode s va = if pa < s.params.physWords then some pa else none

/-- Data translation (20_memory.md R66): the lane is bit 0 of the byte address, which is bit 0 of the virtual address. -/
def Obligations.DataTranslation : Prop :=
  ∀ (s : State) (va : Word) (entry : Fin 32) (upper pb : Nat), entry.val = 16 + va.toNat / 4096 →
    upper = (s.mmu s.mode entry).toNat % 4096 → pb = upper * 4096 + va.toNat % 4096 →
    translateData s va = if pb / 2 < s.params.physWords then some (pb / 2, va.getLsbD 0) else none

/-- With the default memory size a data translation never faults, and a code translation faults exactly when bits 11..0 of its
entry are 0x800 or more (20_memory.md R67, the spec's inference from its decision D4). -/
def Obligations.DefaultMemoryTranslation : Prop :=
  ∀ (s : State) (va : Word), s.params.physWords = 2 ^ 23 →
    translateData s va ≠ none ∧
      ∀ page : Fin 32, page.val = va.toNat / 4096 →
        (translateCode s va = none ↔ 0x800 ≤ (s.mmu s.mode page).toNat % 4096)

/-- A word access at an odd address accesses the word that contains the addressed byte, and raises nothing for it
(20_memory.md R72, the spec's decision D6). -/
def Obligations.WordAccessDropsBitZero : Prop :=
  ∀ (s : State) (addr v : Word),
    memRead s (addr ^^^ 1) .word = memRead s addr .word ∧ memWrite s (addr ^^^ 1) .word v = memWrite s addr .word v

/-- Data write (20_memory.md R71): a translation fault writes nothing, a word write replaces the word, a byte write replaces one
lane and keeps the other, and no other word and no other state changes. Memory is in canonical form. -/
def Obligations.MemWriteEffect : Prop :=
  ∀ (s : State) (addr v : Word), s.mem.wf →
    (translateData s addr = none → ∀ width, memWrite s addr width v = none) ∧
    ∀ wi lane, translateData s addr = some (wi, lane) →
      (∃ t, memWrite s addr .word v = some t ∧ t = { s with mem := t.mem } ∧
        ∀ j, physRead t.mem j = if j = wi then v else physRead s.mem j) ∧
      ∃ t, memWrite s addr .byte v = some t ∧ t = { s with mem := t.mem } ∧
        ∀ j, physRead t.mem j =
          if j = wi then
            (if lane then v.extractLsb' 0 8 ++ (physRead s.mem wi).extractLsb' 0 8
             else (physRead s.mem wi).extractLsb' 8 8 ++ v.extractLsb' 0 8)
          else physRead s.mem j

/-- r0 of each file reads as zero and discards writes; r1..r7 hold what is written to them, and a write changes nothing else
(10_state.md R21). -/
def Obligations.GeneralRegisterZero : Prop :=
  (∀ (s : State) (m : Mode), s.reg m 0 = 0 ∧ ∀ v, s.setReg m 0 v = s) ∧
  (∀ (s : State) (m : Mode) (r : Reg) (v : Word), r ≠ 0 →
    (s.setReg m r v).reg m r = v ∧
      (∀ n q, n ≠ m ∨ q ≠ r → (s.setReg m r v).reg n q = s.reg n q) ∧
      s.setReg m r v = { s with xu := (s.setReg m r v).xu, xk := (s.setReg m r v).xk }) ∧
  ∀ (i : Instr) (s t : State) (m : Mode), exec i s = .next t → t.reg m 0 = 0

/-! ## Base memory instructions -/

/-- ldw (41_base_memory.md R200): the word of the translated address to rA, ExMemory with no register written where the address
does not translate, ExIllegal for the word 0x0000. -/
def Obligations.LdwLoadsWord : Prop :=
  (∀ (i : BitVec 7) (b a : BitVec 3), decodeWord (0b000#3 ++ i ++ b ++ a) = .ldw a.toFin b.toFin i.toInt) ∧
  ∀ (rA rB : Reg) (imm : Int) (s : State),
    (¬(rA = 0 ∧ rB = 0 ∧ imm = 0) →
      (∀ wi lane, translateData s (s.x rB + BitVec.ofInt 16 imm) = some (wi, lane) →
        exec (.ldw rA rB imm) s = .next (s.setX rA (physRead s.mem wi))) ∧
      (translateData s (s.x rB + BitVec.ofInt 16 imm) = none →
        exec (.ldw rA rB imm) s = .next (raise exMemory s))) ∧
    (rA = 0 ∧ rB = 0 ∧ imm = 0 → exec (.ldw rA rB imm) s = .next (raise exIllegal s))

/-- The word 0x0000 does not execute as a load: it raises ExIllegal whether its address translates or not. Every other word of
the ldw row is a load: it writes rA or raises ExMemory (41_base_memory.md R205). -/
def Obligations.ZeroWordIsIllegal : Prop :=
  (∀ s : State, exec (decodeWord 0x0000) s = .next (raise exIllegal s)) ∧
  ∀ (w : Word) (s : State), w ≠ 0x0000 → w.toNat < 0x2000 →
    ∃ rA rB imm, decodeWord w = .ldw rA rB imm ∧
      ((∃ v, exec (decodeWord w) s = .next (s.setX rA v)) ∨ exec (decodeWord w) s = .next (raise exMemory s))

/-- ldb (41_base_memory.md R201): the addressed byte, zero-extended (the spec's decision D7), little-endian. -/
def Obligations.LdbLoadsByte : Prop :=
  (∀ (i : BitVec 7) (b a : BitVec 3), decodeWord (0b001#3 ++ i ++ b ++ a) = .ldb a.toFin b.toFin i.toInt) ∧
  ∀ (rA rB : Reg) (imm : Int) (s : State),
    (∀ wi lane, translateData s (s.x rB + BitVec.ofInt 16 imm) = some (wi, lane) →
      exec (.ldb rA rB imm) s =
        .next (s.setX rA (BitVec.ofNat 16 (s.mem.read (if lane then 2 * wi + 1 else 2 * wi)).toNat))) ∧
    (translateData s (s.x rB + BitVec.ofInt 16 imm) = none → exec (.ldb rA rB imm) s = .next (raise exMemory s))

/-- stw (41_base_memory.md R202): the two bytes of the translated word receive x[rA], every other byte and all other state stay;
ExMemory with nothing written where the address does not translate. -/
def Obligations.StwStoresWord : Prop :=
  (∀ (i : BitVec 7) (b a : BitVec 3), decodeWord (0b010#3 ++ i ++ b ++ a) = .stw a.toFin b.toFin i.toInt) ∧
  ∀ (rA rB : Reg) (imm : Int) (s : State),
    (∀ wi lane, translateData s (s.x rB + BitVec.ofInt 16 imm) = some (wi, lane) →
      ∃ t, exec (.stw rA rB imm) s = .next t ∧ t = { s with mem := t.mem } ∧
        (s.mem.wf → t.mem.read (2 * wi) = (s.x rA).extractLsb' 0 8 ∧
          t.mem.read (2 * wi + 1) = (s.x rA).extractLsb' 8 8) ∧
        ∀ a, a ≠ 2 * wi → a ≠ 2 * wi + 1 → t.mem.read a = s.mem.read a) ∧
    (translateData s (s.x rB + BitVec.ofInt 16 imm) = none → exec (.stw rA rB imm) s = .next (raise exMemory s))

/-- stb (41_base_memory.md R203): one byte of memory receives x[rA][7:0], every other byte and all other state stay; ExMemory
with nothing written where the address does not translate. -/
def Obligations.StbStoresByte : Prop :=
  (∀ (i : BitVec 7) (b a : BitVec 3), decodeWord (0b011#3 ++ i ++ b ++ a) = .stb a.toFin b.toFin i.toInt) ∧
  ∀ (rA rB : Reg) (imm : Int) (s : State),
    (∀ wi lane, translateData s (s.x rB + BitVec.ofInt 16 imm) = some (wi, lane) →
      ∃ t, exec (.stb rA rB imm) s = .next t ∧ t = { s with mem := t.mem } ∧
        (s.mem.wf → t.mem.read (if lane then 2 * wi + 1 else 2 * wi) = (s.x rA).extractLsb' 0 8) ∧
        ∀ a, a ≠ (if lane then 2 * wi + 1 else 2 * wi) → t.mem.read a = s.mem.read a) ∧
    (translateData s (s.x rB + BitVec.ofInt 16 imm) = none → exec (.stb rA rB imm) s = .next (raise exMemory s))

/-! ## Branch and immediate instructions, jlr -/

/-- beq (42_base_alu_branch.md R220): `pc` is the address of the beq plus 1. The target wraps silently (the spec's decision
D27). -/
def Obligations.BeqBranches : Prop :=
  (∀ (i : BitVec 7) (b a : BitVec 3), decodeWord (0b100#3 ++ i ++ b ++ a) = .beq a.toFin b.toFin i.toInt) ∧
  ∀ (rA rB : Reg) (imm : Int) (s : State),
    (s.x rA = s.x rB → exec (.beq rA rB imm) s = .next { s with pc := s.pc + BitVec.ofInt 16 imm }) ∧
    (s.x rA ≠ s.x rB → exec (.beq rA rB imm) s = .next s)

/-- adi (42_base_alu_branch.md R221). hc is untouched (the spec's decision D10). -/
def Obligations.AdiAddsImmediate : Prop :=
  (∀ (i : BitVec 7) (b a : BitVec 3), decodeWord (0b101#3 ++ i ++ b ++ a) = .adi a.toFin b.toFin i.toInt) ∧
  ∀ (rA rB : Reg) (imm : Int) (s : State),
    exec (.adi rA rB imm) s = .next (s.setX rA (BitVec.ofInt 16 (((s.x rB).toNat : Int) + imm)))

/-- lui (42_base_alu_branch.md R222): the field in bits 15..6, the low six bits zero; with an adi after it the pair builds any
16-bit constant. -/
def Obligations.LuiLoadsUpper : Prop :=
  (∀ (i : BitVec 10) (a : BitVec 3), decodeWord (0b110#3 ++ i ++ a) = .lui a.toFin i.toNat) ∧
  (∀ (rA : Reg) (imm : Nat) (s : State), imm ≤ 1023 →
    exec (.lui rA imm) s = .next (s.setX rA (BitVec.ofNat 16 (imm * 64)))) ∧
  ∀ (rT : Reg) (upper low : Nat) (s : State), rT ≠ 0 → upper ≤ 1023 → low ≤ 63 →
    ∃ t u, exec (.lui rT upper) s = .next t ∧ exec (.adi rT rT low) t = .next u ∧
      (u.x rT).toNat = (upper <<< 6) ||| low

/-- sys (43_jlr.md R241): the trap N for N even in 2..30, ExIllegal for every other N; rB is ignored (the spec's decision
D25). -/
def Obligations.SysTraps : Prop :=
  (∀ (n : BitVec 6) (b : BitVec 3), decodeWord (0b1110#4 ++ n ++ b ++ 0b000#3) = .jlr 0 b.toFin n.toInt) ∧
  ∀ (rB : Reg) (n : Int) (s : State),
    (n % 2 = 0 ∧ 2 ≤ n ∧ n ≤ 30 → exec (.jlr 0 rB n) s = .next (raise (BitVec.ofInt 6 n) s)) ∧
    (¬(n % 2 = 0 ∧ 2 ≤ n ∧ n ≤ 30) → exec (.jlr 0 rB n) s = .next (raise exIllegal s))

/-- Call (43_jlr.md R242): Link of the current mode receives the address after the jlr, pc the target; the other mode's Link and
all else stay. The target wraps silently (the spec's decision D27). -/
def Obligations.CallSetsLink : Prop :=
  (∀ (i : BitVec 6) (b : BitVec 3), decodeWord (0b1110#4 ++ i ++ b ++ 0b001#3) = .jlr 1 b.toFin i.toInt) ∧
  ∀ (rB : Reg) (imm : Int) (s : State),
    (s.mode = .user →
      exec (.jlr 1 rB imm) s = .next { s with linkU := s.pc, pc := s.x rB + BitVec.ofInt 16 imm }) ∧
    (s.mode = .kernel →
      exec (.jlr 1 rB imm) s = .next { s with linkK := s.pc, pc := s.x rB + BitVec.ofInt 16 imm })

/-- Jump (43_jlr.md R243): pc alone changes. -/
def Obligations.JumpSetsPc : Prop :=
  (∀ (i : BitVec 6) (b : BitVec 3), decodeWord (0b1110#4 ++ i ++ b ++ 0b010#3) = .jlr 2 b.toFin i.toInt) ∧
  ∀ (rB : Reg) (imm : Int) (s : State),
    exec (.jlr 2 rB imm) s = .next { s with pc := s.x rB + BitVec.ofInt 16 imm }

/-- jlr with a sub-opcode of 3 or more raises ExIllegal; the disassembler prints it as a jlr, and the assembler gives the word
back (43_jlr.md R244). -/
def Obligations.ReservedJlrIsIllegal : Prop :=
  (∀ (i : BitVec 6) (b j : BitVec 3), decodeWord (0b1110#4 ++ i ++ b ++ j) = .jlr j.toNat b.toFin i.toInt) ∧
  ∀ (j : Nat) (rB : Reg) (imm : Int), 3 ≤ j → j ≤ 7 →
    (∀ s : State, exec (.jlr j rB imm) s = .next (raise exIllegal s)) ∧
    rewriteOne (.jlr j rB imm) = .instr (.jlr j rB imm) ∧
    (-32 ≤ imm → imm ≤ 31 → ∀ k, (disStmt k (.instr (.jlr j rB imm))).map (fun st => st.1) = some (.op .jlr) ∧
      recordWord [] k (.plain .jlr (instrOperands k (.jlr j rB imm))) = .ok (encode (.jlr j rB imm)))

/-! ## XOPs and ZOPs -/

/-- add, sub and neg wrap modulo 2^16 and leave hc alone (44_xop.md R260, R262, 46_zop.md R321; hc is the spec's decision D10,
the order of sub the parameter SUB_ORDER of its decision D8). -/
def Obligations.AddSubNegWrap : Prop :=
  (∀ c b a : BitVec 3, decodeWord (0b1111000#7 ++ c ++ b ++ a) = .add a.toFin b.toFin c.toFin) ∧
  (∀ c b a : BitVec 3, decodeWord (0b1111010#7 ++ c ++ b ++ a) = .sub a.toFin b.toFin c.toFin) ∧
  (∀ a : BitVec 3, decodeWord (0b1111111111001#13 ++ a) = .neg a.toFin) ∧
  ∀ (rA rB rC : Reg) (s : State),
    exec (.add rA rB rC) s = .next (s.setX rA (BitVec.ofNat 16 ((s.x rB).toNat + (s.x rC).toNat))) ∧
    (s.params.subOrder = .cMinusB →
      exec (.sub rA rB rC) s = .next (s.setX rA (BitVec.ofInt 16 (((s.x rC).toNat : Int) - (s.x rB).toNat)))) ∧
    (s.params.subOrder = .bMinusC →
      exec (.sub rA rB rC) s = .next (s.setX rA (BitVec.ofInt 16 (((s.x rB).toNat : Int) - (s.x rC).toNat)))) ∧
    exec (.neg rA) s = .next (s.setX rA (BitVec.ofInt 16 (-((s.x rA).toNat : Int))))

/-- adc (44_xop.md R261): the 17-bit sum, its low part to rA and its bit 16 to hc, also when rA is r0 (the spec's decision
D9). -/
def Obligations.AdcAddsWithCarry : Prop :=
  (∀ c b a : BitVec 3, decodeWord (0b1111001#7 ++ c ++ b ++ a) = .adc a.toFin b.toFin c.toFin) ∧
  ∀ (rA rB rC : Reg) (s : State), ∃ (v : Word) (carry : Bool),
    exec (.adc rA rB rC) s = .next { s.setX rA v with hc := carry } ∧
      v.toNat + 0x10000 * carry.toNat = (s.x rB).toNat + (s.x rC).toNat + s.hc.toNat

/-- sbb (44_xop.md R263): the difference to rA and the borrow to hc, also when rA is r0 (the spec's decisions D8 and D9). -/
def Obligations.SbbSubtractsWithBorrow : Prop :=
  (∀ c b a : BitVec 3, decodeWord (0b1111011#7 ++ c ++ b ++ a) = .sbb a.toFin b.toFin c.toFin) ∧
  ∀ (rA rB rC : Reg) (s : State), ∃ (v : Word) (borrow : Bool),
    exec (.sbb rA rB rC) s = .next { s.setX rA v with hc := borrow } ∧
      (s.params.subOrder = .cMinusB →
        (s.x rC).toNat + 0x10000 * borrow.toNat = (s.x rB).toNat + s.hc.toNat + v.toNat) ∧
      (s.params.subOrder = .bMinusC →
        (s.x rB).toNat + 0x10000 * borrow.toNat = (s.x rC).toNat + s.hc.toNat + v.toNat)

/-- bic, bis and xor, bit by bit (44_xop.md R264, R265, R266). -/
def Obligations.BitwiseOperations : Prop :=
  (∀ c b a : BitVec 3, decodeWord (0b1111100#7 ++ c ++ b ++ a) = .bic a.toFin b.toFin c.toFin) ∧
  (∀ c b a : BitVec 3, decodeWord (0b1111101#7 ++ c ++ b ++ a) = .bis a.toFin b.toFin c.toFin) ∧
  (∀ c b a : BitVec 3, decodeWord (0b1111110#7 ++ c ++ b ++ a) = .xor a.toFin b.toFin c.toFin) ∧
  ∀ (rA rB rC : Reg) (s : State),
    (∃ v, exec (.bic rA rB rC) s = .next (s.setX rA v) ∧
      ∀ i, v.getLsbD i = ((s.x rC).getLsbD i && !(s.x rB).getLsbD i)) ∧
    (∃ v, exec (.bis rA rB rC) s = .next (s.setX rA v) ∧
      ∀ i, v.getLsbD i = ((s.x rB).getLsbD i || (s.x rC).getLsbD i)) ∧
    ∃ v, exec (.xor rA rB rC) s = .next (s.setX rA v) ∧
      ∀ i, v.getLsbD i = ((s.x rB).getLsbD i ^^ (s.x rC).getLsbD i)

/-- not, sxt and swb, bit by bit (46_zop.md R320, R322, R323). -/
def Obligations.ComplementExtendSwap : Prop :=
  (∀ a : BitVec 3, decodeWord (0b1111111111000#13 ++ a) = .not a.toFin) ∧
  (∀ a : BitVec 3, decodeWord (0b1111111111010#13 ++ a) = .sxt a.toFin) ∧
  (∀ a : BitVec 3, decodeWord (0b1111111111011#13 ++ a) = .swb a.toFin) ∧
  ∀ (rA : Reg) (s : State),
    (∃ v, exec (.not rA) s = .next (s.setX rA v) ∧ ∀ i, i < 16 → v.getLsbD i = !(s.x rA).getLsbD i) ∧
    (∃ v, exec (.sxt rA) s = .next (s.setX rA v) ∧
      ∀ i, i < 16 → v.getLsbD i = (s.x rA).getLsbD (if i < 8 then i else 7)) ∧
    ∃ v, exec (.swb rA) s = .next (s.setX rA v) ∧ ∀ i, i < 16 → v.getLsbD i = (s.x rA).getLsbD ((i + 8) % 16)

/-- lsr, lsl and asr by one: the result to rA and the bit shifted out to hc, also when rA is r0 (46_zop.md R324, R325, R326). -/
def Obligations.ShiftsByOne : Prop :=
  (∀ a : BitVec 3, decodeWord (0b1111111111100#13 ++ a) = .lsr a.toFin) ∧
  (∀ a : BitVec 3, decodeWord (0b1111111111101#13 ++ a) = .lsl a.toFin) ∧
  (∀ a : BitVec 3, decodeWord (0b1111111111110#13 ++ a) = .asr a.toFin) ∧
  ∀ (rA : Reg) (s : State),
    (∃ v, exec (.lsr rA) s = .next { s.setX rA v with hc := (s.x rA).getLsbD 0 } ∧ v.toNat = (s.x rA).toNat / 2) ∧
    (∃ v, exec (.lsl rA) s = .next { s.setX rA v with hc := (s.x rA).getLsbD 15 } ∧
      v.toNat = 2 * (s.x rA).toNat % 0x10000) ∧
    ∃ v, exec (.asr rA) s = .next { s.setX rA v with hc := (s.x rA).getLsbD 0 } ∧ v.toInt = (s.x rA).toInt / 2

/-! ## Special registers and I/O -/

/-- lsp: what each special-register number reads, n being x[rB] modulo 64 (45_yop.md R290, R300, R301; 10_state.md R31: the
spec's decisions D31 and D47). -/
def Obligations.LspReadsSpecialRegisters : Prop :=
  (∀ b a : BitVec 3, decodeWord (0b1111111000#10 ++ b ++ a) = .lsp a.toFin b.toFin) ∧
  ∀ (rA rB : Reg) (s : State) (n : Nat), n = (s.x rB).toNat % 64 →
    (n = 0 → exec (.lsp rA rB) s = .next (s.setX rA s.pc)) ∧
    (n = 1 → exec (.lsp rA rB) s = .next (s.setX rA (s.link s.mode))) ∧
    (n = 6 → exec (.lsp rA rB) s = .next (s.setX rA (BitVec.ofNat 16 (s.cycles.toNat % 0x10000)))) ∧
    (n = 7 → exec (.lsp rA rB) s = .next (s.setX rA (BitVec.ofNat 16 (s.cycles.toNat / 0x10000)))) ∧
    (s.mode = .kernel →
      (n = 2 → exec (.lsp rA rB) s = .next (s.setX rA s.irr)) ∧
      (n = 3 → exec (.lsp rA rB) s = .next (s.setX rA s.icr)) ∧
      (n = 4 → exec (.lsp rA rB) s = .next (s.setX rA s.imr)) ∧
      (∀ r : Reg, n = 16 + r.val → exec (.lsp rA rB) s = .next (s.setX rA (s.reg .user r))) ∧
      (n = 25 → exec (.lsp rA rB) s = .next (s.setX rA (s.link .user))) ∧
      ∀ k : Fin 32, n = 32 + k.val → exec (.lsp rA rB) s = .next (s.setX rA (s.mmu .kernel k)))

/-- lsp: ExIllegal and no register written for an unassigned number in either mode and for a kernel-only number in user mode
(45_yop.md R302; the spec's decisions D12 and D47). -/
def Obligations.LspTraps : Prop :=
  ∀ (rA rB : Reg) (s : State) (n : Nat), n = (s.x rB).toNat % 64 →
    (n = 5 ∨ (8 ≤ n ∧ n ≤ 15) ∨ n = 24 ∨ (26 ≤ n ∧ n ≤ 31) →
      exec (.lsp rA rB) s = .next (raise exIllegal s)) ∧
    (s.mode = .user → (2 ≤ n ∧ n ≤ 4) ∨ (16 ≤ n ∧ n ≤ 23) ∨ n = 25 ∨ 32 ≤ n →
      exec (.lsp rA rB) s = .next (raise exIllegal s))

/-- ssp: what each special-register number writes, n being x[rB] modulo 64; a write to 16 is discarded (45_yop.md R292, R302;
10_state.md R31: the spec's decisions D14, D31 and D47). -/
def Obligations.SspWritesSpecialRegisters : Prop :=
  (∀ b a : BitVec 3, decodeWord (0b1111111010#10 ++ b ++ a) = .ssp a.toFin b.toFin) ∧
  ∀ (rA rB : Reg) (s : State) (n : Nat), n = (s.x rB).toNat % 64 →
    (n = 1 → s.mode = .user → exec (.ssp rA rB) s = .next { s with linkU := s.x rA }) ∧
    (s.mode = .kernel →
      (n = 1 → exec (.ssp rA rB) s = .next { s with linkK := s.x rA }) ∧
      (n = 2 → exec (.ssp rA rB) s = .next { s with irr := s.x rA }) ∧
      (n = 3 → exec (.ssp rA rB) s = .next { s with icr := s.x rA }) ∧
      (n = 4 → exec (.ssp rA rB) s = .next { s with imr := s.x rA }) ∧
      (n = 16 → exec (.ssp rA rB) s = .next s) ∧
      (∀ r : Reg, r ≠ 0 → n = 16 + r.val →
        exec (.ssp rA rB) s = .next { s with xu := s.xu.set r (s.x rA) }) ∧
      (n = 25 → exec (.ssp rA rB) s = .next { s with linkU := s.x rA }) ∧
      ∀ k : Fin 32, n = 32 + k.val → exec (.ssp rA rB) s = .next { s with mmuK := s.mmuK.set k (s.x rA) })

/-- ssp: ExIllegal and nothing written for an unassigned or read-only number in either mode and for a kernel-only number in user
mode (45_yop.md R302; the spec's decisions D12, D13 and D47). -/
def Obligations.SspTraps : Prop :=
  ∀ (rA rB : Reg) (s : State) (n : Nat), n = (s.x rB).toNat % 64 →
    (n = 0 ∨ (5 ≤ n ∧ n ≤ 15) ∨ n = 24 ∨ (26 ≤ n ∧ n ≤ 31) →
      exec (.ssp rA rB) s = .next (raise exIllegal s)) ∧
    (s.mode = .user → (2 ≤ n ∧ n ≤ 4) ∨ (16 ≤ n ∧ n ≤ 23) ∨ n = 25 ∨ 32 ≤ n →
      exec (.ssp rA rB) s = .next (raise exIllegal s))

/-- lio and sio, legal in both modes: the slot is the low IO_BITS bits of x[rB]; the transaction is recorded, also when rA is r0;
lio writes the environment's answer, a free value of which nothing is known, and sio changes nothing else (45_yop.md R291, R293;
20_memory.md R80 to R82: the spec's decision D15; the answer's numbering is the model's, log 3). -/
def Obligations.IoTransactions : Prop :=
  (∀ b a : BitVec 3, decodeWord (0b1111111001#10 ++ b ++ a) = .lio a.toFin b.toFin) ∧
  (∀ b a : BitVec 3, decodeWord (0b1111111011#10 ++ b ++ a) = .sio a.toFin b.toFin) ∧
  ∀ (rA rB : Reg) (s : State) (slot : Nat), slot = (s.x rB).toNat % 2 ^ s.params.ioBits →
    (∃ v, exec (.lio rA rB) s =
      .next { s.setX rA v with events := s.events ++ [.ioRead slot v], ioDraws := s.ioDraws + 1 }) ∧
    exec (.sio rA rB) s = .next { s with events := s.events ++ [.ioWrite slot (s.x rA)] }

/-- y04, y05 and y06 raise ExIllegal in both modes and change nothing else (45_yop.md R294, R295, R296). -/
def Obligations.ReservedYopsAreIllegal : Prop :=
  (∀ b a : BitVec 3, decodeWord (0b1111111100#10 ++ b ++ a) = .y04 a.toFin b.toFin) ∧
  (∀ b a : BitVec 3, decodeWord (0b1111111101#10 ++ b ++ a) = .y05 a.toFin b.toFin) ∧
  (∀ b a : BitVec 3, decodeWord (0b1111111110#10 ++ b ++ a) = .y06 a.toFin b.toFin) ∧
  ∀ (rA rB : Reg) (s : State),
    exec (.y04 rA rB) s = .next (raise exIllegal s) ∧ exec (.y05 rA rB) s = .next (raise exIllegal s) ∧
      exec (.y06 rA rB) s = .next (raise exIllegal s)

/-! ## VOPs -/

/-- rti in kernel mode: pc from irr, mode from bit 0 of imr, `en` set, nothing pending, and hc, irr, icr, imr and all else
unchanged (47_vop.md R350, the spec's decision D17). -/
def Obligations.RtiReturns : Prop :=
  decodeWord 0xFFF8 = .rti ∧
  ∀ s : State, s.mode = .kernel →
    exec .rti s =
      .next { s with ex := 0, en := true, pc := s.irr, mode := if s.imr.toNat % 2 = 0 then .user else .kernel }

/-- rtl, in both modes: pc from Link of the current mode (47_vop.md R351). -/
def Obligations.RtlReturns : Prop :=
  decodeWord 0xFFF9 = .rtl ∧
  ∀ s : State,
    (s.mode = .user → exec .rtl s = .next { s with pc := s.linkU }) ∧
    (s.mode = .kernel → exec .rtl s = .next { s with pc := s.linkK })

/-- di and ei in kernel mode write `en` alone; in user mode they raise ExIllegal (47_vop.md R352, R353). -/
def Obligations.DisableEnable : Prop :=
  decodeWord 0xFFFA = .di ∧ decodeWord 0xFFFB = .ei ∧
  ∀ s : State,
    (s.mode = .kernel → exec .di s = .next { s with en := false } ∧ exec .ei s = .next { s with en := true }) ∧
    (s.mode = .user → exec .di s = .next (raise exIllegal s) ∧ exec .ei s = .next (raise exIllegal s))

/-- hlt in kernel mode stops the run with the reason Hlt; brk in kernel mode records the event and changes nothing else
(47_vop.md R354, R355: the spec's decisions D19 and D18). -/
def Obligations.HaltAndBreakpoint : Prop :=
  decodeWord 0xFFFC = .hlt ∧ decodeWord 0xFFFD = .brk ∧
  ∀ s : State, s.mode = .kernel →
    exec .hlt s = .next { s with run := false, haltReason := some .hlt } ∧
    exec .brk s = .next { s with events := s.events ++ [.brk s.pc] }

/-- v06 and die raise ExIllegal in both modes and change nothing else (47_vop.md R356, R357: the spec's decision D16). -/
def Obligations.UnnamedVopsAreIllegal : Prop :=
  decodeWord 0xFFFE = .v06 ∧ decodeWord 0xFFFF = .die ∧
  ∀ s : State, exec .v06 s = .next (raise exIllegal s) ∧ exec .die s = .next (raise exIllegal s)

/-- The privilege check of rti, di, ei, hlt and brk: ExIllegal in user mode with no other effect; legal in kernel mode whatever
`en` is: no exception is raised there (47_vop.md R358). -/
def Obligations.PrivilegeCheck : Prop :=
  ∀ (i : Instr) (s : State), i = .rti ∨ i = .di ∨ i = .ei ∨ i = .hlt ∨ i = .brk →
    (s.mode = .user → exec i s = .next (raise exIllegal s)) ∧
    (s.mode = .kernel → ∃ t, exec i s = .next t ∧ (t.ex = 0 ∨ t.ex = s.ex) ∧
      ((t.run = s.run ∧ t.haltReason = s.haltReason) ∨ t.haltReason = some .hlt))

/-! ## Frames over all instructions -/

/-- A general register changes only as the destination of its instruction, in the file of the current mode, or as a user register
that a kernel ssp of SPR 16 + r names (10_state.md R22, R33; 40_machine_cycle.md R170). -/
def Obligations.GeneralRegisterFrame : Prop :=
  ∀ (i : Instr) (s t : State), exec i s = .next t → ∀ (m : Mode) (r : Reg),
    t.reg m r = s.reg m r ∨ (m = s.mode ∧ i.destination = some r) ∨
      ∃ rA rB, i = .ssp rA rB ∧ s.mode = .kernel ∧ m = .user ∧ (s.x rB).toNat % 64 = 16 + r.val

/-- What each other piece of state is changed by, and by nothing else: hc (10_state.md R29, the spec's decisions D10 and D17),
Link (R32), the MMU entries (R35, D14), irr, icr and imr (R34, D31), mode and `en` (R37, R38), the cycle count and the recorded
events. Two clauses are on the model's own fields: no instruction changes params (log 1), and lio alone moves ioDraws, the number
of the next answer (log 3). -/
def Obligations.SpecialStateFrame : Prop :=
  ∀ (i : Instr) (s t : State), exec i s = .next t →
    (t.hc = s.hc ∨ i.writesHc = true) ∧
    (∀ m, t.link m = s.link m ∨ (m = s.mode ∧ ∃ rB imm, i = .jlr 1 rB imm) ∨
      ∃ rA rB, i = .ssp rA rB ∧
        (((s.x rB).toNat % 64 = 1 ∧ m = s.mode) ∨ ((s.x rB).toNat % 64 = 25 ∧ s.mode = .kernel ∧ m = .user))) ∧
    (∀ k, t.mmu .user k = s.mmu .user k) ∧
    (∀ k, t.mmu .kernel k = s.mmu .kernel k ∨
      ∃ rA rB, i = .ssp rA rB ∧ s.mode = .kernel ∧ (s.x rB).toNat % 64 = 32 + k.val) ∧
    (t.irr = s.irr ∨ ∃ rA rB, i = .ssp rA rB ∧ s.mode = .kernel ∧ (s.x rB).toNat % 64 = 2) ∧
    (t.icr = s.icr ∨ ∃ rA rB, i = .ssp rA rB ∧ s.mode = .kernel ∧ (s.x rB).toNat % 64 = 3) ∧
    (t.imr = s.imr ∨ ∃ rA rB, i = .ssp rA rB ∧ s.mode = .kernel ∧ (s.x rB).toNat % 64 = 4) ∧
    (t.mode = s.mode ∨ (i = .rti ∧ s.mode = .kernel)) ∧
    (t.en = s.en ∨ ((i = .rti ∨ i = .ei ∨ i = .di) ∧ s.mode = .kernel)) ∧
    t.cycles = s.cycles ∧ t.params = s.params ∧
    (t.events = s.events ∨ (i = .brk ∧ s.mode = .kernel) ∨ ∃ rA rB, i = .lio rA rB ∨ i = .sio rA rB) ∧
    (t.ioDraws = s.ioDraws ∨ ∃ rA rB, i = .lio rA rB)

/-- Every byte of memory is unchanged except the bytes a store's own address, translated in the state before it, names; a store
whose address does not translate and every other instruction store nothing (20_memory.md R71; 41_base_memory.md R202, R203,
R206). -/
def Obligations.MemoryFrame : Prop :=
  ∀ (i : Instr) (s t : State), exec i s = .next t →
    ((∀ rA rB imm, i ≠ .stw rA rB imm ∧ i ≠ .stb rA rB imm) → t.mem = s.mem) ∧
    (∀ rA rB imm, i = .stw rA rB imm ∨ i = .stb rA rB imm →
      translateData s (basePlusImm s rB imm) = none → t.mem = s.mem) ∧
    (∀ rA rB imm wi lane, i = .stw rA rB imm → translateData s (basePlusImm s rB imm) = some (wi, lane) →
      ∀ a, a ≠ 2 * wi → a ≠ 2 * wi + 1 → t.mem.read a = s.mem.read a) ∧
    ∀ rA rB imm wi lane, i = .stb rA rB imm → translateData s (basePlusImm s rB imm) = some (wi, lane) →
      ∀ a, a ≠ 2 * wi + lane.toNat → t.mem.read a = s.mem.read a

/-- Exceptions are precise (40_machine_cycle.md R166, the spec's decision D30): an instruction that raises one changes nothing
but the latch, or, for a double fault, run and the halt reason. What it raises is an even code in 2..62 (60_exceptions.md R400).
An instruction starts with nothing pending (the invariant of R161). -/
def Obligations.PreciseExceptions : Prop :=
  ∀ (i : Instr) (s t : State), s.ex = 0 → s.haltReason = none → exec i s = .next t →
    (t.ex ≠ 0 → s.en = true ∧ t = { s with ex := t.ex } ∧ validCode t.ex) ∧
    ∀ c, t.haltReason = some (.doubleFault c) →
      s.en = false ∧ t = { s with run := false, haltReason := some (.doubleFault c) } ∧ validCode c

/-- A step of a user program depends on no kernel register, no kernel Link or MMU entry and none of irr, icr and imr, and leaves
them all as they are (60_exceptions.md R435 to R437; that no instruction reaches the user MMU entries is the spec's decision
D14). Both runs get the same answer to a user lio, Config.ioRead of the same number and slot: that is the model's choice, unsafe
for a claim that compares two runs (log 3), so of an lio the statement says only that the kernel-only state does not enter into
it. -/
def Obligations.UserStepIgnoresKernelPart : Prop :=
  ∀ (s : State) (k : KernelPart), s.mode = .user → s.ex = 0 →
    match step s with
    | .next t => step (s.withKernelPart k) = .next (t.withKernelPart k)
    | .fault f => step (s.withKernelPart k) = .fault f
    | .refused r => step (s.withKernelPart k) = .refused r

/-! ## Host load and codec -/

/-- The host load after reset (70_reset_and_hazards.md R455, R456: the spec's decisions D44 and D14): byte k of the kernel file
goes to physical byte k, byte k of the user file, where there is one, to 0x30000 + k, nothing else of memory changes, and the
preload is applied last; an image too large, or not below PHYS_WORDS, is an error of the whole load. Then the load of one image at
any address, what a preload writes, and the entries of the named preload LAYOUT. That files and preload are lists, a later value
for one entry winning, and the order of the two checks and of the two images' errors are the model's choice (log 14). -/
def Obligations.HostLoadPlacesImages : Prop :=
  (∀ (p : Params) (initMem : Memory) (kernelFile : List Byte) (userFile : Option (List Byte)) (preload : List MmuValue),
    boot p initMem kernelFile userFile preload = hostLoad (State.afterReset p initMem) kernelFile userFile preload) ∧
  (∀ (s : State) (kernelFile : List Byte) (userFile : Option (List Byte)) (preload : List MmuValue), s.mem.wf →
    (∀ e, loadImage s 0 kernelFile = .error e → hostLoad s kernelFile userFile preload = .error e) ∧
    (∀ t file e, loadImage s 0 kernelFile = .ok t → userFile = some file → loadImage s 0x30000 file = .error e →
      hostLoad s kernelFile userFile preload = .error e) ∧
    (kernelFile.length ≤ 0x30000 → (kernelFile.length + 1) / 2 ≤ s.params.physWords →
      (∀ file, userFile = some file →
        file.length ≤ 0x30000 ∧ (0x30000 + file.length + 1) / 2 ≤ s.params.physWords) →
      ∃ t, hostLoad s kernelFile userFile preload = .ok (applyPreload t preload) ∧ t = { s with mem := t.mem } ∧ t.mem.wf ∧
        (∀ k (h : k < kernelFile.length), t.mem.read k = kernelFile[k]) ∧
        (∀ file, userFile = some file → ∀ k (h : k < file.length), t.mem.read (0x30000 + k) = file[k]) ∧
        ∀ a, kernelFile.length ≤ a →
          (∀ file, userFile = some file → a < 0x30000 ∨ 0x30000 + file.length ≤ a) → t.mem.read a = s.mem.read a)) ∧
  (∀ (s : State) (base : Nat) (file : List Byte), s.mem.wf →
    (0x30000 < file.length → loadImage s base file = .error .fileTooLarge) ∧
    (file.length ≤ 0x30000 → s.params.physWords < (base + file.length + 1) / 2 →
      loadImage s base file = .error .beyondMemory) ∧
    (file.length ≤ 0x30000 → (base + file.length + 1) / 2 ≤ s.params.physWords →
      ∃ t, loadImage s base file = .ok t ∧ t = { s with mem := t.mem } ∧ t.mem.wf ∧
        (∀ k (h : k < file.length), t.mem.read (base + k) = file[k]) ∧
        ∀ a, a < base ∨ base + file.length ≤ a → t.mem.read a = s.mem.read a)) ∧
  (∀ s : State, applyPreload s [] = s ∧
    ∀ preload p, applyPreload s (preload ++ [p]) = (applyPreload s preload).setMmu p.mode p.entry p.value) ∧
  ∀ (s : State) (p : Fin 16),
    ((applyPreload s layout).mmu .kernel (codeEntry p)).toNat = p.val ∧
    ((applyPreload s layout).mmu .kernel (dataEntry p)).toNat = 0x020 + p.val ∧
    ((applyPreload s layout).mmu .user (codeEntry p)).toNat = 0x018 + p.val ∧
    ((applyPreload s layout).mmu .user (dataEntry p)).toNat = 0x050 + p.val

/-- The listing as source lines assembles to the words it lists, one line position per word, for every code segment: no word is
0x0000 and there are at most 64 K (30_encoding.md R131, R132, R141 to R148: the spec's decisions D34 to D38). -/
def Obligations.ListingReassembles : Prop :=
  ∀ words : List Word, (∀ w ∈ words, w ≠ 0) → words.length ≤ 65536 →
    (fuse (words.map decodeWord)).length = words.length ∧
      assembleLines ((disSource 0 (fuse (words.map decodeWord))).map .ok) = .ok words

/-- The round trip over text (30_encoding.md R150): what source assembles to, its `-q` listing assembles to again. -/
def Obligations.SourceRoundTrip : Prop :=
  ∀ (source : Text) (words : List Word), assemble source = .ok words → assemble (disassemble words) = .ok words
end

