-- ==== Sys2Proof/Laws/Encoding.lean ====
section
/-! SUPPORT. Encoded words and decoded fields as numbers: with these, facts about encodings are arithmetic. -/

namespace Sys2Proof

/-- A concatenation as a number. -/
theorem append_toNat {m n : Nat} (a : BitVec m) (b : BitVec n) : (a ++ b).toNat = a.toNat * 2 ^ n + b.toNat := by
  rw [BitVec.toNat_append, ← Nat.shiftLeft_add_eq_or_of_lt b.isLt, Nat.shiftLeft_eq]

@[simp] theorem regBits_toNat (r : Reg) : (regBits r).toNat = r.val := by
  have := r.isLt
  simp only [regBits, BitVec.toNat_ofNat]
  omega

/-- RRI: op, imm7, rB, rA. -/
theorem encodeRri_toNat (op : BitVec 3) (rA rB : Reg) (imm : Int) :
    (encodeRri op rA rB imm).toNat = op.toNat * 8192 + (BitVec.ofInt 7 imm).toNat * 64 + rB.val * 8 + rA.val := by
  unfold encodeRri
  rw [append_toNat, append_toNat, append_toNat, regBits_toNat, regBits_toNat]
  omega

/-- RJX: 110, imm10, rA. -/
theorem encodeRjx_toNat (rA : Reg) (imm : Nat) :
    (encodeRjx rA imm).toNat = 49152 + (imm % 1024) * 8 + rA.val := by
  unfold encodeRjx
  rw [append_toNat, append_toNat, regBits_toNat, BitVec.toNat_ofNat]
  simp only [BitVec.toNat_ofNat]
  omega

/-- jlr: 1110, imm6, rB, j. -/
theorem encodeJlr_toNat (j : Nat) (rB : Reg) (imm : Int) :
    (encodeJlr j rB imm).toNat = 57344 + (BitVec.ofInt 6 imm).toNat * 64 + rB.val * 8 + j % 8 := by
  unfold encodeJlr
  rw [append_toNat, append_toNat, append_toNat, regBits_toNat]
  simp only [BitVec.toNat_ofNat]
  omega

/-- RRR: 1111, xop, rC, rB, rA. -/
theorem encodeRrr_toNat (xop : BitVec 3) (rA rB rC : Reg) :
    (encodeRrr xop rA rB rC).toNat = 61440 + xop.toNat * 512 + rC.val * 64 + rB.val * 8 + rA.val := by
  unfold encodeRrr
  rw [append_toNat, append_toNat, append_toNat, append_toNat, regBits_toNat, regBits_toNat, regBits_toNat]
  simp only [BitVec.toNat_ofNat]
  omega

/-- RRX: 1111111, yop, rB, rA. -/
theorem encodeRrx_toNat (yop : BitVec 3) (rA rB : Reg) :
    (encodeRrx yop rA rB).toNat = 65024 + yop.toNat * 64 + rB.val * 8 + rA.val := by
  unfold encodeRrx
  rw [append_toNat, append_toNat, append_toNat, regBits_toNat, regBits_toNat]
  simp only [BitVec.toNat_ofNat]
  omega

/-- RXX: 1111111111, zop, rA. -/
theorem encodeRxx_toNat (zop : BitVec 3) (rA : Reg) :
    (encodeRxx zop rA).toNat = 65472 + zop.toNat * 8 + rA.val := by
  unfold encodeRxx
  rw [append_toNat, append_toNat, regBits_toNat]
  simp only [BitVec.toNat_ofNat]
  omega

/-- XXX: 1111111111111, vop. -/
theorem encodeXxx_toNat (vop : BitVec 3) : (encodeXxx vop).toNat = 65528 + vop.toNat := by
  unfold encodeXxx
  rw [append_toNat]
  simp only [BitVec.toNat_ofNat]
  omega

/-! ## Fields -/

/-- A field as a number. -/
theorem extractLsb'_val {n : Nat} (w : BitVec n) (lo len : Nat) :
    (w.extractLsb' lo len).toNat = w.toNat / 2 ^ lo % 2 ^ len := by
  rw [BitVec.extractLsb'_toNat, Nat.shiftRight_eq_div_pow]

theorem field3_val (w : Word) (lo : Nat) : (field3 w lo).val = w.toNat / 2 ^ lo % 8 := extractLsb'_val w lo 3

theorem fieldA_val (w : Word) : (fieldA w).val = w.toNat % 8 := by
  rw [fieldA, field3_val, Nat.pow_zero, Nat.div_one]

theorem fieldB_val (w : Word) : (fieldB w).val = w.toNat / 8 % 8 := field3_val w 3

theorem fieldC_val (w : Word) : (fieldC w).val = w.toNat / 64 % 8 := field3_val w 6

theorem fieldXop_val (w : Word) : (fieldXop w).val = w.toNat / 512 % 8 := field3_val w 9

theorem fieldOp_val (w : Word) : (fieldOp w).val = w.toNat / 8192 % 8 := field3_val w 13

theorem fieldImm10_val (w : Word) : fieldImm10 w = w.toNat / 8 % 1024 := extractLsb'_val w 3 10

/-- imm7 is in range. -/
theorem fieldImm7_fits (w : Word) : imm7Fits (fieldImm7 w) = true := by
  have h1 := BitVec.le_toInt (w.extractLsb' 6 7)
  have h2 := BitVec.toInt_lt (x := w.extractLsb' 6 7)
  exact decide_eq_true ⟨by unfold fieldImm7; omega, by unfold fieldImm7; omega⟩

/-- imm6 is in range. -/
theorem fieldImm6_fits (w : Word) : imm6Fits (fieldImm6 w) = true := by
  have h1 := BitVec.le_toInt (w.extractLsb' 6 6)
  have h2 := BitVec.toInt_lt (x := w.extractLsb' 6 6)
  exact decide_eq_true ⟨by unfold fieldImm6; omega, by unfold fieldImm6; omega⟩

/-- A row recognises exactly the words whose number lies in its block. -/
theorem recognises_iff (r : OpcodeRow) (w : Word) :
    r.recognises w = true ↔ w.toNat / 2 ^ (16 - r.nbits) = r.opcode.toNat / 2 ^ (16 - r.nbits) := by
  unfold OpcodeRow.recognises
  rw [beq_iff_eq, ← BitVec.toNat_inj, BitVec.toNat_ushiftRight, BitVec.toNat_ushiftRight,
    Nat.shiftRight_eq_div_pow, Nat.shiftRight_eq_div_pow]

end Sys2Proof
end

