-- ==== Sys2Proof/Laws/Memory.lean ====
section
/-! SUPPORT. The laws of physical memory: a read after a write, the canonical form kept by every memory operation, and the
word operations in terms of bytes. -/

namespace Sys2Proof.Machine

/-- Every address listed lies above a bound. -/
abbrev cellsAbove (a : Nat) (cs : List Host.Cell) : Prop := ∀ c ∈ cs, a < c.1

/-- An address below every listed one reads as unlisted. -/
theorem readCells_above {cs : List Host.Cell} {a : Nat} (h : cellsAbove a cs) : readCells cs a = unlistedByte := by
  induction cs with
  | nil => rfl
  | cons c rest ih =>
    have hc := h c (by simp)
    rw [readCells, if_neg (by omega)]
    exact ih fun d hd => h d (by simp [hd])

/-- A write leaves every other byte alone, whatever the list. -/
theorem readCells_writeCells_ne {cs : List Host.Cell} {a b : Nat} {v : Byte} (h : b ≠ a) :
    readCells (writeCells cs a v) b = readCells cs b := by
  induction cs with
  | nil => unfold writeCells; split <;> simp [readCells, h]
  | cons c rest ih =>
    unfold writeCells
    split
    · split <;> simp [readCells, h]
    · split
      · next hak =>
        subst hak
        split <;> simp [readCells, h]
      · simp [readCells, ih]

/-- A write to a canonical list is read back. -/
theorem readCells_writeCells_self {cs : List Host.Cell} {a : Nat} {v : Byte}
    (h : cs.Pairwise (fun c d => c.1 < d.1)) : readCells (writeCells cs a v) a = v := by
  induction cs with
  | nil => unfold writeCells; split <;> simp_all [readCells]
  | cons c rest ih =>
    have hrest := (List.pairwise_cons.mp h).1
    unfold writeCells
    split
    · next hlt =>
      split
      · next hv =>
        rw [hv]
        exact readCells_above fun d hd => by
          rcases List.mem_cons.mp hd with rfl | hd
          · exact hlt
          · exact Nat.lt_trans hlt (hrest d hd)
      · simp [readCells]
    · split
      · next hak =>
        split
        · next hv =>
          rw [hv]
          exact readCells_above fun d hd => hak ▸ hrest d hd
        · simp [readCells]
      · next hne => simp [readCells, hne, ih (List.pairwise_cons.mp h).2]

/-- The entries after a write are old entries at other addresses, or the new one where it differs from the unlisted
value. -/
theorem mem_writeCells {cs : List Host.Cell} {a : Nat} {v : Byte} {c : Host.Cell} (h : c ∈ writeCells cs a v) :
    c ∈ cs ∨ (c = (a, v) ∧ v ≠ unlistedByte) := by
  induction cs with
  | nil =>
    unfold writeCells at h
    split at h <;> simp_all
  | cons d rest ih =>
    unfold writeCells at h
    split at h
    · split at h
      · exact .inl h
      · rcases List.mem_cons.mp h with rfl | h
        · exact .inr ⟨rfl, ‹_›⟩
        · exact .inl h
    · split at h
      · split at h
        · exact .inl (List.mem_cons_of_mem _ h)
        · rcases List.mem_cons.mp h with rfl | h
          · exact .inr ⟨rfl, ‹_›⟩
          · exact .inl (List.mem_cons_of_mem _ h)
      · rcases List.mem_cons.mp h with rfl | h
        · exact .inl (by simp)
        · exact (ih h).imp_left (List.mem_cons_of_mem _)

/-- A write keeps addresses strictly rising. -/
theorem writeCells_pairwise {cs : List Host.Cell} {a : Nat} {v : Byte} (h : cs.Pairwise (fun c d => c.1 < d.1)) :
    (writeCells cs a v).Pairwise (fun c d => c.1 < d.1) := by
  induction cs with
  | nil => unfold writeCells; split <;> simp
  | cons c rest ih =>
    obtain ⟨hc, hrest⟩ := List.pairwise_cons.mp h
    unfold writeCells
    split
    · next hlt =>
      split
      · exact h
      · refine List.pairwise_cons.mpr ⟨fun d hd => ?_, h⟩
        rcases List.mem_cons.mp hd with rfl | hd
        · exact hlt
        · exact Nat.lt_trans hlt (hc d hd)
    · split
      · next hak =>
        subst hak
        split
        · exact hrest
        · exact List.pairwise_cons.mpr ⟨hc, hrest⟩
      · next hlt hne =>
        refine List.pairwise_cons.mpr ⟨fun d hd => ?_, ih hrest⟩
        rcases mem_writeCells hd with hd | ⟨rfl, -⟩
        · exact hc d hd
        · simp only; omega

/-! ## Memory -/

/-- A write leaves every other address alone. -/
theorem read_write_ne (m : Memory) {a b : Nat} (v : Byte) (h : b ≠ a) : (m.write a v).read b = m.read b :=
  readCells_writeCells_ne h

/-- A read of the address written gives the value written. -/
theorem read_write_self {m : Memory} (h : m.wf) (a : Nat) (v : Byte) : (m.write a v).read a = v :=
  readCells_writeCells_self h.1

/-- Both at once. -/
theorem read_write {m : Memory} (h : m.wf) (a b : Nat) (v : Byte) :
    (m.write a v).read b = if b = a then v else m.read b := by
  split
  · next e => rw [e, read_write_self h]
  · next e => exact read_write_ne m v e

/-- Memory with nothing listed is canonical. -/
theorem empty_wf : Memory.empty.wf := ⟨List.Pairwise.nil, fun _ h => nomatch h⟩

/-- A byte write keeps the canonical form. -/
theorem write_wf {m : Memory} (h : m.wf) (a : Nat) (v : Byte) : (m.write a v).wf :=
  ⟨writeCells_pairwise h.1, fun c hc => (mem_writeCells hc).elim (h.2 c) fun e => by rw [e.1]; exact e.2⟩

/-- A word write keeps the canonical form. -/
theorem physWrite_wf {m : Memory} (h : m.wf) (i : Nat) (v : Word) : (physWrite m i v).wf :=
  write_wf (write_wf h _ _) _ _

/-- The bytes of a file keep the canonical form. -/
theorem loadBytes_wf {m : Memory} (h : m.wf) (base : Nat) (file : List Byte) : (loadBytes m base file).wf := by
  induction file generalizing m base with
  | nil => exact h
  | cons b rest ih => exact ih (write_wf h base b) (base + 1)

/-- What a byte write lists: nothing at a new address but the one written. -/
theorem mem_cells_write {m : Memory} {a : Nat} {v : Byte} {c : Host.Cell} (h : c ∈ (m.write a v).cells) :
    c ∈ m.cells ∨ c.1 = a :=
  (mem_writeCells h).imp_right fun e => by rw [e.1]

/-- What a word write lists. -/
theorem mem_cells_physWrite {m : Memory} {i : Nat} {v : Word} {c : Host.Cell} (h : c ∈ (physWrite m i v).cells) :
    c ∈ m.cells ∨ c.1 = 2 * i ∨ c.1 = 2 * i + 1 := by
  rcases mem_cells_write h with h | h
  · exact (mem_cells_write h).imp_right .inl
  · exact .inr (.inr h)

/-- A byte of a word write. -/
theorem read_physWrite {m : Memory} (h : m.wf) (i a : Nat) (v : Word) :
    (physWrite m i v).read a =
      if a = 2 * i then loByte v else if a = 2 * i + 1 then hiByte v else m.read a := by
  rw [physWrite, read_write (write_wf h _ _), read_write h]
  by_cases h1 : a = 2 * i + 1
  · rw [if_pos h1, if_neg (by omega), if_pos h1]
  · rw [if_neg h1, if_neg h1]

/-- A word write leaves every byte outside the word alone, whatever the memory. -/
theorem read_physWrite_ne (m : Memory) {i a : Nat} (v : Word) (h0 : a ≠ 2 * i) (h1 : a ≠ 2 * i + 1) :
    (physWrite m i v).read a = m.read a := by
  rw [physWrite, read_write_ne _ _ h1, read_write_ne _ _ h0]

@[simp] theorem wordOfBytes_lo_hi (w : Word) : wordOfBytes (loByte w) (hiByte w) = w := by
  unfold wordOfBytes loByte hiByte
  ext i hi
  simp only [BitVec.getElem_append, BitVec.getElem_extractLsb']
  split <;> rename_i h
  · simp [BitVec.getLsbD_eq_getElem hi]
  · simp [show 8 + (i - 8) = i by omega, BitVec.getLsbD_eq_getElem hi]

/-- The bits of a word from its bytes. -/
theorem getLsbD_wordOfBytes (lo hi : Byte) (i : Nat) :
    (wordOfBytes lo hi).getLsbD i = if i < 8 then lo.getLsbD i else hi.getLsbD (i - 8) := by
  rw [wordOfBytes, show (hi ++ lo : Word).getLsbD i = (hi ++ lo : BitVec (8 + 8)).getLsbD i from rfl,
    BitVec.getLsbD_append]

@[simp] theorem loByte_wordOfBytes (lo hi : Byte) : loByte (wordOfBytes lo hi) = lo := by
  unfold loByte
  ext i h
  rw [BitVec.getElem_extractLsb', getLsbD_wordOfBytes, if_pos (by omega), Nat.zero_add, BitVec.getLsbD_eq_getElem h]

@[simp] theorem hiByte_wordOfBytes (lo hi : Byte) : hiByte (wordOfBytes lo hi) = hi := by
  unfold hiByte
  ext i h
  rw [BitVec.getElem_extractLsb', getLsbD_wordOfBytes, if_neg (by omega), Nat.add_sub_cancel_left,
    BitVec.getLsbD_eq_getElem]

/-- A word read after a word write (20_memory.md R60). -/
theorem physRead_physWrite {m : Memory} (h : m.wf) (i j : Nat) (v : Word) :
    physRead (physWrite m i v) j = if j = i then v else physRead m j := by
  unfold physRead
  rw [read_physWrite h, read_physWrite h]
  by_cases hj : j = i
  · subst hj
    rw [if_pos rfl, if_neg (by omega), if_pos rfl, if_pos rfl, wordOfBytes_lo_hi]
  · rw [if_neg (by omega), if_neg (by omega), if_neg (by omega), if_neg (by omega), if_neg hj]

/-- A word read depends on its two bytes alone. -/
theorem physRead_congr {m m' : Memory} {i : Nat} (h0 : m'.read (2 * i) = m.read (2 * i))
    (h1 : m'.read (2 * i + 1) = m.read (2 * i + 1)) : physRead m' i = physRead m i := by
  rw [physRead, physRead, h0, h1]

end Sys2Proof.Machine
end

