-- ==== Sys2Proof/Laws/State.lean ====
section
/-! SUPPORT. One lemma per field per named update: what the update leaves unchanged, and what it writes. A proof cites these
(they are simp lemmas) and unfolds no record update. -/

namespace Sys2Proof.Machine

/-! ## setReg -/

@[simp] theorem setReg_linkU (s : State) (m : Mode) (r : Reg) (v : Word) : (s.setReg m r v).linkU = s.linkU := by cases m <;> rfl

@[simp] theorem setReg_linkK (s : State) (m : Mode) (r : Reg) (v : Word) : (s.setReg m r v).linkK = s.linkK := by cases m <;> rfl

@[simp] theorem setReg_mmuU (s : State) (m : Mode) (r : Reg) (v : Word) : (s.setReg m r v).mmuU = s.mmuU := by cases m <;> rfl

@[simp] theorem setReg_mmuK (s : State) (m : Mode) (r : Reg) (v : Word) : (s.setReg m r v).mmuK = s.mmuK := by cases m <;> rfl

@[simp] theorem setReg_irr (s : State) (m : Mode) (r : Reg) (v : Word) : (s.setReg m r v).irr = s.irr := by cases m <;> rfl

@[simp] theorem setReg_icr (s : State) (m : Mode) (r : Reg) (v : Word) : (s.setReg m r v).icr = s.icr := by cases m <;> rfl

@[simp] theorem setReg_imr (s : State) (m : Mode) (r : Reg) (v : Word) : (s.setReg m r v).imr = s.imr := by cases m <;> rfl

@[simp] theorem setReg_pc (s : State) (m : Mode) (r : Reg) (v : Word) : (s.setReg m r v).pc = s.pc := by cases m <;> rfl

@[simp] theorem setReg_mode (s : State) (m : Mode) (r : Reg) (v : Word) : (s.setReg m r v).mode = s.mode := by cases m <;> rfl

@[simp] theorem setReg_en (s : State) (m : Mode) (r : Reg) (v : Word) : (s.setReg m r v).en = s.en := by cases m <;> rfl

@[simp] theorem setReg_hc (s : State) (m : Mode) (r : Reg) (v : Word) : (s.setReg m r v).hc = s.hc := by cases m <;> rfl

@[simp] theorem setReg_ex (s : State) (m : Mode) (r : Reg) (v : Word) : (s.setReg m r v).ex = s.ex := by cases m <;> rfl

@[simp] theorem setReg_run (s : State) (m : Mode) (r : Reg) (v : Word) : (s.setReg m r v).run = s.run := by cases m <;> rfl

@[simp] theorem setReg_haltReason (s : State) (m : Mode) (r : Reg) (v : Word) : (s.setReg m r v).haltReason = s.haltReason := by cases m <;> rfl

@[simp] theorem setReg_cycles (s : State) (m : Mode) (r : Reg) (v : Word) : (s.setReg m r v).cycles = s.cycles := by cases m <;> rfl

@[simp] theorem setReg_mem (s : State) (m : Mode) (r : Reg) (v : Word) : (s.setReg m r v).mem = s.mem := by cases m <;> rfl

@[simp] theorem setReg_events (s : State) (m : Mode) (r : Reg) (v : Word) : (s.setReg m r v).events = s.events := by cases m <;> rfl

@[simp] theorem setReg_ioDraws (s : State) (m : Mode) (r : Reg) (v : Word) : (s.setReg m r v).ioDraws = s.ioDraws := by cases m <;> rfl

@[simp] theorem setReg_params (s : State) (m : Mode) (r : Reg) (v : Word) : (s.setReg m r v).params = s.params := by cases m <;> rfl

@[simp] theorem setReg_xu (s : State) (m : Mode) (r : Reg) (v : Word) :
    (s.setReg m r v).xu = if m = .user then gprWrite s.xu r v else s.xu := by cases m <;> rfl

@[simp] theorem setReg_xk (s : State) (m : Mode) (r : Reg) (v : Word) :
    (s.setReg m r v).xk = if m = .kernel then gprWrite s.xk r v else s.xk := by cases m <;> rfl

/-! ## setX -/

@[simp] theorem setX_linkU (s : State) (r : Reg) (v : Word) : (s.setX r v).linkU = s.linkU := by simp [State.setX]

@[simp] theorem setX_linkK (s : State) (r : Reg) (v : Word) : (s.setX r v).linkK = s.linkK := by simp [State.setX]

@[simp] theorem setX_mmuU (s : State) (r : Reg) (v : Word) : (s.setX r v).mmuU = s.mmuU := by simp [State.setX]

@[simp] theorem setX_mmuK (s : State) (r : Reg) (v : Word) : (s.setX r v).mmuK = s.mmuK := by simp [State.setX]

@[simp] theorem setX_irr (s : State) (r : Reg) (v : Word) : (s.setX r v).irr = s.irr := by simp [State.setX]

@[simp] theorem setX_icr (s : State) (r : Reg) (v : Word) : (s.setX r v).icr = s.icr := by simp [State.setX]

@[simp] theorem setX_imr (s : State) (r : Reg) (v : Word) : (s.setX r v).imr = s.imr := by simp [State.setX]

@[simp] theorem setX_pc (s : State) (r : Reg) (v : Word) : (s.setX r v).pc = s.pc := by simp [State.setX]

@[simp] theorem setX_mode (s : State) (r : Reg) (v : Word) : (s.setX r v).mode = s.mode := by simp [State.setX]

@[simp] theorem setX_en (s : State) (r : Reg) (v : Word) : (s.setX r v).en = s.en := by simp [State.setX]

@[simp] theorem setX_hc (s : State) (r : Reg) (v : Word) : (s.setX r v).hc = s.hc := by simp [State.setX]

@[simp] theorem setX_ex (s : State) (r : Reg) (v : Word) : (s.setX r v).ex = s.ex := by simp [State.setX]

@[simp] theorem setX_run (s : State) (r : Reg) (v : Word) : (s.setX r v).run = s.run := by simp [State.setX]

@[simp] theorem setX_haltReason (s : State) (r : Reg) (v : Word) : (s.setX r v).haltReason = s.haltReason := by simp [State.setX]

@[simp] theorem setX_cycles (s : State) (r : Reg) (v : Word) : (s.setX r v).cycles = s.cycles := by simp [State.setX]

@[simp] theorem setX_mem (s : State) (r : Reg) (v : Word) : (s.setX r v).mem = s.mem := by simp [State.setX]

@[simp] theorem setX_events (s : State) (r : Reg) (v : Word) : (s.setX r v).events = s.events := by simp [State.setX]

@[simp] theorem setX_ioDraws (s : State) (r : Reg) (v : Word) : (s.setX r v).ioDraws = s.ioDraws := by simp [State.setX]

@[simp] theorem setX_params (s : State) (r : Reg) (v : Word) : (s.setX r v).params = s.params := by simp [State.setX]

@[simp] theorem setX_xu (s : State) (r : Reg) (v : Word) :
    (s.setX r v).xu = if s.mode = .user then gprWrite s.xu r v else s.xu := by simp [State.setX]

@[simp] theorem setX_xk (s : State) (r : Reg) (v : Word) :
    (s.setX r v).xk = if s.mode = .kernel then gprWrite s.xk r v else s.xk := by simp [State.setX]

/-! ## setLink -/

@[simp] theorem setLink_xu (s : State) (m : Mode) (v : Word) : (s.setLink m v).xu = s.xu := by cases m <;> rfl

@[simp] theorem setLink_xk (s : State) (m : Mode) (v : Word) : (s.setLink m v).xk = s.xk := by cases m <;> rfl

@[simp] theorem setLink_linkU (s : State) (m : Mode) (v : Word) : (s.setLink m v).linkU = if m = .user then v else s.linkU := by cases m <;> rfl

@[simp] theorem setLink_linkK (s : State) (m : Mode) (v : Word) : (s.setLink m v).linkK = if m = .kernel then v else s.linkK := by cases m <;> rfl

@[simp] theorem setLink_mmuU (s : State) (m : Mode) (v : Word) : (s.setLink m v).mmuU = s.mmuU := by cases m <;> rfl

@[simp] theorem setLink_mmuK (s : State) (m : Mode) (v : Word) : (s.setLink m v).mmuK = s.mmuK := by cases m <;> rfl

@[simp] theorem setLink_irr (s : State) (m : Mode) (v : Word) : (s.setLink m v).irr = s.irr := by cases m <;> rfl

@[simp] theorem setLink_icr (s : State) (m : Mode) (v : Word) : (s.setLink m v).icr = s.icr := by cases m <;> rfl

@[simp] theorem setLink_imr (s : State) (m : Mode) (v : Word) : (s.setLink m v).imr = s.imr := by cases m <;> rfl

@[simp] theorem setLink_pc (s : State) (m : Mode) (v : Word) : (s.setLink m v).pc = s.pc := by cases m <;> rfl

@[simp] theorem setLink_mode (s : State) (m : Mode) (v : Word) : (s.setLink m v).mode = s.mode := by cases m <;> rfl

@[simp] theorem setLink_en (s : State) (m : Mode) (v : Word) : (s.setLink m v).en = s.en := by cases m <;> rfl

@[simp] theorem setLink_hc (s : State) (m : Mode) (v : Word) : (s.setLink m v).hc = s.hc := by cases m <;> rfl

@[simp] theorem setLink_ex (s : State) (m : Mode) (v : Word) : (s.setLink m v).ex = s.ex := by cases m <;> rfl

@[simp] theorem setLink_run (s : State) (m : Mode) (v : Word) : (s.setLink m v).run = s.run := by cases m <;> rfl

@[simp] theorem setLink_haltReason (s : State) (m : Mode) (v : Word) : (s.setLink m v).haltReason = s.haltReason := by cases m <;> rfl

@[simp] theorem setLink_cycles (s : State) (m : Mode) (v : Word) : (s.setLink m v).cycles = s.cycles := by cases m <;> rfl

@[simp] theorem setLink_mem (s : State) (m : Mode) (v : Word) : (s.setLink m v).mem = s.mem := by cases m <;> rfl

@[simp] theorem setLink_events (s : State) (m : Mode) (v : Word) : (s.setLink m v).events = s.events := by cases m <;> rfl

@[simp] theorem setLink_ioDraws (s : State) (m : Mode) (v : Word) : (s.setLink m v).ioDraws = s.ioDraws := by cases m <;> rfl

@[simp] theorem setLink_params (s : State) (m : Mode) (v : Word) : (s.setLink m v).params = s.params := by cases m <;> rfl

/-! ## setMmu -/

@[simp] theorem setMmu_xu (s : State) (m : Mode) (k : Fin 32) (v : Word) : (s.setMmu m k v).xu = s.xu := by cases m <;> rfl

@[simp] theorem setMmu_xk (s : State) (m : Mode) (k : Fin 32) (v : Word) : (s.setMmu m k v).xk = s.xk := by cases m <;> rfl

@[simp] theorem setMmu_linkU (s : State) (m : Mode) (k : Fin 32) (v : Word) : (s.setMmu m k v).linkU = s.linkU := by cases m <;> rfl

@[simp] theorem setMmu_linkK (s : State) (m : Mode) (k : Fin 32) (v : Word) : (s.setMmu m k v).linkK = s.linkK := by cases m <;> rfl

@[simp] theorem setMmu_mmuU (s : State) (m : Mode) (k : Fin 32) (v : Word) : (s.setMmu m k v).mmuU = if m = .user then s.mmuU.set k v else s.mmuU := by cases m <;> rfl

@[simp] theorem setMmu_mmuK (s : State) (m : Mode) (k : Fin 32) (v : Word) : (s.setMmu m k v).mmuK = if m = .kernel then s.mmuK.set k v else s.mmuK := by cases m <;> rfl

@[simp] theorem setMmu_irr (s : State) (m : Mode) (k : Fin 32) (v : Word) : (s.setMmu m k v).irr = s.irr := by cases m <;> rfl

@[simp] theorem setMmu_icr (s : State) (m : Mode) (k : Fin 32) (v : Word) : (s.setMmu m k v).icr = s.icr := by cases m <;> rfl

@[simp] theorem setMmu_imr (s : State) (m : Mode) (k : Fin 32) (v : Word) : (s.setMmu m k v).imr = s.imr := by cases m <;> rfl

@[simp] theorem setMmu_pc (s : State) (m : Mode) (k : Fin 32) (v : Word) : (s.setMmu m k v).pc = s.pc := by cases m <;> rfl

@[simp] theorem setMmu_mode (s : State) (m : Mode) (k : Fin 32) (v : Word) : (s.setMmu m k v).mode = s.mode := by cases m <;> rfl

@[simp] theorem setMmu_en (s : State) (m : Mode) (k : Fin 32) (v : Word) : (s.setMmu m k v).en = s.en := by cases m <;> rfl

@[simp] theorem setMmu_hc (s : State) (m : Mode) (k : Fin 32) (v : Word) : (s.setMmu m k v).hc = s.hc := by cases m <;> rfl

@[simp] theorem setMmu_ex (s : State) (m : Mode) (k : Fin 32) (v : Word) : (s.setMmu m k v).ex = s.ex := by cases m <;> rfl

@[simp] theorem setMmu_run (s : State) (m : Mode) (k : Fin 32) (v : Word) : (s.setMmu m k v).run = s.run := by cases m <;> rfl

@[simp] theorem setMmu_haltReason (s : State) (m : Mode) (k : Fin 32) (v : Word) : (s.setMmu m k v).haltReason = s.haltReason := by cases m <;> rfl

@[simp] theorem setMmu_cycles (s : State) (m : Mode) (k : Fin 32) (v : Word) : (s.setMmu m k v).cycles = s.cycles := by cases m <;> rfl

@[simp] theorem setMmu_mem (s : State) (m : Mode) (k : Fin 32) (v : Word) : (s.setMmu m k v).mem = s.mem := by cases m <;> rfl

@[simp] theorem setMmu_events (s : State) (m : Mode) (k : Fin 32) (v : Word) : (s.setMmu m k v).events = s.events := by cases m <;> rfl

@[simp] theorem setMmu_ioDraws (s : State) (m : Mode) (k : Fin 32) (v : Word) : (s.setMmu m k v).ioDraws = s.ioDraws := by cases m <;> rfl

@[simp] theorem setMmu_params (s : State) (m : Mode) (k : Fin 32) (v : Word) : (s.setMmu m k v).params = s.params := by cases m <;> rfl

/-! ## raise -/

@[simp] theorem raise_xu (c : ExCode) (s : State) : (raise c s).xu = s.xu := by unfold raise; split <;> simp_all

@[simp] theorem raise_xk (c : ExCode) (s : State) : (raise c s).xk = s.xk := by unfold raise; split <;> simp_all

@[simp] theorem raise_linkU (c : ExCode) (s : State) : (raise c s).linkU = s.linkU := by unfold raise; split <;> simp_all

@[simp] theorem raise_linkK (c : ExCode) (s : State) : (raise c s).linkK = s.linkK := by unfold raise; split <;> simp_all

@[simp] theorem raise_mmuU (c : ExCode) (s : State) : (raise c s).mmuU = s.mmuU := by unfold raise; split <;> simp_all

@[simp] theorem raise_mmuK (c : ExCode) (s : State) : (raise c s).mmuK = s.mmuK := by unfold raise; split <;> simp_all

@[simp] theorem raise_irr (c : ExCode) (s : State) : (raise c s).irr = s.irr := by unfold raise; split <;> simp_all

@[simp] theorem raise_icr (c : ExCode) (s : State) : (raise c s).icr = s.icr := by unfold raise; split <;> simp_all

@[simp] theorem raise_imr (c : ExCode) (s : State) : (raise c s).imr = s.imr := by unfold raise; split <;> simp_all

@[simp] theorem raise_pc (c : ExCode) (s : State) : (raise c s).pc = s.pc := by unfold raise; split <;> simp_all

@[simp] theorem raise_mode (c : ExCode) (s : State) : (raise c s).mode = s.mode := by unfold raise; split <;> simp_all

@[simp] theorem raise_en (c : ExCode) (s : State) : (raise c s).en = s.en := by unfold raise; split <;> simp_all

@[simp] theorem raise_hc (c : ExCode) (s : State) : (raise c s).hc = s.hc := by unfold raise; split <;> simp_all

@[simp] theorem raise_ex (c : ExCode) (s : State) : (raise c s).ex = if s.en then c else s.ex := by unfold raise; split <;> simp_all

@[simp] theorem raise_run (c : ExCode) (s : State) : (raise c s).run = if s.en then s.run else false := by unfold raise; split <;> simp_all

@[simp] theorem raise_haltReason (c : ExCode) (s : State) : (raise c s).haltReason = if s.en then s.haltReason else some (.doubleFault c) := by unfold raise; split <;> simp_all

@[simp] theorem raise_cycles (c : ExCode) (s : State) : (raise c s).cycles = s.cycles := by unfold raise; split <;> simp_all

@[simp] theorem raise_mem (c : ExCode) (s : State) : (raise c s).mem = s.mem := by unfold raise; split <;> simp_all

@[simp] theorem raise_events (c : ExCode) (s : State) : (raise c s).events = s.events := by unfold raise; split <;> simp_all

@[simp] theorem raise_ioDraws (c : ExCode) (s : State) : (raise c s).ioDraws = s.ioDraws := by unfold raise; split <;> simp_all

@[simp] theorem raise_params (c : ExCode) (s : State) : (raise c s).params = s.params := by unfold raise; split <;> simp_all

/-! ## deliver -/

@[simp] theorem deliver_xu (s : State) : (deliver s).xu = s.xu := rfl

@[simp] theorem deliver_xk (s : State) : (deliver s).xk = s.xk := rfl

@[simp] theorem deliver_linkU (s : State) : (deliver s).linkU = s.linkU := rfl

@[simp] theorem deliver_linkK (s : State) : (deliver s).linkK = s.linkK := rfl

@[simp] theorem deliver_mmuU (s : State) : (deliver s).mmuU = s.mmuU := rfl

@[simp] theorem deliver_mmuK (s : State) : (deliver s).mmuK = s.mmuK := rfl

@[simp] theorem deliver_irr (s : State) : (deliver s).irr = s.pc := rfl

@[simp] theorem deliver_icr (s : State) : (deliver s).icr = s.ex.setWidth 16 := rfl

@[simp] theorem deliver_imr (s : State) : (deliver s).imr = modeWord s.mode := rfl

@[simp] theorem deliver_pc (s : State) : (deliver s).pc = s.ex.setWidth 16 := rfl

@[simp] theorem deliver_mode (s : State) : (deliver s).mode = .kernel := rfl

@[simp] theorem deliver_en (s : State) : (deliver s).en = false := rfl

@[simp] theorem deliver_hc (s : State) : (deliver s).hc = s.hc := rfl

@[simp] theorem deliver_ex (s : State) : (deliver s).ex = 0 := rfl

@[simp] theorem deliver_run (s : State) : (deliver s).run = s.run := rfl

@[simp] theorem deliver_haltReason (s : State) : (deliver s).haltReason = s.haltReason := rfl

@[simp] theorem deliver_cycles (s : State) : (deliver s).cycles = s.cycles := rfl

@[simp] theorem deliver_mem (s : State) : (deliver s).mem = s.mem := rfl

@[simp] theorem deliver_events (s : State) : (deliver s).events = s.events := rfl

@[simp] theorem deliver_ioDraws (s : State) : (deliver s).ioDraws = s.ioDraws := rfl

@[simp] theorem deliver_params (s : State) : (deliver s).params = s.params := rfl

/-! ## returnFromException -/

@[simp] theorem returnFromException_xu (s : State) : (returnFromException s).xu = s.xu := rfl

@[simp] theorem returnFromException_xk (s : State) : (returnFromException s).xk = s.xk := rfl

@[simp] theorem returnFromException_linkU (s : State) : (returnFromException s).linkU = s.linkU := rfl

@[simp] theorem returnFromException_linkK (s : State) : (returnFromException s).linkK = s.linkK := rfl

@[simp] theorem returnFromException_mmuU (s : State) : (returnFromException s).mmuU = s.mmuU := rfl

@[simp] theorem returnFromException_mmuK (s : State) : (returnFromException s).mmuK = s.mmuK := rfl

@[simp] theorem returnFromException_irr (s : State) : (returnFromException s).irr = s.irr := rfl

@[simp] theorem returnFromException_icr (s : State) : (returnFromException s).icr = s.icr := rfl

@[simp] theorem returnFromException_imr (s : State) : (returnFromException s).imr = s.imr := rfl

@[simp] theorem returnFromException_pc (s : State) : (returnFromException s).pc = s.irr := rfl

@[simp] theorem returnFromException_mode (s : State) : (returnFromException s).mode = modeOfWord s.imr := rfl

@[simp] theorem returnFromException_en (s : State) : (returnFromException s).en = true := rfl

@[simp] theorem returnFromException_hc (s : State) : (returnFromException s).hc = s.hc := rfl

@[simp] theorem returnFromException_ex (s : State) : (returnFromException s).ex = 0 := rfl

@[simp] theorem returnFromException_run (s : State) : (returnFromException s).run = s.run := rfl

@[simp] theorem returnFromException_haltReason (s : State) : (returnFromException s).haltReason = s.haltReason := rfl

@[simp] theorem returnFromException_cycles (s : State) : (returnFromException s).cycles = s.cycles := rfl

@[simp] theorem returnFromException_mem (s : State) : (returnFromException s).mem = s.mem := rfl

@[simp] theorem returnFromException_events (s : State) : (returnFromException s).events = s.events := rfl

@[simp] theorem returnFromException_ioDraws (s : State) : (returnFromException s).ioDraws = s.ioDraws := rfl

@[simp] theorem returnFromException_params (s : State) : (returnFromException s).params = s.params := rfl

/-! ## record -/

@[simp] theorem record_xu (s : State) (e : Event) : (s.record e).xu = s.xu := rfl

@[simp] theorem record_xk (s : State) (e : Event) : (s.record e).xk = s.xk := rfl

@[simp] theorem record_linkU (s : State) (e : Event) : (s.record e).linkU = s.linkU := rfl

@[simp] theorem record_linkK (s : State) (e : Event) : (s.record e).linkK = s.linkK := rfl

@[simp] theorem record_mmuU (s : State) (e : Event) : (s.record e).mmuU = s.mmuU := rfl

@[simp] theorem record_mmuK (s : State) (e : Event) : (s.record e).mmuK = s.mmuK := rfl

@[simp] theorem record_irr (s : State) (e : Event) : (s.record e).irr = s.irr := rfl

@[simp] theorem record_icr (s : State) (e : Event) : (s.record e).icr = s.icr := rfl

@[simp] theorem record_imr (s : State) (e : Event) : (s.record e).imr = s.imr := rfl

@[simp] theorem record_pc (s : State) (e : Event) : (s.record e).pc = s.pc := rfl

@[simp] theorem record_mode (s : State) (e : Event) : (s.record e).mode = s.mode := rfl

@[simp] theorem record_en (s : State) (e : Event) : (s.record e).en = s.en := rfl

@[simp] theorem record_hc (s : State) (e : Event) : (s.record e).hc = s.hc := rfl

@[simp] theorem record_ex (s : State) (e : Event) : (s.record e).ex = s.ex := rfl

@[simp] theorem record_run (s : State) (e : Event) : (s.record e).run = s.run := rfl

@[simp] theorem record_haltReason (s : State) (e : Event) : (s.record e).haltReason = s.haltReason := rfl

@[simp] theorem record_cycles (s : State) (e : Event) : (s.record e).cycles = s.cycles := rfl

@[simp] theorem record_mem (s : State) (e : Event) : (s.record e).mem = s.mem := rfl

@[simp] theorem record_events (s : State) (e : Event) : (s.record e).events = s.events ++ [e] := rfl

@[simp] theorem record_ioDraws (s : State) (e : Event) : (s.record e).ioDraws = s.ioDraws := rfl

@[simp] theorem record_params (s : State) (e : Event) : (s.record e).params = s.params := rfl

/-! ## ioRead -/

@[simp] theorem ioRead_xu (s : State) (slot : Nat) : (ioRead s slot).xu = s.xu := rfl

@[simp] theorem ioRead_xk (s : State) (slot : Nat) : (ioRead s slot).xk = s.xk := rfl

@[simp] theorem ioRead_linkU (s : State) (slot : Nat) : (ioRead s slot).linkU = s.linkU := rfl

@[simp] theorem ioRead_linkK (s : State) (slot : Nat) : (ioRead s slot).linkK = s.linkK := rfl

@[simp] theorem ioRead_mmuU (s : State) (slot : Nat) : (ioRead s slot).mmuU = s.mmuU := rfl

@[simp] theorem ioRead_mmuK (s : State) (slot : Nat) : (ioRead s slot).mmuK = s.mmuK := rfl

@[simp] theorem ioRead_irr (s : State) (slot : Nat) : (ioRead s slot).irr = s.irr := rfl

@[simp] theorem ioRead_icr (s : State) (slot : Nat) : (ioRead s slot).icr = s.icr := rfl

@[simp] theorem ioRead_imr (s : State) (slot : Nat) : (ioRead s slot).imr = s.imr := rfl

@[simp] theorem ioRead_pc (s : State) (slot : Nat) : (ioRead s slot).pc = s.pc := rfl

@[simp] theorem ioRead_mode (s : State) (slot : Nat) : (ioRead s slot).mode = s.mode := rfl

@[simp] theorem ioRead_en (s : State) (slot : Nat) : (ioRead s slot).en = s.en := rfl

@[simp] theorem ioRead_hc (s : State) (slot : Nat) : (ioRead s slot).hc = s.hc := rfl

@[simp] theorem ioRead_ex (s : State) (slot : Nat) : (ioRead s slot).ex = s.ex := rfl

@[simp] theorem ioRead_run (s : State) (slot : Nat) : (ioRead s slot).run = s.run := rfl

@[simp] theorem ioRead_haltReason (s : State) (slot : Nat) : (ioRead s slot).haltReason = s.haltReason := rfl

@[simp] theorem ioRead_cycles (s : State) (slot : Nat) : (ioRead s slot).cycles = s.cycles := rfl

@[simp] theorem ioRead_mem (s : State) (slot : Nat) : (ioRead s slot).mem = s.mem := rfl

@[simp] theorem ioRead_events (s : State) (slot : Nat) : (ioRead s slot).events = s.events ++ [.ioRead slot (ioAnswer s slot)] := rfl

@[simp] theorem ioRead_ioDraws (s : State) (slot : Nat) : (ioRead s slot).ioDraws = s.ioDraws + 1 := rfl

@[simp] theorem ioRead_params (s : State) (slot : Nat) : (ioRead s slot).params = s.params := rfl

/-! ## ioWrite -/

@[simp] theorem ioWrite_xu (s : State) (slot : Nat) (v : Word) : (ioWrite s slot v).xu = s.xu := rfl

@[simp] theorem ioWrite_xk (s : State) (slot : Nat) (v : Word) : (ioWrite s slot v).xk = s.xk := rfl

@[simp] theorem ioWrite_linkU (s : State) (slot : Nat) (v : Word) : (ioWrite s slot v).linkU = s.linkU := rfl

@[simp] theorem ioWrite_linkK (s : State) (slot : Nat) (v : Word) : (ioWrite s slot v).linkK = s.linkK := rfl

@[simp] theorem ioWrite_mmuU (s : State) (slot : Nat) (v : Word) : (ioWrite s slot v).mmuU = s.mmuU := rfl

@[simp] theorem ioWrite_mmuK (s : State) (slot : Nat) (v : Word) : (ioWrite s slot v).mmuK = s.mmuK := rfl

@[simp] theorem ioWrite_irr (s : State) (slot : Nat) (v : Word) : (ioWrite s slot v).irr = s.irr := rfl

@[simp] theorem ioWrite_icr (s : State) (slot : Nat) (v : Word) : (ioWrite s slot v).icr = s.icr := rfl

@[simp] theorem ioWrite_imr (s : State) (slot : Nat) (v : Word) : (ioWrite s slot v).imr = s.imr := rfl

@[simp] theorem ioWrite_pc (s : State) (slot : Nat) (v : Word) : (ioWrite s slot v).pc = s.pc := rfl

@[simp] theorem ioWrite_mode (s : State) (slot : Nat) (v : Word) : (ioWrite s slot v).mode = s.mode := rfl

@[simp] theorem ioWrite_en (s : State) (slot : Nat) (v : Word) : (ioWrite s slot v).en = s.en := rfl

@[simp] theorem ioWrite_hc (s : State) (slot : Nat) (v : Word) : (ioWrite s slot v).hc = s.hc := rfl

@[simp] theorem ioWrite_ex (s : State) (slot : Nat) (v : Word) : (ioWrite s slot v).ex = s.ex := rfl

@[simp] theorem ioWrite_run (s : State) (slot : Nat) (v : Word) : (ioWrite s slot v).run = s.run := rfl

@[simp] theorem ioWrite_haltReason (s : State) (slot : Nat) (v : Word) : (ioWrite s slot v).haltReason = s.haltReason := rfl

@[simp] theorem ioWrite_cycles (s : State) (slot : Nat) (v : Word) : (ioWrite s slot v).cycles = s.cycles := rfl

@[simp] theorem ioWrite_mem (s : State) (slot : Nat) (v : Word) : (ioWrite s slot v).mem = s.mem := rfl

@[simp] theorem ioWrite_events (s : State) (slot : Nat) (v : Word) : (ioWrite s slot v).events = s.events ++ [.ioWrite slot v] := rfl

@[simp] theorem ioWrite_ioDraws (s : State) (slot : Nat) (v : Word) : (ioWrite s slot v).ioDraws = s.ioDraws := rfl

@[simp] theorem ioWrite_params (s : State) (slot : Nat) (v : Word) : (ioWrite s slot v).params = s.params := rfl

/-! ## jumpTo -/

@[simp] theorem jumpTo_xu (target : Word) (s : State) : (jumpTo target s).xu = s.xu := rfl

@[simp] theorem jumpTo_xk (target : Word) (s : State) : (jumpTo target s).xk = s.xk := rfl

@[simp] theorem jumpTo_linkU (target : Word) (s : State) : (jumpTo target s).linkU = s.linkU := rfl

@[simp] theorem jumpTo_linkK (target : Word) (s : State) : (jumpTo target s).linkK = s.linkK := rfl

@[simp] theorem jumpTo_mmuU (target : Word) (s : State) : (jumpTo target s).mmuU = s.mmuU := rfl

@[simp] theorem jumpTo_mmuK (target : Word) (s : State) : (jumpTo target s).mmuK = s.mmuK := rfl

@[simp] theorem jumpTo_irr (target : Word) (s : State) : (jumpTo target s).irr = s.irr := rfl

@[simp] theorem jumpTo_icr (target : Word) (s : State) : (jumpTo target s).icr = s.icr := rfl

@[simp] theorem jumpTo_imr (target : Word) (s : State) : (jumpTo target s).imr = s.imr := rfl

@[simp] theorem jumpTo_pc (target : Word) (s : State) : (jumpTo target s).pc = target := rfl

@[simp] theorem jumpTo_mode (target : Word) (s : State) : (jumpTo target s).mode = s.mode := rfl

@[simp] theorem jumpTo_en (target : Word) (s : State) : (jumpTo target s).en = s.en := rfl

@[simp] theorem jumpTo_hc (target : Word) (s : State) : (jumpTo target s).hc = s.hc := rfl

@[simp] theorem jumpTo_ex (target : Word) (s : State) : (jumpTo target s).ex = s.ex := rfl

@[simp] theorem jumpTo_run (target : Word) (s : State) : (jumpTo target s).run = s.run := rfl

@[simp] theorem jumpTo_haltReason (target : Word) (s : State) : (jumpTo target s).haltReason = s.haltReason := rfl

@[simp] theorem jumpTo_cycles (target : Word) (s : State) : (jumpTo target s).cycles = s.cycles := rfl

@[simp] theorem jumpTo_mem (target : Word) (s : State) : (jumpTo target s).mem = s.mem := rfl

@[simp] theorem jumpTo_events (target : Word) (s : State) : (jumpTo target s).events = s.events := rfl

@[simp] theorem jumpTo_ioDraws (target : Word) (s : State) : (jumpTo target s).ioDraws = s.ioDraws := rfl

@[simp] theorem jumpTo_params (target : Word) (s : State) : (jumpTo target s).params = s.params := rfl

/-! ## advancePc -/

@[simp] theorem advancePc_xu (s : State) : (advancePc s).xu = s.xu := rfl

@[simp] theorem advancePc_xk (s : State) : (advancePc s).xk = s.xk := rfl

@[simp] theorem advancePc_linkU (s : State) : (advancePc s).linkU = s.linkU := rfl

@[simp] theorem advancePc_linkK (s : State) : (advancePc s).linkK = s.linkK := rfl

@[simp] theorem advancePc_mmuU (s : State) : (advancePc s).mmuU = s.mmuU := rfl

@[simp] theorem advancePc_mmuK (s : State) : (advancePc s).mmuK = s.mmuK := rfl

@[simp] theorem advancePc_irr (s : State) : (advancePc s).irr = s.irr := rfl

@[simp] theorem advancePc_icr (s : State) : (advancePc s).icr = s.icr := rfl

@[simp] theorem advancePc_imr (s : State) : (advancePc s).imr = s.imr := rfl

@[simp] theorem advancePc_pc (s : State) : (advancePc s).pc = s.pc + 1 := rfl

@[simp] theorem advancePc_mode (s : State) : (advancePc s).mode = s.mode := rfl

@[simp] theorem advancePc_en (s : State) : (advancePc s).en = s.en := rfl

@[simp] theorem advancePc_hc (s : State) : (advancePc s).hc = s.hc := rfl

@[simp] theorem advancePc_ex (s : State) : (advancePc s).ex = s.ex := rfl

@[simp] theorem advancePc_run (s : State) : (advancePc s).run = s.run := rfl

@[simp] theorem advancePc_haltReason (s : State) : (advancePc s).haltReason = s.haltReason := rfl

@[simp] theorem advancePc_cycles (s : State) : (advancePc s).cycles = s.cycles := rfl

@[simp] theorem advancePc_mem (s : State) : (advancePc s).mem = s.mem := rfl

@[simp] theorem advancePc_events (s : State) : (advancePc s).events = s.events := rfl

@[simp] theorem advancePc_ioDraws (s : State) : (advancePc s).ioDraws = s.ioDraws := rfl

@[simp] theorem advancePc_params (s : State) : (advancePc s).params = s.params := rfl

/-! ## endCycle -/

@[simp] theorem endCycle_xu (before s : State) : (endCycle before s).xu = s.xu := rfl

@[simp] theorem endCycle_xk (before s : State) : (endCycle before s).xk = s.xk := rfl

@[simp] theorem endCycle_linkU (before s : State) : (endCycle before s).linkU = s.linkU := rfl

@[simp] theorem endCycle_linkK (before s : State) : (endCycle before s).linkK = s.linkK := rfl

@[simp] theorem endCycle_mmuU (before s : State) : (endCycle before s).mmuU = s.mmuU := rfl

@[simp] theorem endCycle_mmuK (before s : State) : (endCycle before s).mmuK = s.mmuK := rfl

@[simp] theorem endCycle_irr (before s : State) : (endCycle before s).irr = s.irr := rfl

@[simp] theorem endCycle_icr (before s : State) : (endCycle before s).icr = s.icr := rfl

@[simp] theorem endCycle_imr (before s : State) : (endCycle before s).imr = s.imr := rfl

@[simp] theorem endCycle_pc (before s : State) : (endCycle before s).pc = s.pc := rfl

@[simp] theorem endCycle_mode (before s : State) : (endCycle before s).mode = s.mode := rfl

@[simp] theorem endCycle_en (before s : State) : (endCycle before s).en = s.en := rfl

@[simp] theorem endCycle_hc (before s : State) : (endCycle before s).hc = s.hc := rfl

@[simp] theorem endCycle_ex (before s : State) : (endCycle before s).ex = exAtEnd before s := rfl

@[simp] theorem endCycle_run (before s : State) : (endCycle before s).run = s.run := rfl

@[simp] theorem endCycle_haltReason (before s : State) : (endCycle before s).haltReason = s.haltReason := rfl

@[simp] theorem endCycle_cycles (before s : State) : (endCycle before s).cycles = s.cycles + 1 := rfl

@[simp] theorem endCycle_mem (before s : State) : (endCycle before s).mem = s.mem := rfl

@[simp] theorem endCycle_events (before s : State) : (endCycle before s).events = s.events := rfl

@[simp] theorem endCycle_ioDraws (before s : State) : (endCycle before s).ioDraws = s.ioDraws := rfl

@[simp] theorem endCycle_params (before s : State) : (endCycle before s).params = s.params := rfl

/-! ## exAtEnd -/

/-- A cycle that stops nothing leaves `ex` as raise or delivery left it. -/
theorem exAtEnd_running {s : State} (h : s.run = true) (before : State) : exAtEnd before s = s.ex := by
  simp [exAtEnd, h]

/-- So does a cycle that ends in `hlt`. -/
theorem exAtEnd_halted {s : State} (h : s.haltReason = some .hlt) (before : State) : exAtEnd before s = s.ex := by
  cases hr : s.run <;> simp [exAtEnd, h, hr]

/-- A double fault leaves `ex` as it was before the cycle (40_machine_cycle.md R176). -/
theorem exAtEnd_doubleFault {s : State} {c : ExCode} (h : s.doubleFaulted c) (before : State) :
    exAtEnd before s = before.ex := by
  simp [exAtEnd, h.1, h.2]

/-- Everything `ex` can hold at the end of a cycle. -/
theorem exAtEnd_cases (before s : State) :
    ((∀ c, ¬s.doubleFaulted c) ∧ exAtEnd before s = s.ex) ∨
      ∃ c, s.doubleFaulted c ∧ exAtEnd before s = before.ex := by
  cases hr : s.run with
  | true => exact .inl ⟨by simp [State.doubleFaulted, hr], exAtEnd_running hr before⟩
  | false =>
    rcases hh : s.haltReason with _ | _ | c
    · exact .inl ⟨by simp [State.doubleFaulted, hh], by simp [exAtEnd, hr, hh]⟩
    · exact .inl ⟨by simp [State.doubleFaulted, hh], exAtEnd_halted hh before⟩
    · exact .inr ⟨c, ⟨hr, hh⟩, exAtEnd_doubleFault ⟨hr, hh⟩ before⟩

/-! ## The registers, Link and MMU entries by mode -/

/-- A general register after a register write (10_state.md R21). -/
theorem gprRead_gprWrite (f : Vector Word 8) (r r' : Reg) (v : Word) :
    gprRead (gprWrite f r v) r' = if r' = r ∧ r ≠ 0 then v else gprRead f r' := by
  have h : r = r' ↔ r.val = r'.val := Fin.ext_iff
  by_cases h0 : r' = 0 <;> by_cases h1 : r = 0 <;> by_cases h2 : r = r' <;>
    simp_all [gprRead, gprWrite, eq_comm]

theorem reg_setReg (s : State) (m m' : Mode) (r r' : Reg) (v : Word) :
    (s.setReg m r v).reg m' r' = if m' = m ∧ r' = r ∧ r ≠ 0 then v else s.reg m' r' := by
  cases m <;> cases m' <;> simp [State.reg, gprRead_gprWrite]

theorem reg_setX (s : State) (m : Mode) (r r' : Reg) (v : Word) :
    (s.setX r v).reg m r' = if m = s.mode ∧ r' = r ∧ r ≠ 0 then v else s.reg m r' := by
  simp only [State.setX, reg_setReg]

@[simp] theorem reg_zero (s : State) (m : Mode) : s.reg m 0 = 0 := by
  cases m <;> simp [State.reg, gprRead]

@[simp] theorem x_zero (s : State) : s.x 0 = 0 := reg_zero s s.mode

@[simp] theorem setReg_zero (s : State) (m : Mode) (v : Word) : s.setReg m 0 v = s := by
  cases m <;> simp [State.setReg, gprWrite]

@[simp] theorem setX_zero (s : State) (v : Word) : s.setX 0 v = s := setReg_zero s s.mode v

@[simp] theorem link_setX (s : State) (m : Mode) (r : Reg) (v : Word) : (s.setX r v).link m = s.link m := by
  cases m <;> simp [State.link]

@[simp] theorem mmu_setX (s : State) (m : Mode) (k : Fin 32) (r : Reg) (v : Word) :
    (s.setX r v).mmu m k = s.mmu m k := by
  cases m <;> simp [State.mmu]

theorem link_setLink (s : State) (m m' : Mode) (v : Word) :
    (s.setLink m v).link m' = if m' = m then v else s.link m' := by
  cases m <;> cases m' <;> simp [State.link]

theorem mmu_setMmu (s : State) (m m' : Mode) (k k' : Fin 32) (v : Word) :
    (s.setMmu m k v).mmu m' k' = if m' = m ∧ k' = k then v else s.mmu m' k' := by
  have h : k' = k ↔ k.val = k'.val := by rw [eq_comm]; exact Fin.ext_iff
  cases m <;> cases m' <;> simp [State.mmu, Vector.getElem_set, h]

/-- Reads through the file of a mode see only that file. -/
theorem reg_congr {s t : State} (hu : t.xu = s.xu) (hk : t.xk = s.xk) (m : Mode) (r : Reg) : t.reg m r = s.reg m r := by
  cases m <;> simp [State.reg, hu, hk]

theorem link_congr {s t : State} (hu : t.linkU = s.linkU) (hk : t.linkK = s.linkK) (m : Mode) : t.link m = s.link m := by
  cases m <;> simp [State.link, hu, hk]

theorem mmu_congr {s t : State} (hu : t.mmuU = s.mmuU) (hk : t.mmuK = s.mmuK) (m : Mode) (k : Fin 32) :
    t.mmu m k = s.mmu m k := by
  cases m <;> simp [State.mmu, hu, hk]

end Sys2Proof.Machine
end

