-- ==== Sys2Proof/Laws/Ops.lean ====
section
/-! SUPPORT. One lemma per shared operation that says once everything it can do: its cases, each with the state it leaves. A
proof cites these and unfolds no operation. -/

namespace Sys2Proof.Machine

/-! ## Exceptions -/

theorem raise_enabled {s : State} (h : s.en = true) (c : ExCode) : raise c s = { s with ex := c } := by
  simp [raise, h]

theorem raise_disabled {s : State} (h : s.en = false) (c : ExCode) :
    raise c s = { s with run := false, haltReason := some (.doubleFault c) } := by
  simp [raise, h]

theorem privileged_user {s : State} (h : s.mode = .user) (f : State → State) : privileged f s = raise exIllegal s := by
  simp [privileged, h]

theorem privileged_kernel {s : State} (h : s.mode = .kernel) (f : State → State) : privileged f s = f s := by
  simp [privileged, h]

/-- Everything a privileged effect can do. -/
theorem privileged_cases (f : State → State) (s : State) :
    (s.mode = .user ∧ privileged f s = raise exIllegal s) ∨ (s.mode = .kernel ∧ privileged f s = f s) := by
  cases h : s.mode
  · exact .inl ⟨rfl, privileged_user h f⟩
  · exact .inr ⟨rfl, privileged_kernel h f⟩

theorem deliverPending_none {s : State} (h : s.ex = 0) : deliverPending s = s := if_pos h

theorem deliverPending_some {s : State} (h : s.ex ≠ 0) : deliverPending s = deliver s := if_neg h

/-- After the delivery test nothing is pending. -/
@[simp] theorem deliverPending_ex (s : State) : (deliverPending s).ex = 0 := by
  by_cases h : s.ex = 0
  · rw [deliverPending_none h, h]
  · rw [deliverPending_some h, deliver_ex]

/-! ## Translation -/

/-- What a data translation answers: the word and lane of the byte address, below PHYS_WORDS. -/
theorem translateData_some {s : State} {va : Word} {wi : Nat} {lane : Bool} (h : translateData s va = some (wi, lane)) :
    wi < s.params.physWords ∧ dataByteAddr s va = 2 * wi + lane.toNat := by
  unfold translateData at h
  split at h
  · next hlt =>
    obtain ⟨rfl, rfl⟩ := Prod.mk.inj (Option.some.inj h)
    refine ⟨hlt, ?_⟩
    rcases Nat.mod_two_eq_zero_or_one (dataByteAddr s va) with h0 | h1
    · simp [h0]; omega
    · simp [h1]; omega
  · cases h

/-- What a code translation answers. -/
theorem translateCode_some {s : State} {va : Word} {pa : Nat} (h : translateCode s va = some pa) :
    pa < s.params.physWords ∧ pa = codeWordAddr s va := by
  unfold translateCode at h
  split at h
  · next hlt =>
    obtain rfl := Option.some.inj h
    exact ⟨hlt, rfl⟩
  · cases h

/-- A data translation depends on the MMU entries of the mode and on the parameters alone. -/
theorem translateData_congr {s t : State} (hm : t.mode = s.mode) (hp : t.params = s.params)
    (hu : t.mmuU = s.mmuU) (hk : t.mmuK = s.mmuK) (va : Word) : translateData t va = translateData s va := by
  unfold translateData dataByteAddr
  rw [hm, hp, mmu_congr hu hk]

/-- So does a code translation. -/
theorem translateCode_congr {s t : State} (hm : t.mode = s.mode) (hp : t.params = s.params)
    (hu : t.mmuU = s.mmuU) (hk : t.mmuK = s.mmuK) (va : Word) : translateCode t va = translateCode s va := by
  unfold translateCode codeWordAddr
  rw [hm, hp, mmu_congr hu hk]

/-! ## Data access -/

/-- What a data write answers: the same state with one word or one byte of memory written. -/
theorem memWrite_some {s t : State} {addr v : Word} {w : Width} (h : memWrite s addr w v = some t) :
    ∃ wi lane, translateData s addr = some (wi, lane) ∧
      t = { s with mem := match w with
        | .word => physWrite s.mem wi v
        | .byte => s.mem.write (2 * wi + lane.toNat) (loByte v) } := by
  unfold memWrite at h
  cases ht : translateData s addr with
  | none => simp [ht] at h
  | some p =>
    refine ⟨p.1, p.2, rfl, ?_⟩
    rw [ht] at h
    cases w <;> exact (Option.some.inj h).symm

/-- Everything a load can do: ExMemory, or the register write. -/
theorem load_cases (w : Width) (rA : Reg) (addr : Word) (s : State) :
    (translateData s addr = none ∧ load w rA addr s = raise exMemory s) ∨
      ∃ wi lane, translateData s addr = some (wi, lane) ∧
        load w rA addr s = s.setX rA (match w with
          | .word => physRead s.mem wi
          | .byte => (if lane then hiByte (physRead s.mem wi) else loByte (physRead s.mem wi)).setWidth 16) := by
  unfold load memRead
  cases translateData s addr with
  | none => exact .inl ⟨rfl, rfl⟩
  | some p => exact .inr ⟨p.1, p.2, rfl, by cases w <;> rfl⟩

/-- Everything a store can do: ExMemory, or the memory write. -/
theorem store_cases (w : Width) (addr v : Word) (s : State) :
    (translateData s addr = none ∧ store w addr v s = raise exMemory s) ∨
      ∃ wi lane, translateData s addr = some (wi, lane) ∧
        store w addr v s = { s with mem := match w with
          | .word => physWrite s.mem wi v
          | .byte => s.mem.write (2 * wi + lane.toNat) (loByte v) } := by
  unfold store memWrite
  cases translateData s addr with
  | none => exact .inl ⟨rfl, rfl⟩
  | some p => exact .inr ⟨p.1, p.2, rfl, by cases w <;> rfl⟩

/-! ## Special registers -/

/-- Everything an SPR write can do (45_yop.md R302). -/
theorem sprWrite_cases {s t : State} {n : BitVec 6} {v : Word} (h : sprWrite s n v = some t) :
    (sprOf n = .link ∧ t = s.setLink s.mode v) ∨
      (s.mode = .kernel ∧
        ((sprOf n = .irr ∧ t = { s with irr := v }) ∨ (sprOf n = .icr ∧ t = { s with icr := v }) ∨
          (sprOf n = .imr ∧ t = { s with imr := v }) ∨
          (∃ r, sprOf n = .userReg r ∧ t = s.setReg .user r v) ∨
          (sprOf n = .userLink ∧ t = s.setLink .user v) ∨
          ∃ k, sprOf n = .mmu k ∧ t = s.setMmu .kernel k v)) := by
  unfold sprWrite at h
  split at h <;> cases h
  · next h1 => exact .inl ⟨h1, rfl⟩
  · next h1 h2 => exact .inr ⟨h2, .inl ⟨h1, rfl⟩⟩
  · next h1 h2 => exact .inr ⟨h2, .inr (.inl ⟨h1, rfl⟩)⟩
  · next h1 h2 => exact .inr ⟨h2, .inr (.inr (.inl ⟨h1, rfl⟩))⟩
  · next h1 h2 => exact .inr ⟨h2, .inr (.inr (.inr (.inl ⟨_, h1, rfl⟩)))⟩
  · next h1 h2 => exact .inr ⟨h2, .inr (.inr (.inr (.inr (.inl ⟨h1, rfl⟩))))⟩
  · next h1 h2 => exact .inr ⟨h2, .inr (.inr (.inr (.inr (.inr ⟨_, h1, rfl⟩))))⟩

/-! ## The cycle -/

/-- Everything the fetch stage can do (40_machine_cycle.md R161 to R163). -/
theorem fetch_cases (s : State) :
    (translateCode (deliverPending s) (deliverPending s).pc = none ∧
        fetch s = .ended (raise exMemory (advancePc (deliverPending s)))) ∨
      (∃ pa, translateCode (deliverPending s) (deliverPending s).pc = some pa ∧ (deliverPending s).pc + 1 = 0 ∧
        fetch s = .ended (raise exMachine (advancePc (deliverPending s)))) ∨
      ∃ pa, translateCode (deliverPending s) (deliverPending s).pc = some pa ∧ (deliverPending s).pc + 1 ≠ 0 ∧
        fetch s = .word (physRead (deliverPending s).mem pa) (advancePc (deliverPending s)) := by
  unfold fetch fetchAt
  cases translateCode (deliverPending s) (deliverPending s).pc with
  | none => exact .inl ⟨rfl, rfl⟩
  | some pa =>
    by_cases h0 : (deliverPending s).pc + 1 = 0
    · exact .inr (.inl ⟨pa, rfl, h0, if_pos h0⟩)
    · exact .inr (.inr ⟨pa, rfl, h0, if_neg h0⟩)

/-- Everything a step that answers a next state can do (40_machine_cycle.md R161). -/
theorem step_cases {s t : State} (h : step s = .next t) :
    s.run = true ∧
      ((∃ u, fetch s = .ended u ∧ t = endCycle s u) ∨
        ∃ ir u v, fetch s = .word ir u ∧ exec (decodeWord ir) u = .next v ∧ t = endCycle s v) := by
  unfold step at h
  split at h
  · next hr =>
    refine ⟨hr, ?_⟩
    split at h
    · next u hf => exact .inl ⟨u, hf, (Host.Outcome.next.inj h).symm⟩
    · next ir u hf =>
      split at h
      · next v hv => exact .inr ⟨ir, u, v, hf, hv, (Host.Outcome.next.inj h).symm⟩
      · cases h
      · cases h
  · cases h

end Sys2Proof.Machine
end

