-- ==== Sys2Proof/Laws/PerInstr.lean ====
section
/-! SUPPORT. The family of per-instruction lemmas `RowRecognises`: the word an instruction encodes to lies in its own row of
the opcode table (30_encoding.md R105, R110, R126), whatever its operands. -/

namespace Sys2Proof.Laws.RowRecognises

/-- The encoded word is recognised by a row of the table that bears the instruction's mnemonic. -/
def Statement (i : Instr) : Prop := ∃ r ∈ opcodeTable, r.mnemonic = i.mnemonic ∧ r.recognises (encode i) = true

/-! ## One lemma per format -/

theorem rri_recognised {m : Mnemonic} {opcode : Word} {op : BitVec 3} (rA rB : Reg) (imm : Int) (h : opcode.toNat = op.toNat * 8192) :
    (⟨m, opcode, 3⟩ : OpcodeRow).recognises (encodeRri op rA rB imm) = true := by
  have := rA.isLt; have := rB.isLt; have := (BitVec.ofInt 7 imm).isLt
  rw [recognises_iff, encodeRri_toNat]
  simp only [h]
  omega

theorem rjx_recognised {m : Mnemonic} {opcode : Word} (rA : Reg) (imm : Nat) (h : opcode.toNat = 49152) :
    (⟨m, opcode, 3⟩ : OpcodeRow).recognises (encodeRjx rA imm) = true := by
  have := rA.isLt
  rw [recognises_iff, encodeRjx_toNat]
  simp only [h]
  omega

theorem jlr_recognised {m : Mnemonic} {opcode : Word} (j : Nat) (rB : Reg) (imm : Int) (h : opcode.toNat = 57344) :
    (⟨m, opcode, 4⟩ : OpcodeRow).recognises (encodeJlr j rB imm) = true := by
  have := rB.isLt; have := (BitVec.ofInt 6 imm).isLt
  rw [recognises_iff, encodeJlr_toNat]
  simp only [h]
  omega

theorem rrr_recognised {m : Mnemonic} {opcode : Word} {xop : BitVec 3} (rA rB rC : Reg) (h : opcode.toNat = 61440 + xop.toNat * 512) :
    (⟨m, opcode, 7⟩ : OpcodeRow).recognises (encodeRrr xop rA rB rC) = true := by
  have := rA.isLt; have := rB.isLt; have := rC.isLt
  rw [recognises_iff, encodeRrr_toNat]
  simp only [h]
  omega

theorem rrx_recognised {m : Mnemonic} {opcode : Word} {yop : BitVec 3} (rA rB : Reg) (h : opcode.toNat = 65024 + yop.toNat * 64) :
    (⟨m, opcode, 10⟩ : OpcodeRow).recognises (encodeRrx yop rA rB) = true := by
  have := rA.isLt; have := rB.isLt
  rw [recognises_iff, encodeRrx_toNat]
  simp only [h]
  omega

theorem rxx_recognised {m : Mnemonic} {opcode : Word} {zop : BitVec 3} (rA : Reg) (h : opcode.toNat = 65472 + zop.toNat * 8) :
    (⟨m, opcode, 13⟩ : OpcodeRow).recognises (encodeRxx zop rA) = true := by
  have := rA.isLt
  rw [recognises_iff, encodeRxx_toNat]
  simp only [h]
  omega

/-! ## One lemma per instruction -/

theorem ldw (rA rB : Reg) (imm : Int) : Statement (.ldw rA rB imm) :=
  ⟨⟨.ldw, 0x0000, 3⟩, by decide, rfl, rri_recognised rA rB imm (by decide)⟩

theorem ldb (rA rB : Reg) (imm : Int) : Statement (.ldb rA rB imm) :=
  ⟨⟨.ldb, 0x2000, 3⟩, by decide, rfl, rri_recognised rA rB imm (by decide)⟩

theorem stw (rA rB : Reg) (imm : Int) : Statement (.stw rA rB imm) :=
  ⟨⟨.stw, 0x4000, 3⟩, by decide, rfl, rri_recognised rA rB imm (by decide)⟩

theorem stb (rA rB : Reg) (imm : Int) : Statement (.stb rA rB imm) :=
  ⟨⟨.stb, 0x6000, 3⟩, by decide, rfl, rri_recognised rA rB imm (by decide)⟩

theorem beq (rA rB : Reg) (imm : Int) : Statement (.beq rA rB imm) :=
  ⟨⟨.beq, 0x8000, 3⟩, by decide, rfl, rri_recognised rA rB imm (by decide)⟩

theorem adi (rA rB : Reg) (imm : Int) : Statement (.adi rA rB imm) :=
  ⟨⟨.adi, 0xA000, 3⟩, by decide, rfl, rri_recognised rA rB imm (by decide)⟩

theorem lui (rA : Reg) (imm : Nat) : Statement (.lui rA imm) :=
  ⟨⟨.lui, 0xC000, 3⟩, by decide, rfl, rjx_recognised rA imm (by decide)⟩

theorem jlr (j : Nat) (rB : Reg) (imm : Int) : Statement (.jlr j rB imm) :=
  ⟨⟨.jlr, 0xE000, 4⟩, by decide, rfl, jlr_recognised j rB imm (by decide)⟩

theorem add (rA rB rC : Reg) : Statement (.add rA rB rC) :=
  ⟨⟨.add, 0xF000, 7⟩, by decide, rfl, rrr_recognised rA rB rC (by decide)⟩

theorem adc (rA rB rC : Reg) : Statement (.adc rA rB rC) :=
  ⟨⟨.adc, 0xF200, 7⟩, by decide, rfl, rrr_recognised rA rB rC (by decide)⟩

theorem sub (rA rB rC : Reg) : Statement (.sub rA rB rC) :=
  ⟨⟨.sub, 0xF400, 7⟩, by decide, rfl, rrr_recognised rA rB rC (by decide)⟩

theorem sbb (rA rB rC : Reg) : Statement (.sbb rA rB rC) :=
  ⟨⟨.sbb, 0xF600, 7⟩, by decide, rfl, rrr_recognised rA rB rC (by decide)⟩

theorem bic (rA rB rC : Reg) : Statement (.bic rA rB rC) :=
  ⟨⟨.bic, 0xF800, 7⟩, by decide, rfl, rrr_recognised rA rB rC (by decide)⟩

theorem bis (rA rB rC : Reg) : Statement (.bis rA rB rC) :=
  ⟨⟨.bis, 0xFA00, 7⟩, by decide, rfl, rrr_recognised rA rB rC (by decide)⟩

theorem xor (rA rB rC : Reg) : Statement (.xor rA rB rC) :=
  ⟨⟨.xor, 0xFC00, 7⟩, by decide, rfl, rrr_recognised rA rB rC (by decide)⟩

theorem lsp (rA rB : Reg) : Statement (.lsp rA rB) :=
  ⟨⟨.lsp, 0xFE00, 10⟩, by decide, rfl, rrx_recognised rA rB (by decide)⟩

theorem lio (rA rB : Reg) : Statement (.lio rA rB) :=
  ⟨⟨.lio, 0xFE40, 10⟩, by decide, rfl, rrx_recognised rA rB (by decide)⟩

theorem ssp (rA rB : Reg) : Statement (.ssp rA rB) :=
  ⟨⟨.ssp, 0xFE80, 10⟩, by decide, rfl, rrx_recognised rA rB (by decide)⟩

theorem sio (rA rB : Reg) : Statement (.sio rA rB) :=
  ⟨⟨.sio, 0xFEC0, 10⟩, by decide, rfl, rrx_recognised rA rB (by decide)⟩

theorem y04 (rA rB : Reg) : Statement (.y04 rA rB) :=
  ⟨⟨.y04, 0xFF00, 10⟩, by decide, rfl, rrx_recognised rA rB (by decide)⟩

theorem y05 (rA rB : Reg) : Statement (.y05 rA rB) :=
  ⟨⟨.y05, 0xFF40, 10⟩, by decide, rfl, rrx_recognised rA rB (by decide)⟩

theorem y06 (rA rB : Reg) : Statement (.y06 rA rB) :=
  ⟨⟨.y06, 0xFF80, 10⟩, by decide, rfl, rrx_recognised rA rB (by decide)⟩

theorem not (rA : Reg) : Statement (.not rA) :=
  ⟨⟨.not, 0xFFC0, 13⟩, by decide, rfl, rxx_recognised rA (by decide)⟩

theorem neg (rA : Reg) : Statement (.neg rA) :=
  ⟨⟨.neg, 0xFFC8, 13⟩, by decide, rfl, rxx_recognised rA (by decide)⟩

theorem sxt (rA : Reg) : Statement (.sxt rA) :=
  ⟨⟨.sxt, 0xFFD0, 13⟩, by decide, rfl, rxx_recognised rA (by decide)⟩

theorem swb (rA : Reg) : Statement (.swb rA) :=
  ⟨⟨.swb, 0xFFD8, 13⟩, by decide, rfl, rxx_recognised rA (by decide)⟩

theorem lsr (rA : Reg) : Statement (.lsr rA) :=
  ⟨⟨.lsr, 0xFFE0, 13⟩, by decide, rfl, rxx_recognised rA (by decide)⟩

theorem lsl (rA : Reg) : Statement (.lsl rA) :=
  ⟨⟨.lsl, 0xFFE8, 13⟩, by decide, rfl, rxx_recognised rA (by decide)⟩

theorem asr (rA : Reg) : Statement (.asr rA) :=
  ⟨⟨.asr, 0xFFF0, 13⟩, by decide, rfl, rxx_recognised rA (by decide)⟩

theorem rti : Statement .rti :=
  ⟨⟨.rti, 0xFFF8, 16⟩, by decide, rfl, by decide⟩

theorem rtl : Statement .rtl :=
  ⟨⟨.rtl, 0xFFF9, 16⟩, by decide, rfl, by decide⟩

theorem di : Statement .di :=
  ⟨⟨.di, 0xFFFA, 16⟩, by decide, rfl, by decide⟩

theorem ei : Statement .ei :=
  ⟨⟨.ei, 0xFFFB, 16⟩, by decide, rfl, by decide⟩

theorem hlt : Statement .hlt :=
  ⟨⟨.hlt, 0xFFFC, 16⟩, by decide, rfl, by decide⟩

theorem brk : Statement .brk :=
  ⟨⟨.brk, 0xFFFD, 16⟩, by decide, rfl, by decide⟩

theorem v06 : Statement .v06 :=
  ⟨⟨.v06, 0xFFFE, 16⟩, by decide, rfl, by decide⟩

theorem die : Statement .die :=
  ⟨⟨.die, 0xFFFF, 16⟩, by decide, rfl, by decide⟩

end Sys2Proof.Laws.RowRecognises
end

