-- ==== Sys2Proof/Tests/Slice0.lean ====
section
/-! SUPPORT. The model's own tests. Expected results are the spec's: words are written out from 30_encoding.md R110, single
steps from spec/95_test_vectors.md (the vector is named), and each statement of Certificates/Slice0/Obligations.lean that has
hypotheses has a witness that meets them, one per clause, at the edge of the clause's range. -/

namespace Sys2Proof.Tests

open Sys2Proof.Machine

/-! ## WellFormed refuses what no field can hold (30_encoding.md R125) -/

theorem test_wellFormed_refuses_imm7_above : Instr.wellFormed (.ldw 1 2 64) = false := by decide

theorem test_wellFormed_refuses_imm7_below : Instr.wellFormed (.adi 1 2 (-65)) = false := by decide

theorem test_wellFormed_refuses_ldb_above : Instr.wellFormed (.ldb 1 2 64) = false := by decide

theorem test_wellFormed_refuses_stw_below : Instr.wellFormed (.stw 1 2 (-65)) = false := by decide

theorem test_wellFormed_refuses_stb_above : Instr.wellFormed (.stb 1 2 64) = false := by decide

theorem test_wellFormed_refuses_beq_below : Instr.wellFormed (.beq 1 2 (-65)) = false := by decide

theorem test_wellFormed_refuses_imm10_above : Instr.wellFormed (.lui 1 1024) = false := by decide

theorem test_wellFormed_refuses_jlr_imm_above : Instr.wellFormed (.jlr 1 2 32) = false := by decide

theorem test_wellFormed_refuses_jlr_imm_below : Instr.wellFormed (.jlr 1 2 (-33)) = false := by decide

theorem test_wellFormed_refuses_jlr_subop_above : Instr.wellFormed (.jlr 8 2 0) = false := by decide

/-! ## Decoding: one word of every row, written bit by bit from its pattern (30_encoding.md R110) -/

/-- Fewer than two bytes are no instruction (R100). -/
theorem test_decode_refuses_truncated :
    decodeBytes [] = .error .truncated ∧ decodeBytes [0xFF] = .error .truncated := ⟨rfl, rfl⟩

/-- The byte at the lower address is bits 7..0, and bytes after the instruction are left (20_memory.md R62). -/
theorem test_decode_little_endian : decodeBytes [0xC3, 0xA1, 0x55] = .ok (.adi 3 0 7, [0x55]) := rfl

theorem test_decode_ldw : decodeTableWord 16 0b000_0000100_010_001 = some (.ldw 1 2 4) := rfl

theorem test_decode_ldb : decodeTableWord 16 0b001_1000000_111_110 = some (.ldb 6 7 (-64)) := rfl

theorem test_decode_stw : decodeTableWord 16 0b010_0111111_011_101 = some (.stw 5 3 63) := rfl

theorem test_decode_stb : decodeTableWord 16 0b011_1111111_100_001 = some (.stb 1 4 (-1)) := rfl

theorem test_decode_beq : decodeTableWord 16 0b100_1111111_001_010 = some (.beq 2 1 (-1)) := rfl

theorem test_decode_adi : decodeTableWord 16 0b101_0000111_000_011 = some (.adi 3 0 7) := rfl

theorem test_decode_lui : decodeTableWord 16 0b110_1111111110_001 = some (.lui 1 1022) := rfl

theorem test_decode_jlr : decodeTableWord 16 0b1110_100001_110_011 = some (.jlr 3 6 (-31)) := rfl

theorem test_decode_add : decodeTableWord 16 0b1111_000_011_010_001 = some (.add 1 2 3) := rfl

theorem test_decode_adc : decodeTableWord 16 0b1111_001_100_010_111 = some (.adc 7 2 4) := rfl

theorem test_decode_sub : decodeTableWord 16 0b1111_010_011_010_001 = some (.sub 1 2 3) := rfl

theorem test_decode_sbb : decodeTableWord 16 0b1111_011_001_110_000 = some (.sbb 0 6 1) := rfl

theorem test_decode_bic : decodeTableWord 16 0b1111_100_011_101_001 = some (.bic 1 5 3) := rfl

theorem test_decode_bis : decodeTableWord 16 0b1111_101_000_010_001 = some (.bis 1 2 0) := rfl

theorem test_decode_xor : decodeTableWord 16 0b1111_110_110_010_100 = some (.xor 4 2 6) := rfl

theorem test_decode_lsp : decodeTableWord 16 0b1111111_000_010_001 = some (.lsp 1 2) := rfl

theorem test_decode_lio : decodeTableWord 16 0b1111111_001_011_001 = some (.lio 1 3) := rfl

theorem test_decode_ssp : decodeTableWord 16 0b1111111_010_100_001 = some (.ssp 1 4) := rfl

theorem test_decode_sio : decodeTableWord 16 0b1111111_011_101_001 = some (.sio 1 5) := rfl

theorem test_decode_y04 : decodeTableWord 16 0b1111111_100_001_010 = some (.y04 2 1) := rfl

theorem test_decode_y05 : decodeTableWord 16 0b1111111_101_111_110 = some (.y05 6 7) := rfl

theorem test_decode_y06 : decodeTableWord 16 0b1111111_110_010_011 = some (.y06 3 2) := rfl

theorem test_decode_not : decodeTableWord 16 0b1111111111_000_001 = some (.not 1) := rfl

theorem test_decode_neg : decodeTableWord 16 0b1111111111_001_000 = some (.neg 0) := rfl

theorem test_decode_sxt : decodeTableWord 16 0b1111111111_010_011 = some (.sxt 3) := rfl

theorem test_decode_swb : decodeTableWord 16 0b1111111111_011_100 = some (.swb 4) := rfl

theorem test_decode_lsr : decodeTableWord 16 0b1111111111_100_101 = some (.lsr 5) := rfl

theorem test_decode_lsl : decodeTableWord 16 0b1111111111_101_110 = some (.lsl 6) := rfl

theorem test_decode_asr : decodeTableWord 16 0b1111111111_110_111 = some (.asr 7) := rfl

theorem test_decode_rti : decodeTableWord 16 0b1111111111111_000 = some (.rti) := rfl

theorem test_decode_rtl : decodeTableWord 16 0b1111111111111_001 = some (.rtl) := rfl

theorem test_decode_di : decodeTableWord 16 0b1111111111111_010 = some (.di) := rfl

theorem test_decode_ei : decodeTableWord 16 0b1111111111111_011 = some (.ei) := rfl

theorem test_decode_hlt : decodeTableWord 16 0b1111111111111_100 = some (.hlt) := rfl

theorem test_decode_brk : decodeTableWord 16 0b1111111111111_101 = some (.brk) := rfl

theorem test_decode_v06 : decodeTableWord 16 0b1111111111111_110 = some (.v06) := rfl

theorem test_decode_die : decodeTableWord 16 0b1111111111111_111 = some (.die) := rfl

/-! ## Single steps (spec/95_test_vectors.md sections 3 to 5) -/

/-- The vectors' start: kernel mode, `en` true, pc 0x0100, everything else as reset leaves it. -/
def start : State := { State.reset with en := true, pc := 0x100 }

/-- The same in user mode. -/
def userStart : State := { start with mode := .user }

/-- The state after one step that fetches the word `w`. -/
def after (s : State) (w : Nat) : State :=
  match step (s.withFetchWord 16 w) with
  | .next t => t
  | _ => s

/-- A memory of two words, each 0xBEEF. -/
def beef : Memory := ⟨[(0, 0xEF), (1, 0xBE), (2, 0xEF), (3, 0xBE)]⟩

/-- `start` over memory with 0xBEEF at physical word 0x80. -/
def beefAt80 : State := { start with mem := physWrite Memory.empty 0x80 0xBEEF }

theorem test_withFetchWord_runs_first : after State.reset 0xC009 = { State.reset.withFetchWord 16 0xC009 with
    xk := #v[0, 0x40, 0, 0, 0, 0, 0, 0], pc := 1, cycles := 1 } := by decide

theorem test_reset_memory_wf : State.reset.mem.wf := by decide

/-- From reset with nothing loaded the word 0x0000 is fetched: a double fault, and no step after it (R205, R420). -/
theorem test_reset_unloaded_stops :
    Sys2Proof.core.run 1 State.reset =
        .next { State.reset with pc := 1, run := false, haltReason := some (.doubleFault 32), cycles := 1 } ∧
      Sys2Proof.core.run 2 State.reset = .fault (.doubleFault 32) := ⟨rfl, rfl⟩

/-- 41_base_memory.md R200 -/
theorem test_ldw_example : (after ({ start with mem := physWrite Memory.empty 0x82 0xBEEF }.setX 2 0x100) 0x0111).x 1 = 0xBEEF := by decide

/-- R201, VM4 -/
theorem test_ldb_odd : (after (beefAt80.setX 2 0x100) 0x2051).x 1 = 0x00BE := by decide

/-- R201 -/
theorem test_ldb_even : (after (beefAt80.setX 2 0x100) 0x2011).x 1 = 0x00EF := by decide

/-- R202 -/
theorem test_stw_example : physRead (after ((start.setX 1 0x1234).setX 2 0x100) 0x4091).mem 0x81 = 0x1234 := by decide

/-- R203 -/
theorem test_stb_keeps_low : physRead (after ((beefAt80.setX 1 0x1234).setX 2 0x100) 0x6051).mem 0x80 = 0x34EF := by decide

/-- VB1 -/
theorem test_beq_taken : (after ((start.setX 1 7).setX 2 7) 0x8151).pc = 0x0106 := by decide

/-- VB5 -/
theorem test_beq_wraps : (after { start with pc := 0xFFF0 } 0x8FC0).pc = 0x0030 := by decide

/-- VB8 -/
theorem test_adi_negative : (after start 0xB011).x 1 = 0xFFC0 := by decide

/-- VB9 -/
theorem test_adi_wraps : (after (start.setX 2 0xFFFF) 0xAFD1).x 1 = 0x003E := by decide

/-- VB13 -/
theorem test_lui_clears_low : (after (start.setX 1 0x1234) 0xC009).x 1 = 0x0040 := by decide

/-- VJ16 -/
theorem test_jlr_sys_double_fault : (after { start with en := false } 0xE200).haltReason = some (.doubleFault 8) := by decide

/-- VJ8 -/
theorem test_jlr_call_negative : (after (start.setX 2 0x200) 0xE811).pc = 0x01E0 ∧ (after (start.setX 2 0x200) 0xE811).linkK = 0x0101 := by decide

/-- VX1 -/
theorem test_add_wraps : (after ((start.setX 2 0x7FFF).setX 3 1) 0xF0D1).x 1 = 0x8000 := by decide

/-- VX5 -/
theorem test_adc_carry_to_r0 : (after ((start.setX 2 0xFFFF).setX 3 1) 0xF2D0).hc = true := by decide

/-- VX3 -/
theorem test_adc_full : (after (({ start with hc := true }.setX 2 0xFFFF).setX 3 0xFFFF) 0xF2D1).x 1 = 0xFFFF := by decide

/-- VX6 -/
theorem test_sub_c_minus_b : (after (start.setX 2 1) 0xF4D1).x 1 = 0xFFFF := by decide

/-- VX7 -/
theorem test_sub_b_minus_c : (after ({ start with params := { Params.standard with subOrder := .bMinusC } }.setX 2 1) 0xF4D1).x 1 = 1 := by decide

/-- VX9 -/
theorem test_sbb_borrow_in : (after ({ start with hc := true }.setX 3 5) 0xF6D1).x 1 = 4 := by decide

/-- VX10 -/
theorem test_sbb_borrow_out : (after (({ start with hc := true }.setX 2 5).setX 3 5) 0xF6D1).hc = true := by decide

/-- VX12 -/
theorem test_bic_order : (after ((start.setX 2 0x00FF).setX 3 0xFFFF) 0xF8D1).x 1 = 0xFF00 := by decide

/-- VX14 -/
theorem test_bis_moves : (after (start.setX 2 0xABCD) 0xFA11).x 1 = 0xABCD := by decide

/-- R266 -/
theorem test_xor_example : (after ((start.setX 2 0x00FF).setX 3 0x0F0F) 0xFCD1).x 1 = 0x0FF0 := by decide

/-- VY4 -/
theorem test_lsp_cycle_high : (after ({ start with cycles := 0x12345 }.setX 2 7) 0xFE11).x 1 = 1 := by decide

/-- VY5 -/
theorem test_lsp_ignores_high_bits : (after ({ start with irr := 0x777 }.setX 2 0x42) 0xFE11).x 1 = 0x777 := by decide

/-- VY27 -/
theorem test_ssp_mmu_last : (after ((start.setX 1 0xF050).setX 2 63) 0xFE91).mmuK[31] = 0xF050 := by decide

/-- VY33 -/
theorem test_ssp_user_mmu_traps : (after ((userStart.setX 1 0x222).setX 2 32) 0xFE91).ex = 32 := by decide

/-- VY36 -/
theorem test_sio_slot : (after ((start.setX 1 0xAB).setX 2 0x47) 0xFED1).events = [.ioWrite 7 0xAB] := by decide

/-- VY38 -/
theorem test_y04_illegal : (after start 0xFF00).ex = 32 := by decide

/-- VY39 -/
theorem test_y05_illegal : (after userStart 0xFF7F).ex = 32 := by decide

/-- VY40 -/
theorem test_y06_illegal : (after start 0xFFBF).ex = 32 := by decide

/-- VZ1 -/
theorem test_not_zero : (after start 0xFFC1).x 1 = 0xFFFF := by decide

/-- VZ2 -/
theorem test_neg_most_negative : (after (start.setX 1 0x8000) 0xFFC9).x 1 = 0x8000 := by decide

/-- VZ5 -/
theorem test_sxt_negative : (after (start.setX 1 0x1280) 0xFFD1).x 1 = 0xFF80 := by decide

/-- R323 -/
theorem test_swb_example : (after (start.setX 1 0x1234) 0xFFD9).x 1 = 0x3412 := by decide

/-- VZ7 -/
theorem test_lsr_shifts_out : (after (start.setX 1 1) 0xFFE1).hc = true := by decide

/-- VZ14 -/
theorem test_lsr_r0_clears_hc : (after { start with hc := true } 0xFFE0).hc = false := by decide

/-- VZ9 -/
theorem test_lsl_shifts_out : (after (start.setX 1 0x8000) 0xFFE9).hc = true := by decide

/-- VZ10 -/
theorem test_lsl_doubles : (after (start.setX 1 0x4001) 0xFFE9).x 1 = 0x8002 := by decide

/-- VZ12 -/
theorem test_asr_keeps_sign : (after (start.setX 1 0x8000) 0xFFF1).x 1 = 0xC000 := by decide

/-- VV2 -/
theorem test_rti_to_kernel : (after { start with en := false, irr := 0x300, imr := 0xFFFF } 0xFFF8).mode = .kernel := by decide

/-- VV3 -/
theorem test_rti_user_traps : (after userStart 0xFFF8).ex = 32 := by decide

/-- VV5 -/
theorem test_rtl_user_link : (after { userStart with linkU := 0x300, linkK := 0x999 } 0xFFF9).pc = 0x300 := by decide

/-- VV6 -/
theorem test_di_clears : (after start 0xFFFA).en = false := by decide

/-- VV7 -/
theorem test_ei_sets : (after { start with en := false } 0xFFFB).en = true := by decide

/-- VV9 -/
theorem test_hlt_stops : (after start 0xFFFC).haltReason = some .hlt := by decide

/-- VV11 -/
theorem test_brk_records : (after start 0xFFFD).events = [.brk 0x0101] := by decide

/-- VV13 -/
theorem test_v06_illegal : (after start 0xFFFE).ex = 32 := by decide

/-- VV15 -/
theorem test_die_double_fault : (after { start with en := false } 0xFFFF).haltReason = some (.doubleFault 32) := by decide

/-- VY35: the value written is the one recorded; it is the environment's, so nothing else is known of it. -/
theorem test_lio_records :
    (after (start.setX 2 0x47) 0xFE51).events = [.ioRead 7 ((after (start.setX 2 0x47) 0xFE51).x 1)] := rfl

/-- 20_memory.md R69: the source's MMU example, corrected. -/
theorem test_translate_example :
    translateCode { start with mmuK := start.mmuK.set 1 0x100 } 0x1234 = some 0x100234 := by decide

/-- 20_memory.md R65 to R67: a code entry of 0x800 lies beyond the default memory. -/
theorem test_translate_fault : translateCode { start with mmuK := start.mmuK.set 1 0x800 } 0x1000 = none := by decide

/-- 40_machine_cycle.md R162: the wrap is latched, and the word at 0xFFFF does not run. -/
theorem test_wrap_raises : (after { start with pc := 0xFFFF } 0xFFFA).ex = 62 ∧
    (after { start with pc := 0xFFFF } 0xFFFA).pc = 0 ∧ (after { start with pc := 0xFFFF } 0xFFFA).en = true := by decide

/-- 60_exceptions.md R410: delivery and the handler's first instruction in one cycle. -/
theorem test_delivery :
    (after { userStart with ex := 8 } 0xFFC8).irr = 0x100 ∧ (after { userStart with ex := 8 } 0xFFC8).icr = 8 ∧
      (after { userStart with ex := 8 } 0xFFC8).imr = 0 ∧ (after { userStart with ex := 8 } 0xFFC8).pc = 9 := by decide

/-- 40_machine_cycle.md R176, 93_implementation_defined.md I16: the vector's word is 0x0000, a double fault in the cycle that
delivers 48; ex still holds 48. -/
theorem test_double_fault_keeps_ex :
    (after { userStart with ex := 48 } 0).haltReason = some (.doubleFault 32) ∧
      (after { userStart with ex := 48 } 0).ex = 48 ∧ (after { userStart with ex := 48 } 0).icr = 48 := by decide

/-! ## Codec (spec/95_test_vectors.md section 5) -/

theorem test_assemble_ldi : assemble "ldi r1, 0xFFFF".toList = .ok [0xDFF9, 0xAFC9] := by decide

theorem test_assemble_branch : assemble "nop\nL: beq r1, r2, L # back".toList = .ok [0xFFC8, 0x9FD1] := by decide

theorem test_assemble_refuses_zero_word : assemble "ldw r0, r0, 0".toList = .error [(1, .zeroWord)] := by decide

theorem test_disassemble_blanks : disassemble [0xDFF9, 0xAFC9] = "\nldi r1, 0xFFFF\n".toList := by decide

/-- 30_encoding.md R140, R135: a full code segment without a zero word ends where the data segment begins. -/
theorem test_data_segment_is_not_code (data : List Word) :
    codeSegment (List.replicate maxCodeWords 1 ++ data) = List.replicate maxCodeWords 1 := by
  simp [codeSegment]

/-! ## Witnesses: the hypotheses of each statement can be met, clause by clause -/

/-- Two words of memory: the last byte that exists is byte 3. -/
def tiny : State := { start with params := { Params.standard with physWords := 2 } }

/-- `start` with r2 = v. -/
def withR2 (v : Nat) : State := start.setX 2 (BitVec.ofNat 16 v)

/-- `userStart` with r2 = v. -/
def userR2 (v : Nat) : State := userStart.setX 2 (BitVec.ofNat 16 v)

/-- `start` stopped by hlt, and by a double fault. -/
def haltedState : State := { start with run := false, haltReason := some .hlt }

def faultedState : State := { start with run := false, haltReason := some (.doubleFault 62) }

theorem witness_DecodeInvertsEncode :
    (Instr.ldw 7 7 (-64)).wellFormed ∧ (Instr.adi 0 0 63).wellFormed ∧ (Instr.lui 7 1023).wellFormed ∧
      (Instr.jlr 7 7 (-32)).wellFormed ∧ (Instr.jlr 0 0 31).wellFormed ∧ Instr.die.wellFormed := by decide

theorem witness_StepRunsDecodedInstruction :
    start.run = true ∧ start = deliverPending start ∧ translateCode start start.pc = some 0x100 ∧ start.pc ≠ 0xFFFF ∧
      decodeBytes [start.mem.read (2 * 0x100), start.mem.read (2 * 0x100 + 1)] = .ok (.ldw 0 0 0, []) ∧
      ∃ u, exec (.ldw 0 0 0) { start with pc := 0x101 } = .next u ∧ ∀ c, ¬u.doubleFaulted c :=
  ⟨rfl, rfl, by decide, by decide, rfl, _, rfl, fun _ h => nomatch h.1⟩

/-- Its clause on a double fault: the handler's first word is 0x0000. -/
theorem witness_StepRunsIntoDoubleFault :
    { start with ex := 62 }.run = true ∧ translateCode (deliverPending { start with ex := 62 }) 62 = some 62 ∧
      (deliverPending { start with ex := 62 }).pc = 62 ∧ decodeBytes [start.mem.read 124, start.mem.read 125] = .ok (.ldw 0 0 0, []) ∧
      ∃ u, exec (.ldw 0 0 0) { deliverPending { start with ex := 62 } with pc := 63 } = .next u ∧ u.doubleFaulted 32 :=
  ⟨rfl, by decide, by decide, rfl, _, rfl, rfl, rfl⟩

theorem witness_HaltedStateIsFinal :
    (haltedState.run = false ∧ haltedState.haltReason = some .hlt) ∧
      faultedState.run = false ∧ faultedState.haltReason = some (.doubleFault 62) := by decide

theorem witness_FetchExceptions :
    ({ tiny with pc := 2 }.run = true ∧ deliverPending { tiny with pc := 2 } = { tiny with pc := 2 } ∧
      translateCode { tiny with pc := 2 } 2 = none ∧ { tiny with pc := 2 }.en = true) ∧
    ({ tiny with ex := 62 }.run = true ∧ (deliverPending { tiny with ex := 62 }).pc = 62 ∧
      translateCode (deliverPending { tiny with ex := 62 }) 62 = none ∧
      (deliverPending { tiny with ex := 62 }).en = false) ∧
    { start with pc := 0xFFFF }.run = true ∧ deliverPending { start with pc := 0xFFFF } = { start with pc := 0xFFFF } ∧
      translateCode { start with pc := 0xFFFF } 0xFFFF = some 0xFFF ∧ { start with pc := 0xFFFF }.en = true := by decide

theorem witness_DeliveryTakesPendingException :
    { start with ex := 2 }.ex ≠ 0 ∧ { start with ex := 62 }.ex ≠ 0 ∧ start.ex = 0 ∧ { start with ex := 62 }.run = true ∧
      (after { start with ex := 2 } 0xFFC8).run = true ∧ (after { start with ex := 62 } 0).run = false := by decide

theorem witness_RunningMachineAlwaysSteps : start.run = true := rfl

theorem witness_OnlyHltAndDoubleFaultStop :
    (∃ t, step (start.withFetchWord 16 0xFFFC) = .next t ∧ t.run = false ∧ t.haltReason = some .hlt) ∧
      ∃ t, step State.reset = .next t ∧ t.run = false ∧ t.haltReason = some (.doubleFault 32) :=
  ⟨⟨_, rfl, rfl, rfl⟩, _, rfl, rfl, rfl⟩

theorem witness_RaiseLatchesOrDoubleFaults : start.en = true ∧ State.reset.en = false := ⟨rfl, rfl⟩

/-- The invariant holds of a state that steps: the reset state, one of memory's last bytes set and a cause pending. -/
def pendingState : State :=
  { State.reset with en := true, ex := 62, mem := ⟨[(0xFFFFFF, 1)]⟩ }

theorem witness_InvariantKeptByEveryStep :
    pendingState.Inv ∧ ∃ t, step pendingState = .next t :=
  ⟨⟨by decide, by decide, rfl, rfl, fun _ => by decide, fun _ _ => rfl, fun h => (nomatch h), fun _ => rfl, by decide,
    fun _ h => (nomatch h), rfl, fun _ h => (nomatch h)⟩, _, rfl⟩

theorem witness_ResetMeetsInvariant :
    (Memory.mk [(0, 1), (0xFFFFFF, 2)]).wf ∧ ∀ c ∈ (Memory.mk [(0, 1), (0xFFFFFF, 2)]).cells, c.1 < 2 * 2 ^ 23 := by decide

theorem witness_ResetValues : State.reset = State.afterReset Params.standard Memory.empty := rfl

theorem witness_ModeAndUserMmuOverAStep :
    (∃ t, step (start.withFetchWord 16 0xFFF8) = .next t ∧ t.mode ≠ start.mode) ∧
      ∃ t, step { userStart with ex := 62 } = .next t ∧ (deliverPending { userStart with ex := 62 }).mode ≠ .user :=
  ⟨⟨_, rfl, by decide⟩, _, rfl, by decide⟩

theorem witness_CodeTranslation :
    (15 : Fin 32).val = (0xFFFF : Word).toNat / 4096 ∧ 0xFFF < start.params.physWords ∧
      0 = (start.mmu start.mode 15).toNat % 4096 ∧ ¬2 < tiny.params.physWords := by decide

theorem witness_DataTranslation :
    (31 : Fin 32).val = 16 + (0xFFFF : Word).toNat / 4096 ∧ 0 = (start.mmu start.mode 31).toNat % 4096 ∧
      0xFFF / 2 < start.params.physWords ∧ 3 / 2 < tiny.params.physWords ∧ ¬4 / 2 < tiny.params.physWords := by decide

theorem witness_DefaultMemoryTranslation :
    start.params.physWords = 2 ^ 23 ∧ (15 : Fin 32).val = (0xFFFF : Word).toNat / 4096 ∧
      translateCode { start with mmuK := start.mmuK.set 15 0x7FF } 0xFFFF ≠ none ∧
      translateCode { start with mmuK := start.mmuK.set 15 0x800 } 0xF000 = none := by decide

theorem witness_MemWriteEffect :
    tiny.mem.wf ∧ translateData tiny 4 = none ∧ translateData tiny 0 = some (0, false) ∧
      translateData tiny 3 = some (1, true) := by decide

theorem witness_GeneralRegisterZero :
    (1 : Reg) ≠ 0 ∧ (7 : Reg) ≠ 0 ∧ (Mode.user ≠ .kernel ∨ (1 : Reg) ≠ 1) ∧ exec .rtl start = .next { start with pc := 0 } :=
  ⟨by decide, by decide, by decide, rfl⟩

theorem witness_LdwLoadsWord :
    (translateData tiny (tiny.x 0 + BitVec.ofInt 16 3) = some (1, true) ∧ ¬((0 : Reg) = 0 ∧ (0 : Reg) = 0 ∧ (3 : Int) = 0)) ∧
    (translateData tiny (tiny.x 0 + BitVec.ofInt 16 (-64)) = none ∧
      ¬((0 : Reg) = 0 ∧ (0 : Reg) = 0 ∧ (-64 : Int) = 0)) ∧
    ((0 : Reg) = 0 ∧ (0 : Reg) = 0 ∧ (0 : Int) = 0) := by decide

theorem witness_ZeroWordIsIllegal :
    (0x0001 : Word) ≠ 0x0000 ∧ (0x0001 : Word).toNat < 0x2000 ∧ (0x1FFF : Word) ≠ 0x0000 ∧
      (0x1FFF : Word).toNat < 0x2000 := by decide

theorem witness_LdbLoadsByte :
    translateData tiny (tiny.x 0 + BitVec.ofInt 16 3) = some (1, true) ∧
      translateData tiny (tiny.x 0 + BitVec.ofInt 16 0) = some (0, false) ∧
      translateData tiny (tiny.x 0 + BitVec.ofInt 16 4) = none := by decide

theorem witness_StwStoresWord :
    tiny.mem.wf ∧ translateData tiny (tiny.x 0 + BitVec.ofInt 16 3) = some (1, true) ∧
      translateData tiny (tiny.x 0 + BitVec.ofInt 16 4) = none ∧ 4 ≠ 2 * 1 ∧ 4 ≠ 2 * 1 + 1 := by decide

theorem witness_StbStoresByte :
    tiny.mem.wf ∧ translateData tiny (tiny.x 0 + BitVec.ofInt 16 2) = some (1, false) ∧
      translateData tiny (tiny.x 0 + BitVec.ofInt 16 3) = some (1, true) ∧
      translateData tiny (tiny.x 0 + BitVec.ofInt 16 4) = none ∧ 2 ≠ 2 * 1 + 1 := by decide

theorem witness_BeqBranches : start.x 1 = start.x 2 ∧ (withR2 1).x 1 ≠ (withR2 1).x 2 := by decide

theorem witness_LuiLoadsUpper : 1023 ≤ 1023 ∧ 0 ≤ 1023 ∧ (7 : Reg) ≠ 0 ∧ 63 ≤ 63 := by decide

theorem witness_SysTraps :
    ((2 : Int) % 2 = 0 ∧ (2 : Int) ≤ 2 ∧ (2 : Int) ≤ 30) ∧ ((30 : Int) % 2 = 0 ∧ (2 : Int) ≤ 30 ∧ (30 : Int) ≤ 30) ∧
      ¬((0 : Int) % 2 = 0 ∧ (2 : Int) ≤ 0 ∧ (0 : Int) ≤ 30) ∧ ¬((31 : Int) % 2 = 0 ∧ (2 : Int) ≤ 31 ∧ (31 : Int) ≤ 30) := by
  decide

theorem witness_CallSetsLink : userStart.mode = .user ∧ start.mode = .kernel := ⟨rfl, rfl⟩

theorem witness_ReservedJlrIsIllegal :
    (3 ≤ 3 ∧ 3 ≤ 7) ∧ (3 ≤ 7 ∧ 7 ≤ 7) ∧ (-32 : Int) ≤ -32 ∧ (-32 : Int) ≤ 31 ∧ (31 : Int) ≤ 31 := by decide

/-- `start` with the other operand order. -/
def otherOrder : State := { start with params := { Params.standard with subOrder := .bMinusC } }

theorem witness_AddSubNegWrap : start.params.subOrder = .cMinusB ∧ otherOrder.params.subOrder = .bMinusC := ⟨rfl, rfl⟩

theorem witness_SbbSubtractsWithBorrow :
    start.params.subOrder = .cMinusB ∧ otherOrder.params.subOrder = .bMinusC := ⟨rfl, rfl⟩

theorem witness_LspReadsSpecialRegisters :
    (∀ n ∈ [0, 1, 6, 7, 2, 3, 4, 16, 23, 25, 32, 63], n = ((withR2 n).x 2).toNat % 64 ∧ (withR2 n).mode = .kernel) ∧
      (∀ n ∈ [0, 1, 6, 7], n = ((userR2 n).x 2).toNat % 64 ∧ (userR2 n).mode = .user) ∧
      16 = 16 + (0 : Reg).val ∧ 23 = 16 + (7 : Reg).val ∧ 32 = 32 + (0 : Fin 32).val ∧ 63 = 32 + (31 : Fin 32).val := by decide

theorem witness_LspTraps :
    (∀ n ∈ [5, 8, 15, 24, 26, 31], n = ((withR2 n).x 2).toNat % 64) ∧
      ∀ n ∈ [2, 4, 16, 23, 25, 32, 63], n = ((userR2 n).x 2).toNat % 64 ∧ (userR2 n).mode = .user := by decide

theorem witness_SspWritesSpecialRegisters :
    (1 = ((userR2 1).x 2).toNat % 64 ∧ (userR2 1).mode = .user) ∧
      (∀ n ∈ [1, 2, 3, 4, 16, 17, 23, 25, 32, 63], n = ((withR2 n).x 2).toNat % 64 ∧ (withR2 n).mode = .kernel) ∧
      17 = 16 + (1 : Reg).val ∧ 23 = 16 + (7 : Reg).val ∧ 32 = 32 + (0 : Fin 32).val ∧ 63 = 32 + (31 : Fin 32).val := by decide

theorem witness_SspTraps :
    (∀ n ∈ [0, 5, 15, 24, 26, 31], n = ((withR2 n).x 2).toNat % 64) ∧
      ∀ n ∈ [2, 4, 16, 23, 25, 32, 63], n = ((userR2 n).x 2).toNat % 64 ∧ (userR2 n).mode = .user := by decide

theorem witness_IoTransactions :
    63 = ((withR2 0xFFFF).x 2).toNat % 2 ^ (withR2 0xFFFF).params.ioBits ∧
      0 = ((withR2 64).x 2).toNat % 2 ^ (withR2 64).params.ioBits := by decide

theorem witness_RtiReturns : start.mode = .kernel := rfl

theorem witness_RtlReturns : userStart.mode = .user ∧ start.mode = .kernel := ⟨rfl, rfl⟩

theorem witness_DisableEnable : start.mode = .kernel ∧ userStart.mode = .user := ⟨rfl, rfl⟩

theorem witness_HaltAndBreakpoint : start.mode = .kernel := rfl

theorem witness_PrivilegeCheck :
    (∀ i ∈ [Instr.rti, .di, .ei, .hlt, .brk], i = .rti ∨ i = .di ∨ i = .ei ∨ i = .hlt ∨ i = .brk) ∧
      userStart.mode = .user ∧ start.mode = .kernel := by decide

theorem witness_GeneralRegisterFrame :
    exec (.lui 7 1) start = .next (start.setX 7 64) ∧
      exec (.ssp 1 2) (withR2 23) = .next ((withR2 23).setReg .user 7 0) := ⟨rfl, rfl⟩

theorem witness_SpecialStateFrame :
    exec (.jlr 1 0 0) start = .next { start with linkK := 0x100, pc := 0 } ∧
      exec .brk start = .next { start with events := [.brk 0x100] } := ⟨rfl, rfl⟩

theorem witness_MemoryFrame :
    exec .rtl start = .next { start with pc := 0 } ∧
    (exec (.stw 1 0 4) tiny = .next (raise exMemory tiny) ∧ translateData tiny (basePlusImm tiny 0 4) = none) ∧
    (exec (.stw 1 0 3) tiny = .next { tiny with mem := physWrite tiny.mem 1 0 } ∧
      translateData tiny (basePlusImm tiny 0 3) = some (1, true) ∧ 4 ≠ 2 * 1 ∧ 4 ≠ 2 * 1 + 1) ∧
    exec (.stb 1 0 2) tiny = .next { tiny with mem := tiny.mem.write 2 0 } ∧
      translateData tiny (basePlusImm tiny 0 2) = some (1, false) ∧ 3 ≠ 2 * 1 + false.toNat :=
  ⟨rfl, ⟨rfl, by decide⟩, ⟨rfl, by decide, by decide, by decide⟩, rfl, by decide, by decide⟩

theorem witness_PreciseExceptions :
    (start.ex = 0 ∧ start.haltReason = none ∧ exec .die start = .next { start with ex := 32 } ∧ (32 : ExCode) ≠ 0) ∧
      State.reset.ex = 0 ∧ State.reset.haltReason = none ∧
      exec .die State.reset = .next { State.reset with run := false, haltReason := some (.doubleFault 32) } :=
  ⟨⟨rfl, rfl, rfl, by decide⟩, rfl, rfl, rfl⟩

theorem witness_UserStepIgnoresKernelPart :
    (userStart.mode = .user ∧ userStart.ex = 0 ∧ ∃ t, step userStart = .next t) ∧
      { faultedState with mode := .user }.mode = .user ∧ { faultedState with mode := .user }.ex = 0 ∧
      step { faultedState with mode := .user } = .fault (.doubleFault 62) := ⟨⟨rfl, rfl, _, rfl⟩, rfl, rfl, rfl⟩

/-- The hypotheses of the clauses on hostLoad: an error of the kernel image, an error of the user image, and a load of both. -/
theorem witness_HostLoadPlacesImages_hostLoad :
    loadImage tiny 0 [1, 2, 3, 4, 5] = .error .beyondMemory ∧
    ((∃ t, loadImage tiny 0 [1, 2, 3, 4] = .ok t) ∧ loadImage tiny 0x30000 [1] = .error .beyondMemory) ∧
    start.mem.wf ∧ (([1, 2, 3] : List Byte).length + 1) / 2 ≤ start.params.physWords ∧
      ([9] : List Byte).length ≤ 0x30000 ∧ (0x30000 + ([9] : List Byte).length + 1) / 2 ≤ start.params.physWords :=
  ⟨rfl, ⟨⟨_, rfl⟩, rfl⟩, by decide⟩

theorem witness_HostLoadPlacesImages :
    tiny.mem.wf ∧ 0x30000 < 0x30001 ∧ ([1, 2, 3, 4, 5] : List Byte).length ≤ 0x30000 ∧
      tiny.params.physWords < (0 + ([1, 2, 3, 4, 5] : List Byte).length + 1) / 2 ∧
      (0 + ([1, 2, 3, 4] : List Byte).length + 1) / 2 ≤ tiny.params.physWords := by decide

theorem witness_HostLoadTooLarge : 0x30000 < (List.replicate 0x30001 (0 : Byte)).length := by
  rw [List.length_replicate]; omega

theorem witness_ListingReassembles :
    (∀ w ∈ ([0xDFF9, 0xAFC9, 0xFFC8] : List Word), w ≠ 0) ∧ ([0xDFF9, 0xAFC9, 0xFFC8] : List Word).length ≤ 65536 := by
  simp

theorem witness_SourceRoundTrip : assemble "jmp r1, 0x1234".toList = .ok [0xC249, 0xED0A] := by decide

end Sys2Proof.Tests
end

/-! ## The general registers (10_state.md R21) -/

namespace Sys2Proof.Machine

/-- What is written to r1..r7 is read back. -/
theorem reg_setReg_self (s : State) (m : Mode) {r : Reg} (v : Word) (hr : r ≠ 0) : (s.setReg m r v).reg m r = v := by
  rw [reg_setReg, if_pos ⟨rfl, rfl, hr⟩]

/-- A register write leaves the other registers and the other mode's file alone. -/
theorem reg_setReg_ne (s : State) {m n : Mode} {r q : Reg} (v : Word) (h : n ≠ m ∨ q ≠ r) :
    (s.setReg m r v).reg n q = s.reg n q := by
  rw [reg_setReg, if_neg]
  rintro ⟨hmode, hreg, -⟩
  exact h.elim (· hmode) (· hreg)

/-- A register write changes no field but the two register files. -/
theorem setReg_eq_withFiles (s : State) (m : Mode) (r : Reg) (v : Word) :
    s.setReg m r v = { s with xu := (s.setReg m r v).xu, xk := (s.setReg m r v).xk } := by
  cases m <;> rfl

/-- Settles O22: the register laws of Laws/State.lean, r0 and r1..r7 apart; r0 reads as zero in every state, so in every
next state. -/
theorem generalRegisterZero : Obligations.GeneralRegisterZero :=
  ⟨fun s m => ⟨reg_zero s m, setReg_zero s m⟩,
    fun s m r v hr => ⟨reg_setReg_self s m v hr, fun _ _ h => reg_setReg_ne s v h, setReg_eq_withFiles s m r v⟩,
    fun _ _ t m _ => reg_zero t m⟩

end Sys2Proof.Machine

/-! ## Address translation in numbers (20_memory.md R64 to R66) -/

namespace Sys2Proof.Machine

/-- The page is the quotient of the virtual address by the page size. -/
theorem pageOf_val (va : Word) : (pageOf va).val = va.toNat / 4096 := by
  have hva : va.toNat < 65536 := va.isLt
  simp only [pageOf, BitVec.extractLsb'_toNat, Nat.shiftRight_eq_div_pow]
  omega

/-- `{upper, va[11:0]}` as a number: the entry's low twelve bits place a block of 4096. -/
theorem physAddr_toNat (entry va : Word) :
    (physAddr entry va).toNat = entry.toNat % 4096 * 4096 + va.toNat % 4096 := by
  simp only [physAddr, BitVec.toNat_append, BitVec.extractLsb'_toNat, Nat.shiftRight_zero]
  rw [← Nat.shiftLeft_add_eq_or_of_lt (Nat.mod_lt _ (by decide)), Nat.shiftLeft_eq]

/-- The word index a code translation compares, with the page's MMU entry given by its number. -/
theorem codeWordAddr_eq (s : State) {va : Word} {page : Fin 32} (hpage : page.val = va.toNat / 4096) :
    codeWordAddr s va = (s.mmu s.mode page).toNat % 4096 * 4096 + va.toNat % 4096 := by
  have hentry : codeEntry (pageOf va) = page := Fin.ext ((pageOf_val va).trans hpage.symm)
  rw [codeWordAddr, hentry, physAddr_toNat]

/-- The byte address a data translation halves, with the page's MMU entry given by its number. -/
theorem dataByteAddr_eq (s : State) {va : Word} {entry : Fin 32} (hentry : entry.val = 16 + va.toNat / 4096) :
    dataByteAddr s va = (s.mmu s.mode entry).toNat % 4096 * 4096 + va.toNat % 4096 := by
  have hdata : dataEntry (pageOf va) = entry :=
    Fin.ext ((congrArg (16 + ·) (pageOf_val va)).trans hentry.symm)
  rw [dataByteAddr, hdata, physAddr_toNat]

/-- Translation keeps the parity of an address: bit 0 is inside the page offset. -/
theorem dataByteAddr_mod_two (s : State) (va : Word) : dataByteAddr s va % 2 = va.toNat % 2 := by
  rw [dataByteAddr, physAddr_toNat]
  omega

/-- The lane a data translation answers is bit 0 of the virtual address. -/
theorem lane_eq_bit_zero (s : State) (va : Word) : decide (dataByteAddr s va % 2 = 1) = va.getLsbD 0 := by
  rw [dataByteAddr_mod_two, BitVec.getLsbD, Nat.testBit_zero]

/-- Settles O17: the word index of `codeWordAddr_eq`, compared with PHYS_WORDS. -/
theorem codeTranslation : Obligations.CodeTranslation := by
  rintro s va page upper pa hpage rfl rfl
  rw [translateCode, codeWordAddr_eq s hpage]

/-- Settles O18: the byte address of `dataByteAddr_eq`, halved before the comparison, and its parity as the lane. -/
theorem dataTranslation : Obligations.DataTranslation := by
  rintro s va entry upper pb hentry rfl rfl
  rw [translateData, lane_eq_bit_zero, dataByteAddr_eq s hentry]

/-! ## Data writes (20_memory.md R71) -/

/-- A word read after one byte lane was written: the other lane of that word and every other word stay. -/
theorem physRead_write_lane {m : Memory} (h : m.wf) (i j : Nat) (lane : Bool) (b : Byte) :
    physRead (m.write (2 * i + lane.toNat) b) j =
      if j = i then
        (if lane then wordOfBytes (loByte (physRead m i)) b else wordOfBytes b (hiByte (physRead m i)))
      else physRead m j := by
  by_cases hj : j = i
  · subst hj
    cases lane <;> simp [physRead, read_write h]
  · have hlo : 2 * j ≠ 2 * i + lane.toNat := by cases lane <;> simp <;> omega
    have hhi : 2 * j + 1 ≠ 2 * i + lane.toNat := by cases lane <;> simp <;> omega
    rw [if_neg hj, physRead_congr (read_write_ne m b hlo) (read_write_ne m b hhi)]

/-- A data write at an address that does not translate answers no state. -/
theorem memWrite_none {s : State} {addr : Word} (h : translateData s addr = none) (width : Width) (v : Word) :
    memWrite s addr width v = none := by
  rw [memWrite, h]

/-- A word write at an address that translates writes its word. -/
theorem memWrite_word {s : State} {addr : Word} {wi : Nat} {lane : Bool}
    (h : translateData s addr = some (wi, lane)) (v : Word) :
    memWrite s addr .word v = some { s with mem := physWrite s.mem wi v } := by
  rw [memWrite, h]

/-- A byte write at an address that translates writes the low byte into its lane. -/
theorem memWrite_byte {s : State} {addr : Word} {wi : Nat} {lane : Bool}
    (h : translateData s addr = some (wi, lane)) (v : Word) :
    memWrite s addr .byte v = some { s with mem := s.mem.write (2 * wi + lane.toNat) (loByte v) } := by
  rw [memWrite, h]

/-- Settles O21: what each width writes (`memWrite_word`, `memWrite_byte`), read back by the memory laws. -/
theorem memWriteEffect : Obligations.MemWriteEffect := by
  intro s addr v hwf
  refine ⟨fun hnone width => memWrite_none hnone width v, fun wi lane hsome => ⟨?word, ?byte⟩⟩
  case word => exact ⟨_, memWrite_word hsome v, rfl, fun j => physRead_physWrite hwf wi j v⟩
  case byte => exact ⟨_, memWrite_byte hsome v, rfl, fun j => physRead_write_lane hwf wi j lane (loByte v)⟩

end Sys2Proof.Machine

/-! ## Decoding and encoding (30_encoding.md R101 to R106) -/

namespace Sys2Proof

/-! ### The classes hand a word from one decoder to the next (R103) -/

/-- Top bits 111: op is 7. -/
theorem fieldOp_eq_seven {w : Word} (h : w.toNat / 8192 = 7) : fieldOp w = 7 := Fin.ext (by rw [fieldOp_val, h]; rfl)

/-- Bit 12 as arithmetic. -/
theorem getLsbD_twelve (w : Word) : w.getLsbD 12 = decide (w.toNat / 4096 % 2 = 1) := by
  rw [BitVec.getLsbD, Nat.testBit_eq_decide_div_mod_eq]

/-- Top bits 1111: the word is decoded by its xop. -/
theorem decodeWord_eq_decodeXop {w : Word} (h : w.toNat / 4096 = 15) : decodeWord w = decodeXop w := by
  have hbit : w.getLsbD 12 = true := by rw [getLsbD_twelve, h]; rfl
  simp only [decodeWord, fieldOp_eq_seven (w := w) (by omega), hbit, if_true]

/-- Top bits 1111111: the word is decoded by its yop. -/
theorem decodeWord_eq_decodeYop {w : Word} (h : w.toNat / 512 = 127) : decodeWord w = decodeYop w := by
  have hxop : fieldXop w = 7 := Fin.ext (by rw [fieldXop_val, h]; rfl)
  rw [decodeWord_eq_decodeXop (by omega)]
  simp only [decodeXop, hxop]

/-! ### Re-encoding the decoded fields, per format -/

theorem encodeRri_fields {w : Word} {op : BitVec 3} (hop : (fieldOp w).val = op.toNat) :
    encodeRri op (fieldA w) (fieldB w) (fieldImm7 w) = w := by
  have hw := w.isLt
  rw [fieldOp_val] at hop
  apply BitVec.eq_of_toNat_eq
  rw [encodeRri_toNat, fieldImm7, BitVec.ofInt_toInt, extractLsb'_val, fieldA_val, fieldB_val]
  omega

theorem encodeRjx_fields {w : Word} (hop : (fieldOp w).val = 6) : encodeRjx (fieldA w) (fieldImm10 w) = w := by
  have hw := w.isLt
  rw [fieldOp_val] at hop
  apply BitVec.eq_of_toNat_eq
  rw [encodeRjx_toNat, fieldImm10_val, fieldA_val]
  omega

theorem encodeJlr_fields {w : Word} (h : w.toNat / 4096 = 14) :
    encodeJlr (fieldA w).val (fieldB w) (fieldImm6 w) = w := by
  apply BitVec.eq_of_toNat_eq
  rw [encodeJlr_toNat, fieldImm6, BitVec.ofInt_toInt, extractLsb'_val, fieldA_val, fieldB_val]
  omega

theorem encodeRrr_fields {w : Word} {xop : BitVec 3} (h : w.toNat / 4096 = 15) (hxop : (fieldXop w).val = xop.toNat) :
    encodeRrr xop (fieldA w) (fieldB w) (fieldC w) = w := by
  rw [fieldXop_val] at hxop
  apply BitVec.eq_of_toNat_eq
  rw [encodeRrr_toNat, fieldA_val, fieldB_val, fieldC_val]
  omega

theorem encodeRrx_fields {w : Word} {yop : BitVec 3} (h : w.toNat / 512 = 127) (hyop : (fieldC w).val = yop.toNat) :
    encodeRrx yop (fieldA w) (fieldB w) = w := by
  rw [fieldC_val] at hyop
  apply BitVec.eq_of_toNat_eq
  rw [encodeRrx_toNat, fieldA_val, fieldB_val]
  omega

theorem encodeRxx_fields {w : Word} {zop : BitVec 3} (h : w.toNat / 64 = 1023) (hzop : (fieldB w).val = zop.toNat) :
    encodeRxx zop (fieldA w) = w := by
  rw [fieldB_val] at hzop
  apply BitVec.eq_of_toNat_eq
  rw [encodeRxx_toNat, fieldA_val]
  omega

theorem encodeXxx_fields {w : Word} {vop : BitVec 3} (h : w.toNat / 8 = 8191) (hvop : (fieldA w).val = vop.toNat) :
    encodeXxx vop = w := by
  rw [fieldA_val] at hvop
  apply BitVec.eq_of_toNat_eq
  rw [encodeXxx_toNat]
  omega

/-! ### Re-encoding the decoded instruction, along the nesting of the classes -/

theorem encode_decodeVop {w : Word} (h : w.toNat / 8 = 8191) : encode (decodeVop w) = w := by
  unfold decodeVop
  split
  all_goals exact encodeXxx_fields h (by rw [‹fieldA w = _›]; rfl)

theorem encode_decodeZop {w : Word} (h : w.toNat / 64 = 1023) : encode (decodeZop w) = w := by
  unfold decodeZop
  split
  case h_8 hzop =>
    have hval : w.toNat / 8 % 8 = 7 := by rw [← fieldB_val, hzop]; rfl
    exact encode_decodeVop (by omega)
  all_goals exact encodeRxx_fields h (by rw [‹fieldB w = _›]; rfl)

theorem encode_decodeYop {w : Word} (h : w.toNat / 512 = 127) : encode (decodeYop w) = w := by
  unfold decodeYop
  split
  case h_8 hyop =>
    have hval : w.toNat / 64 % 8 = 7 := by rw [← fieldC_val, hyop]; rfl
    exact encode_decodeZop (by omega)
  all_goals exact encodeRrx_fields h (by rw [‹fieldC w = _›]; rfl)

theorem encode_decodeXop {w : Word} (h : w.toNat / 4096 = 15) : encode (decodeXop w) = w := by
  unfold decodeXop
  split
  case h_8 hxop =>
    have hval : w.toNat / 512 % 8 = 7 := by rw [← fieldXop_val, hxop]; rfl
    exact encode_decodeYop (by omega)
  all_goals exact encodeRrr_fields h (by rw [‹fieldXop w = _›]; rfl)

/-- Every word is the word of the instruction it decodes to (R106). -/
theorem encode_decodeWord (w : Word) : encode (decodeWord w) = w := by
  have hw := w.isLt
  unfold decodeWord
  split
  case h_7 hop => exact encodeRjx_fields (by rw [hop]; rfl)
  case h_8 hop =>
    have hval : w.toNat / 8192 % 8 = 7 := by rw [← fieldOp_val, hop]; rfl
    rw [getLsbD_twelve]
    split
    next hbit => exact encode_decodeXop (by have := of_decide_eq_true hbit; omega)
    next hbit => exact encodeJlr_fields (by have := of_decide_eq_false (Bool.eq_false_iff.mpr hbit); omega)
  all_goals exact encodeRri_fields (by rw [‹fieldOp w = _›]; rfl)

end Sys2Proof

/-! ## The reserved YOPs (45_yop.md R294 to R296) -/

namespace Sys2Proof.Machine

/-- An RRX pattern as bit 15 on the left, in numbers. -/
theorem rrxPattern_toNat (top : BitVec 10) (b a : BitVec 3) :
    (top ++ b ++ a : Word).toNat = top.toNat * 64 + b.toNat * 8 + a.toNat := by
  rw [append_toNat, append_toNat]
  omega

/-- An RRX pattern decodes by its yop, the low three bits of the ten on top, with rB and rA as written. -/
theorem decodeWord_rrxPattern {top : BitVec 10} {yop : Fin 8} {f : Reg → Reg → Instr}
    (htop : top.toNat = 127 * 8 + yop.val) (hf : ∀ w, fieldC w = yop → decodeYop w = f (fieldA w) (fieldB w))
    (b a : BitVec 3) : decodeWord (top ++ b ++ a) = f a.toFin b.toFin := by
  have hb := b.isLt
  have ha := a.isLt
  have hw := rrxPattern_toNat top b a
  have hC : fieldC (top ++ b ++ a) = yop := Fin.ext (by rw [fieldC_val, hw]; omega)
  have hB : fieldB (top ++ b ++ a) = b.toFin := Fin.ext (by rw [fieldB_val, hw, BitVec.val_toFin]; omega)
  have hA : fieldA (top ++ b ++ a) = a.toFin := Fin.ext (by rw [fieldA_val, hw, BitVec.val_toFin]; omega)
  rw [decodeWord_eq_decodeYop (by omega), hf _ hC, hA, hB]

/-- Settles O46: the three patterns by their yop (`decodeWord_rrxPattern`); each of the three meanings raises ExIllegal
whatever the state, so in both modes. -/
theorem reservedYopsAreIllegal : Obligations.ReservedYopsAreIllegal :=
  ⟨decodeWord_rrxPattern (yop := 4) rfl (fun w hyop => by simp only [decodeYop, hyop]),
    decodeWord_rrxPattern (yop := 5) rfl (fun w hyop => by simp only [decodeYop, hyop]),
    decodeWord_rrxPattern (yop := 6) rfl (fun w hyop => by simp only [decodeYop, hyop]),
    fun _ _ _ => ⟨rfl, rfl, rfl⟩⟩

end Sys2Proof.Machine

/-! ## The listing as source lines (30_encoding.md R131, R132, R141 to R148) -/

namespace Sys2Proof

/-! ### Decoded operands lie in their ranges (R104) -/

theorem wellFormed_decodeVop (w : Word) : (decodeVop w).wellFormed = true := by
  unfold decodeVop
  split <;> rfl

theorem wellFormed_decodeZop (w : Word) : (decodeZop w).wellFormed = true := by
  unfold decodeZop
  split
  case h_8 => exact wellFormed_decodeVop w
  all_goals rfl

theorem wellFormed_decodeYop (w : Word) : (decodeYop w).wellFormed = true := by
  unfold decodeYop
  split
  case h_8 => exact wellFormed_decodeZop w
  all_goals rfl

theorem wellFormed_decodeXop (w : Word) : (decodeXop w).wellFormed = true := by
  unfold decodeXop
  split
  case h_8 => exact wellFormed_decodeYop w
  all_goals rfl

theorem fieldImm10_fits (w : Word) : imm10Fits (fieldImm10 w) = true :=
  decide_eq_true (by rw [fieldImm10_val]; omega)

theorem subopFits_reg (r : Reg) : subopFits r.val = true := decide_eq_true (by omega)

/-- The operands of a decoded instruction fit their fields. -/
theorem wellFormed_decodeWord (w : Word) : (decodeWord w).wellFormed = true := by
  unfold decodeWord
  split
  case h_7 => exact fieldImm10_fits w
  case h_8 =>
    split
    · exact wellFormed_decodeXop w
    · exact Bool.and_eq_true_iff.mpr ⟨subopFits_reg _, fieldImm6_fits w⟩
  all_goals exact fieldImm7_fits w

end Sys2Proof

namespace Sys2Proof.Machine

/-- The sub-opcode and the immediate of a well-formed jlr. -/
theorem wellFormed_jlr {j : Nat} {rB : Reg} {imm : Int} (h : (Instr.jlr j rB imm).wellFormed = true) :
    subopFits j = true ∧ imm6Fits imm = true :=
  Bool.and_eq_true_iff.mp h

/-! ### Printed operands read back (R122, R125) -/

/-- The eight register names are the symbols of the registers. -/
@[simp] theorem registerOf_regName (r : Reg) : registerOf (regName r) = some r := by
  revert r; decide

@[simp] theorem operandReg_regOperand (r : Reg) : operandReg (regOperand r) = .ok r := by
  simp [operandReg, regOperand]

@[simp] theorem knownValue_natNumber (labels : Labels) (v : Nat) : knownValue labels (natNumber v) = some (v : Int) :=
  rfl

@[simp] theorem knownValue_intOperand (labels : Labels) (v : Int) : knownValue labels (intOperand v) = some v := by
  simp only [knownValue, intOperand, signed, decide_eq_true_eq, Option.some.injEq]
  split <;> omega

@[simp] theorem operandValue_natNumber (labels : Labels) (v : Nat) : operandValue labels (natNumber v) = .ok (v : Int) :=
  rfl

@[simp] theorem operandValue_intOperand (labels : Labels) (v : Int) : operandValue labels (intOperand v) = .ok v := by
  rw [operandValue, knownValue_intOperand]

@[simp] theorem natOperand_natCast (v : Nat) : natOperand (v : Int) = .ok v := by
  rw [natOperand, if_neg (by omega), Int.toNat_natCast]

/-- A 16-bit value printed unsigned is read back by ldi, jmp and jsr. -/
@[simp] theorem wideValue_toNat (labels : Labels) (v : Word) : wideValue labels (natNumber v.toNat) = .ok v := by
  have hv := v.isLt
  have hrange : (-32768 : Int) ≤ v.toNat ∧ (v.toNat : Int) ≤ 65535 := by omega
  have hself : BitVec.ofInt 16 (v.toNat : Int) = v := by rw [BitVec.ofInt_natCast, BitVec.ofNat_toNat, BitVec.setWidth_eq]
  simp only [wideValue, operandValue_natNumber, bind, Except.bind, if_pos hrange, hself, pure, Except.pure]

/-- The absolute target of a branch gives its offset back (R128, R142). -/
theorem branchOffset_beqTarget (k : Nat) {imm : Int} (h : imm7Fits imm = true) :
    branchOffset k ((beqTarget k imm).toNat : Int) = imm := by
  have hrange := of_decide_eq_true h
  have hsub : BitVec.ofInt 16 ((beqTarget k imm).toNat - (k + 1 : Int)) = BitVec.ofInt 16 imm := by
    have hk : (k + 1 : Int) = ((k + 1 : Nat) : Int) := rfl
    rw [hk, Int.sub_eq_add_neg, BitVec.ofInt_add, BitVec.ofInt_neg, BitVec.ofInt_natCast, BitVec.ofInt_natCast,
      BitVec.ofNat_toNat, BitVec.setWidth_eq, beqTarget]
    ring
  rw [branchOffset, hsub, BitVec.toInt_ofInt_eq_self] <;> omega

/-- The canonical line of an instruction stands for that instruction (R125, R141, R142). -/
theorem buildInstr_instrOperands (k : Nat) {i : Instr} (hwf : i.wellFormed = true) :
    buildInstr [] k i.mnemonic (instrOperands k i) = .ok i := by
  cases i
  case beq rA rB imm =>
    simp [buildInstr, buildBeq, Instr.mnemonic, instrOperands, bind, Except.bind, pure, Except.pure,
      branchOffset_beqTarget k hwf]
  all_goals
    simp [buildInstr, buildRri, buildRrr, buildRrx, buildRxx, buildLui, buildJlr, Instr.mnemonic, instrOperands, bind,
      Except.bind, pure, Except.pure]

/-! ### The two words of a fused pair (R131, R132, R143, R144) -/

/-- The value of a fused ldi as a number: the two fields side by side. -/
theorem ldiValue_toNat {upper : Nat} {low : Int} (hupper : upper ≤ 1023) (hlow : 0 ≤ low ∧ low ≤ 63) :
    (ldiValue upper low).toNat = upper * 64 + low.toNat := by
  have hl := Int.toNat_lt (n := 64) hlow.1 |>.mpr (by omega)
  have hhigh : (BitVec.ofNat 16 upper <<< 6).toNat = upper <<< 6 := by
    rw [BitVec.toNat_shiftLeft, BitVec.toNat_ofNat, Nat.shiftLeft_eq, Nat.shiftLeft_eq]
    omega
  have hlow : (BitVec.ofInt 16 low).toNat = low.toNat := by rw [BitVec.toNat_ofInt]; omega
  rw [ldiValue, BitVec.toNat_or, hhigh, hlow, ← Nat.shiftLeft_add_eq_or_of_lt (by omega), Nat.shiftLeft_eq]

/-- ldi splits a fused value into the fields it was fused from. -/
theorem ldiParts_ldiValue {upper : Nat} {low : Int} (hupper : upper ≤ 1023) (hlow : 0 ≤ low ∧ low ≤ 63) :
    ldiParts (ldiValue upper low) = (upper, low) := by
  rw [ldiParts, extractLsb'_val, extractLsb'_val, ldiValue_toNat hupper hlow]
  exact Prod.ext (by dsimp only; omega) (by dsimp only; omega)

/-- The low field of a jump target, sign-extended, is the jlr's immediate. -/
theorem jumpTarget_low {upper : Nat} {low : Int} (hlow : imm6Fits low = true) :
    ((jumpTarget upper low).extractLsb' 0 6).toInt = low := by
  have hrange := of_decide_eq_true hlow
  have hbits : (jumpTarget upper low).extractLsb' 0 6 = BitVec.ofInt 6 low := by
    apply BitVec.eq_of_toNat_eq
    rw [extractLsb'_val, jumpTarget, BitVec.toNat_add, BitVec.toNat_shiftLeft, BitVec.toNat_ofNat, Nat.shiftLeft_eq,
      BitVec.toNat_ofInt, BitVec.toNat_ofInt]
    omega
  rw [hbits, BitVec.toInt_ofInt_eq_self] <;> omega

/-- jmp and jsr split a fused target into the fields it was fused from. -/
theorem jumpParts_jumpTarget {upper : Nat} {low : Int} (hupper : upper ≤ 1023) (hlow : imm6Fits low = true) :
    jumpParts (jumpTarget upper low) = (upper, low) := by
  have hhigh : ((BitVec.ofNat 16 upper <<< 6) >>> 6).toNat = upper := by
    rw [BitVec.toNat_ushiftRight, BitVec.toNat_shiftLeft, BitVec.toNat_ofNat, Nat.shiftLeft_eq, Nat.shiftRight_eq_div_pow]
    omega
  rw [jumpParts, jumpTarget_low hlow, jumpTarget, BitVec.add_sub_cancel, hhigh]

/-! ### The instructions a source line stands for -/

/-- Records at consecutive word addresses from a stand, one by one, for the instructions of a list. -/
def RecordsYield : Nat → List Record → List Instr → Prop
  | _, [], [] => True
  | a, r :: rs, i :: is => recordInstr [] a r = .ok i ∧ RecordsYield (a + 1) rs is
  | _, _, _ => False

/-- A statement at word address a stands for the instructions of a list; no statement stands for none. -/
def StmtYields (a : Nat) : Option (Key × List Operand) → List Instr → Prop
  | none, is => is = []
  | some (k, ops), is => ∃ rs, recordsOf [] k ops = .ok rs ∧ RecordsYield a rs is

/-- A line that no fusion consumed stands for its instruction (R141, R145 to R147). -/
theorem stmtYields_rewriteOne (k : Nat) {i : Instr} (hwf : i.wellFormed = true) :
    StmtYields k (disStmt k (rewriteOne i)) [i] := by
  have hplain : StmtYields k (disStmt k (.instr i)) [i] :=
    ⟨_, rfl, buildInstr_instrOperands k hwf, trivial⟩
  unfold rewriteOne
  split
  case h_1 j rB imm =>
    split
    next hsys =>
      obtain ⟨rfl, rfl, heven⟩ := hsys
      have hrange := of_decide_eq_true hwf
      have hsys : imm % 2 = 0 ∧ -32 ≤ imm ∧ imm ≤ 30 := by omega
      refine ⟨_, rfl, ?_, trivial⟩
      simp only [recordInstr, operandValue_intOperand, bind, Except.bind, if_pos hsys, pure, Except.pure]
    next => exact hplain
  case h_2 rA rB imm =>
    split
    next hzero =>
      subst hzero
      refine ⟨_, rfl, ?_, trivial⟩
      simp only [recordInstr, operandReg_regOperand, operandValue_intOperand, bind, Except.bind, pure, Except.pure]
    next => exact hplain
  case h_3 rA =>
    split
    next hzero => subst hzero; exact ⟨_, rfl, rfl, trivial⟩
    next => exact hplain
  case h_4 => exact hplain

/-- An operand that prints a number above a short form's range takes the two-word form (R131, R132). -/
theorem knownIn_natNumber_of_lt (labels : Labels) {v : Nat} {lo hi : Int} (h : hi < v) :
    knownIn labels (natNumber v) lo hi = false := by
  rw [knownIn, knownValue_natNumber]
  exact decide_eq_false (by omega)

/-- A fused ldi stands for its lui and adi (R131, R143). -/
theorem stmtYields_ldi (a k : Nat) (rT : Reg) {upper : Nat} {low : Int} (hupper : imm10Fits upper = true)
    (hnonzero : upper ≠ 0) (hlow : 0 ≤ low ∧ low ≤ 63) :
    StmtYields a (disStmt k (.ldi rT (ldiValue upper low))) [.lui rT upper, .adi rT rT low] := by
  have hupper := of_decide_eq_true hupper
  have hlong : knownIn [] (natNumber (ldiValue upper low).toNat) (-64) 63 = false :=
    knownIn_natNumber_of_lt [] (by rw [ldiValue_toNat hupper hlow]; omega)
  refine ⟨[.ldiHigh _ _, .ldiLow _ _], by rw [recordsOf, ldiRecords, hlong]; rfl, ?_, ?_, trivial⟩ <;>
    simp only [recordInstr, operandReg_regOperand, wideValue_toNat, ldiParts_ldiValue hupper hlow, bind, Except.bind,
      pure, Except.pure]

/-- The two records of a jump to a fused target stand for its lui and jlr (R132, R144). -/
theorem recordsYield_jump (a j : Nat) (rT : Reg) {upper : Nat} {low : Int} (hupper : imm10Fits upper = true)
    (hlow : imm6Fits low = true) (htarget : 32 ≤ (jumpTarget upper low).toNat) :
    RecordsYield a (jumpRecords [] j (regOperand rT) (natNumber (jumpTarget upper low).toNat))
      [.lui rT upper, .jlr j rT low] := by
  have hlong : knownIn [] (natNumber (jumpTarget upper low).toNat) (-32) 31 = false :=
    knownIn_natNumber_of_lt [] (by omega)
  rw [jumpRecords, hlong]
  refine ⟨?_, ?_, trivial⟩ <;>
    simp only [recordInstr, operandReg_regOperand, wideValue_toNat, jumpParts_jumpTarget (of_decide_eq_true hupper) hlow,
      bind, Except.bind, pure, Except.pure]

/-- What a fusion can be: an ldi of an adi, or a jmp or jsr of a jlr, with the conditions of R143 and R144. -/
theorem fusePair_cases {rT : Reg} {upper : Nat} {next : Instr} {l : DisLine} (h : fusePair rT upper next = some l) :
    (∃ low, next = .adi rT rT low ∧ (0 ≤ low ∧ low ≤ 63) ∧ upper ≠ 0 ∧ l = .ldi rT (ldiValue upper low)) ∨
    (∃ low, next = .jlr 2 rT low ∧ 32 ≤ (jumpTarget upper low).toNat ∧ l = .jmp rT (jumpTarget upper low)) ∨
    (∃ low, next = .jlr 1 rT low ∧ 32 ≤ (jumpTarget upper low).toNat ∧ l = .jsr rT (jumpTarget upper low)) := by
  unfold fusePair at h
  split at h
  case h_1 rA rB low =>
    split at h
    next hcond =>
      obtain ⟨rfl, rfl, hlo, hhi, hupper⟩ := hcond
      exact .inl ⟨low, rfl, ⟨hlo, hhi⟩, hupper, (Option.some.inj h).symm⟩
    next => cases h
  case h_2 j rB low =>
    split at h
    next hcond =>
      obtain ⟨rfl, htarget⟩ := hcond
      split at h
      next hj => subst hj; exact .inr (.inl ⟨low, rfl, htarget, (Option.some.inj h).symm⟩)
      next =>
        split at h
        next hj => subst hj; exact .inr (.inr ⟨low, rfl, htarget, (Option.some.inj h).symm⟩)
        next => cases h
    next => cases h
  case h_3 => cases h

/-- A fused line stands for the two instructions it was fused from, wherever it stands (R143, R144). -/
theorem stmtYields_fusePair (a k : Nat) {rT : Reg} {upper : Nat} {next : Instr} {l : DisLine}
    (h : fusePair rT upper next = some l) (hlui : (Instr.lui rT upper).wellFormed = true)
    (hnext : next.wellFormed = true) : StmtYields a (disStmt k l) [.lui rT upper, next] := by
  obtain ⟨low, rfl, hlow, hupper, rfl⟩ | ⟨low, rfl, htarget, rfl⟩ | ⟨low, rfl, htarget, rfl⟩ := fusePair_cases h
  · exact stmtYields_ldi a k rT hlui hupper hlow
  · exact ⟨_, rfl, recordsYield_jump a 2 rT hlui (wellFormed_jlr hnext).2 htarget⟩
  · exact ⟨_, rfl, recordsYield_jump a 1 rT hlui (wellFormed_jlr hnext).2 htarget⟩

/-! ### Assembling lines one after another (R124, R129) -/

/-- An instruction the generator accepts (R127). -/
def Emittable (i : Instr) : Prop := i.wellFormed = true ∧ encode i ≠ 0

theorem emit_of_emittable {i : Instr} (h : Emittable i) : emit i = .ok (encode i) := by
  rw [emit, if_pos h.1, if_neg h.2]

/-- The parser has placed records for exactly the instructions of a list, with no label and no error. -/
structure Parsed.Built (p : Parsed) (is : List Instr) : Prop where
  labels : p.labels = []
  errors : p.errors = []
  addr : p.addr = is.length
  words : generate [] p.records = (is.map encode, [])

theorem built_start : Parsed.start.Built [] := ⟨rfl, rfl, rfl, rfl⟩

theorem generate_append (labels : Labels) (xs ys : List Placed) :
    generate labels (xs ++ ys) =
      ((generate labels xs).1 ++ (generate labels ys).1, (generate labels xs).2 ++ (generate labels ys).2) := by
  induction xs with
  | nil => rfl
  | cons x xs ih =>
    simp only [List.cons_append, generate, ih]
    split <;> rfl

/-- Records that stand for acceptable instructions generate their words. -/
theorem generate_placeFrom (n : Nat) {a : Nat} {rs : List Record} {is : List Instr} (hyield : RecordsYield a rs is)
    (hemit : ∀ i ∈ is, Emittable i) : generate [] (placeFrom n a rs) = (is.map encode, []) := by
  induction rs generalizing a is with
  | nil =>
    cases is with
    | nil => rfl
    | cons => exact hyield.elim
  | cons r rs ih =>
    cases is with
    | nil => exact hyield.elim
    | cons i is =>
      obtain ⟨hinstr, hrest⟩ := hyield
      obtain ⟨hi, his⟩ := List.forall_mem_cons.mp hemit
      simp only [placeFrom, generate, recordWord, hinstr, emit_of_emittable hi, ih hrest his, List.map_cons]

theorem length_eq_of_recordsYield {a : Nat} {rs : List Record} {is : List Instr} (hyield : RecordsYield a rs is) :
    rs.length = is.length := by
  induction rs generalizing a is with
  | nil =>
    cases is with
    | nil => rfl
    | cons => exact hyield.elim
  | cons r rs ih =>
    cases is with
    | nil => exact hyield.elim
    | cons i is => rw [List.length_cons, List.length_cons, ih hyield.2]

/-- A line without a label adds the instructions its statement stands for. -/
theorem built_addLine {p : Parsed} {before is : List Instr} {st : Option (Key × List Operand)} (hp : p.Built before)
    (n : Nat) (hyield : StmtYields before.length st is) (hemit : ∀ i ∈ is, Emittable i) :
    (addLine p n (.ok ⟨none, st⟩)).Built (before ++ is) := by
  obtain ⟨hlabels, herrors, haddr, hwords⟩ := hp
  cases st with
  | none =>
    cases (show is = [] from hyield)
    rw [List.append_nil]
    exact ⟨hlabels, herrors, haddr, hwords⟩
  | some st =>
    obtain ⟨rs, hrecords, hyield⟩ := hyield
    have hplaced : addLine p n (.ok ⟨none, some st⟩) =
        { p with addr := p.addr + rs.length, records := p.records ++ placeFrom n p.addr rs } := by
      simp only [addLine, addStmt, hlabels, hrecords]
    rw [hplaced]
    refine ⟨hlabels, herrors, ?addr, ?words⟩
    case addr => simp only [haddr, length_eq_of_recordsYield hyield, List.length_append]
    case words =>
      simp only [generate_append, hwords, haddr, generate_placeFrom n hyield hemit, List.map_append, List.append_nil]

/-- The lines of a listing add the instructions it was made from: each line one, or a blank line none and the fused line
after it two (R148). -/
theorem built_addLines_fuse (is : List Instr) {p : Parsed} {before : List Instr} (n : Nat) (hp : p.Built before)
    (hemit : ∀ i ∈ is, Emittable i) :
    (addLines p n ((disSource before.length (fuse is)).map .ok)).Built (before ++ is) := by
  induction is using fuse.induct generalizing p before n with
  | case1 rT upper next rest l hfuse ih =>
    obtain ⟨hlui, hnext, hrest⟩ : _ ∧ _ ∧ _ := by simpa only [List.forall_mem_cons] using hemit
    have hblank := built_addLine hp n (st := none) rfl (List.forall_mem_nil _)
    have hpair := built_addLine hblank (n + 1)
      (stmtYields_fusePair _ (before.length + 1) hfuse hlui.1 hnext.1) (by simp [hlui, hnext])
    have := ih (n + 2) hpair hrest
    simpa [fuse, hfuse, disSource, disStmt, addLines] using this
  | case2 rT upper next rest hfuse ih =>
    obtain ⟨hlui, hrest⟩ := List.forall_mem_cons.mp hemit
    have hone := built_addLine hp n (stmtYields_rewriteOne before.length hlui.1) (by simpa using hlui)
    have := ih (n + 1) hone hrest
    simpa [fuse, hfuse, disSource, addLines] using this
  | case3 i rest hnofuse ih =>
    obtain ⟨hi, hrest⟩ := List.forall_mem_cons.mp hemit
    have hone := built_addLine hp n (stmtYields_rewriteOne before.length hi.1) (by simpa using hi)
    have := ih (n + 1) hone hrest
    rw [fuse]
    · simpa [disSource, addLines] using this
    · exact hnofuse
  | case4 => rw [List.append_nil]; exact hp

/-- Lines that were all built within the size limit assemble to their words (R129, R135). -/
theorem assembleLines_of_built {lines : List (Except CodecError Line)} {is : List Instr}
    (h : (addLines .start 1 lines).Built is) (hlength : is.length ≤ 65536) :
    assembleLines lines = .ok (is.map encode) := by
  have hsize : ¬ maxCodeWords < (is.map encode).length := by rw [List.length_map]; exact Nat.not_lt.mpr hlength
  simp only [assembleLines, h.labels, h.errors, h.words, ne_eq, not_true_eq_false, if_false, if_neg hsize]

/-- The listing of a code segment, as source lines, assembles to its words (R148, R150). -/
theorem assembleLines_listing {words : List Word} (hnonzero : ∀ w ∈ words, w ≠ 0) (hlength : words.length ≤ 65536) :
    assembleLines ((disSource 0 (fuse (words.map decodeWord))).map .ok) = .ok words := by
  have hemit : ∀ i ∈ words.map decodeWord, Emittable i := by
    intro i hi
    obtain ⟨w, hw, rfl⟩ := List.mem_map.mp hi
    exact ⟨wellFormed_decodeWord w, by rw [encode_decodeWord]; exact hnonzero w hw⟩
  have hbuilt := built_addLines_fuse _ 1 built_start hemit
  rw [List.nil_append] at hbuilt
  have hself : (words.map decodeWord).map encode = words := by
    rw [List.map_map]; exact List.map_id'' encode_decodeWord words
  exact (assembleLines_of_built hbuilt (by rwa [List.length_map])).trans (congrArg _ hself)

end Sys2Proof.Machine

/-! ## The lexer by rules (30_encoding.md R120) -/

namespace Sys2Proof.Machine

theorem length_dropWhile_le (p : Char → Bool) (t : Text) : (t.dropWhile p).length ≤ t.length :=
  (List.dropWhile_suffix p).length_le

/-- A token takes characters away and adds none. -/
theorem lexToken_length_le (c : Char) (rest : Text) : (lexToken c rest).2.length ≤ rest.length := by
  have hsymbol : (lexSymbol c rest).2.length ≤ rest.length := by
    unfold lexSymbol
    split
    next after hafter =>
      have hle := (congrArg List.length hafter).symm.trans_le (length_dropWhile_le _ rest)
      exact Nat.le_of_succ_le hle
    next => exact length_dropWhile_le _ rest
  have hnumber : (lexNumber c rest).2.length ≤ rest.length := by
    unfold lexNumber
    split <;> exact length_dropWhile_le _ rest
  have hstring : (lexString rest).2.length ≤ rest.length := by
    unfold lexString
    split
    next after hafter =>
      have hle := (congrArg List.length hafter).symm.trans_le (length_dropWhile_le _ rest)
      exact Nat.le_of_succ_le hle
    next => exact length_dropWhile_le _ rest
  unfold lexToken
  split_ifs
  case pos => exact le_rfl
  case pos => exact hsymbol
  case pos => exact hnumber
  case pos => exact hstring
  all_goals exact le_rfl

/-- Fuel beyond the length of the text does not matter. -/
theorem lexWith_fuel {f g : Nat} {t : Text} (hf : t.length < f) (hg : t.length < g) : lexWith f t = lexWith g t := by
  induction f generalizing g t with
  | zero => exact absurd hf (Nat.not_lt_zero _)
  | succ f ih =>
    cases g with
    | zero => exact absurd hg (Nat.not_lt_zero _)
    | succ g =>
      cases t with
      | nil => rfl
      | cons c rest =>
        rw [List.length_cons] at hf hg
        have htoken := lexToken_length_le c rest
        have hcomment := length_dropWhile_le (fun d => !(d == '\n')) rest
        simp only [lexWith]
        rw [ih (g := g) (t := rest) (by omega) (by omega), ih (g := g) (t := (lexToken c rest).2) (by omega) (by omega),
          ih (g := g) (t := rest.dropWhile _) (by omega) (by omega)]

/-- A blank is skipped. -/
theorem lex_blank {c : Char} (h : isBlank c = true) (rest : Text) : lex (c :: rest) = lex rest := by
  rw [lex, List.length_cons, lexWith, if_pos h, lex]

/-- A character that is neither blank nor `#` starts a token. -/
theorem lex_token {c : Char} (hblank : isBlank c = false) (hcomment : c ≠ '#') (rest : Text) :
    lex (c :: rest) = (lexToken c rest).1 :: lex (lexToken c rest).2 := by
  have hlength := lexToken_length_le c rest
  rw [lex, List.length_cons, lexWith, if_neg (by rw [hblank]; decide), if_neg (by simpa using hcomment), lex,
    lexWith_fuel (g := (lexToken c rest).2.length + 1) (by omega) (by omega)]

theorem lex_newline (rest : Text) : lex ('\n' :: rest) = .newline :: lex rest := lex_token rfl (by decide) rest

theorem lex_minus (rest : Text) : lex ('-' :: rest) = .minus :: lex rest := lex_token rfl (by decide) rest

/-! ### Symbols and numbers before a separator -/

/-- The characters a listing puts after a symbol or a number. -/
def isSeparator (c : Char) : Bool := c == ' ' || c == ',' || c == '\n'

/-- A text that begins with a separator. -/
def Separated (t : Text) : Prop := ∃ c rest, t = c :: rest ∧ isSeparator c = true

theorem separator_cases {c : Char} (h : isSeparator c = true) : c = ' ' ∨ c = ',' ∨ c = '\n' := by
  simpa [isSeparator, or_assoc] using h

/-- A separator ends a run of symbol characters. -/
theorem isSymbolRest_separator {c : Char} (h : isSeparator c = true) : isSymbolRest c = false := by
  obtain rfl | rfl | rfl := separator_cases h <;> decide

theorem takeWhile_word {word tail : Text} (hword : ∀ c ∈ word, isSymbolRest c = true) (htail : Separated tail) :
    (word ++ tail).takeWhile isSymbolRest = word := by
  obtain ⟨c, rest, rfl, hc⟩ := htail
  rw [List.takeWhile_append_of_pos hword, List.takeWhile_cons_of_neg (by rw [isSymbolRest_separator hc]; decide),
    List.append_nil]

theorem dropWhile_word {word tail : Text} (hword : ∀ c ∈ word, isSymbolRest c = true) (htail : Separated tail) :
    (word ++ tail).dropWhile isSymbolRest = tail := by
  obtain ⟨c, rest, rfl, hc⟩ := htail
  rw [List.dropWhile_append_of_pos hword, List.dropWhile_cons_of_neg (by rw [isSymbolRest_separator hc]; decide)]

/-- A character that starts a symbol or a number is no blank, no comment and no newline. -/
theorem wordStart_plain {c : Char} (h : isSymbolStart c = true ∨ c.isDigit = true) :
    isBlank c = false ∧ c ≠ '#' ∧ c ≠ '\n' := by
  have hne : ∀ d : Char, (isSymbolStart d || d.isDigit) = false → c ≠ d := by
    rintro d hd rfl
    rw [Bool.or_eq_true_iff.mpr h] at hd
    cases hd
  have hspace := hne ' ' (by decide)
  have htab := hne '\t' (by decide)
  have hcomma := hne ',' (by decide)
  exact ⟨by simp [isBlank, hspace, htab, hcomma], hne '#' (by decide), hne '\n' (by decide)⟩

/-- Digits and symbol starts are apart. -/
theorem isSymbolStart_of_isDigit {c : Char} (h : c.isDigit = true) : isSymbolStart c = false := by
  have hrange : 48 ≤ c.toNat ∧ c.toNat ≤ 57 := by
    simpa [Char.isDigit, UInt32.le_iff_toNat_le] using h
  have halpha : c.isAlpha = false := by
    simp [Char.isAlpha, Char.isUpper, Char.isLower, UInt32.le_iff_toNat_le]
    omega
  have hunderscore : c ≠ '_' := by rintro rfl; cases h
  have hdot : c ≠ '.' := by rintro rfl; cases h
  simp [isSymbolStart, halpha, hunderscore, hdot]

/-- A text that is one symbol. -/
def IsSymbol : Text → Prop
  | [] => False
  | c :: rest => isSymbolStart c = true ∧ ∀ d ∈ rest, isSymbolRest d = true

/-- A text that is one number, with its value. -/
def IsNumber (v : Nat) : Text → Prop
  | [] => False
  | c :: rest => c.isDigit = true ∧ (∀ d ∈ rest, isSymbolRest d = true) ∧ numberValue (c :: rest) = some v

theorem lexSymbol_word (c : Char) {word tail : Text} (hword : ∀ d ∈ word, isSymbolRest d = true)
    (htail : Separated tail) : lexSymbol c (word ++ tail) = (.symbol (c :: word), tail) := by
  rw [lexSymbol, takeWhile_word hword htail, dropWhile_word hword htail]
  obtain ⟨d, rest, rfl, hd⟩ := htail
  obtain rfl | rfl | rfl := separator_cases hd <;> rfl

theorem lex_symbol {name tail : Text} (hname : IsSymbol name) (htail : Separated tail) :
    lex (name ++ tail) = .symbol name :: lex tail := by
  cases name with
  | nil => exact hname.elim
  | cons c word =>
    obtain ⟨hc, hword⟩ := hname
    obtain ⟨hblank, hcomment, hnewline⟩ := wordStart_plain (.inl hc)
    have htoken : lexToken c (word ++ tail) = (.symbol (c :: word), tail) := by
      rw [lexToken, if_neg (by simpa using hnewline), if_pos hc, lexSymbol_word c hword htail]
    rw [List.cons_append, lex_token hblank hcomment, htoken]

theorem lex_number {v : Nat} {digits tail : Text} (hdigits : IsNumber v digits) (htail : Separated tail) :
    lex (digits ++ tail) = .number v :: lex tail := by
  cases digits with
  | nil => exact hdigits.elim
  | cons c word =>
    obtain ⟨hc, hword, hvalue⟩ := hdigits
    obtain ⟨hblank, hcomment, hnewline⟩ := wordStart_plain (.inr hc)
    have hsymbol := isSymbolStart_of_isDigit hc
    have htoken : lexToken c (word ++ tail) = (.number v, tail) := by
      rw [lexToken, if_neg (by simpa using hnewline), if_neg (by rw [hsymbol]; decide), if_pos hc, lexNumber,
        takeWhile_word hword htail, dropWhile_word hword htail, hvalue]
    rw [List.cons_append, lex_token hblank hcomment, htoken]

/-! ## Printed numbers (30_encoding.md R120, R141) -/

/-- One more digit at the end of a digit sequence. -/
theorem digitsValue_concat {base : Nat} {digit : Char → Option Nat} {acc n d : Nat} {t : Text} {c : Char}
    (ht : digitsValue base digit acc t = some n) (hc : digit c = some d) :
    digitsValue base digit acc (t ++ [c]) = some (n * base + d) := by
  induction t generalizing acc with
  | nil =>
    cases Option.some.inj ht
    simp only [List.nil_append, digitsValue, hc]
  | cons x t ih =>
    rw [digitsValue] at ht
    rw [List.cons_append, digitsValue]
    split at ht
    next => cases ht
    next => exact ih ht

theorem hexDigit?_hexDigit : ∀ d < 16, hexDigit? (hexDigit d) = some d := by decide

theorem isSymbolRest_hexDigit : ∀ d < 16, isSymbolRest (hexDigit d) = true := by decide

theorem decDigit?_digit : ∀ d < 10, decDigit? (Char.ofNat ('0'.toNat + d)) = some d := by decide

theorem isDigit_digit : ∀ d < 10, (Char.ofNat ('0'.toNat + d)).isDigit = true := by decide

theorem digitsValue_hexDigits {n v : Nat} (h : v < 16 ^ n) : digitsValue 16 hexDigit? 0 (hexDigits n v) = some v := by
  induction n generalizing v with
  | zero => rw [Nat.pow_zero] at h; cases Nat.lt_one_iff.mp h; rfl
  | succ n ih =>
    have hhigh : v / 16 < 16 ^ n := Nat.div_lt_of_lt_mul (by rwa [Nat.pow_succ'] at h)
    rw [hexDigits, digitsValue_concat (ih hhigh) (hexDigit?_hexDigit _ (Nat.mod_lt _ (by decide))), Nat.div_add_mod']

theorem isSymbolRest_hexDigits (n v : Nat) : ∀ c ∈ hexDigits n v, isSymbolRest c = true := by
  induction n generalizing v with
  | zero => exact List.forall_mem_nil _
  | succ n ih =>
    refine List.forall_mem_append.mpr ⟨ih _, fun c hc => ?_⟩
    rw [List.mem_singleton.mp hc]
    exact isSymbolRest_hexDigit _ (Nat.mod_lt _ (by decide))

theorem digitsValue_decDigits {fuel v : Nat} (h : v < 10 ^ fuel) :
    digitsValue 10 decDigit? 0 (decDigits fuel v) = some v := by
  induction fuel generalizing v with
  | zero => rw [Nat.pow_zero] at h; cases Nat.lt_one_iff.mp h; rfl
  | succ fuel ih =>
    rw [decDigits]
    split
    next hsmall => simp only [digitsValue, decDigit?_digit v hsmall, Nat.zero_mul, Nat.zero_add]
    next =>
      have hhigh : v / 10 < 10 ^ fuel := Nat.div_lt_of_lt_mul (by rwa [Nat.pow_succ'] at h)
      rw [digitsValue_concat (ih hhigh) (decDigit?_digit _ (Nat.mod_lt _ (by decide))), Nat.div_add_mod']

theorem isDigit_decDigits (fuel v : Nat) : ∀ c ∈ decDigits fuel v, c.isDigit = true := by
  induction fuel generalizing v with
  | zero => exact List.forall_mem_nil _
  | succ fuel ih =>
    rw [decDigits]
    split
    next hsmall => exact List.forall_mem_singleton.mpr (isDigit_digit v hsmall)
    next =>
      exact List.forall_mem_append.mpr
        ⟨ih _, List.forall_mem_singleton.mpr (isDigit_digit _ (Nat.mod_lt _ (by decide)))⟩

theorem decDigits_ne_nil (fuel v : Nat) : decDigits (fuel + 1) v ≠ [] := by
  rw [decDigits]
  split
  · exact List.cons_ne_nil _ _
  · exact List.append_ne_nil_of_right_ne_nil _ (List.cons_ne_nil _ _)

/-- A sequence of decimal digits is not read as hexadecimal: its second character is no `x`. -/
theorem numberValue_decimal {c : Char} {rest : Text} (h : ∀ d ∈ rest, d.isDigit = true) :
    numberValue (c :: rest) = digitsValue 10 decDigit? 0 (c :: rest) := by
  unfold numberValue
  split
  next d rest' heq =>
    obtain ⟨-, rfl⟩ := List.cons.inj heq
    exact absurd (h 'x' List.mem_cons_self) (by decide)
  next d rest' heq =>
    obtain ⟨-, rfl⟩ := List.cons.inj heq
    exact absurd (h 'X' List.mem_cons_self) (by decide)
  next heq => rw [heq]
  next heq => cases heq

theorem isSymbolRest_of_isDigit {c : Char} (h : c.isDigit = true) : isSymbolRest c = true := by
  rw [isSymbolRest, h, Bool.or_true, Bool.true_or]

/-- The numbers a format prints in full. -/
def NumFormat.Holds (v : Nat) : NumFormat → Prop
  | .hex n => 0 < n ∧ v < 16 ^ n
  | .dec => v < 10 ^ 8

/-- A number its format can hold is printed as that number. -/
theorem isNumber_printNumber {f : NumFormat} {v : Nat} (h : f.Holds v) : IsNumber v (printNumber f v) := by
  cases f with
  | hex n =>
    obtain ⟨hpos, hv⟩ := h
    have hdigits := digitsValue_hexDigits hv
    refine ⟨rfl, List.forall_mem_cons.mpr ⟨rfl, isSymbolRest_hexDigits n v⟩, ?_⟩
    cases n with
    | zero => exact absurd hpos (Nat.lt_irrefl 0)
    | succ n =>
      obtain ⟨d, rest, hcons⟩ := List.exists_cons_of_ne_nil
        (List.append_ne_nil_of_right_ne_nil (hexDigits n (v / 16)) (List.cons_ne_nil (hexDigit (v % 16)) []))
      rw [hexDigits, hcons] at hdigits ⊢
      exact hdigits
  | dec =>
    obtain ⟨d, rest, hcons⟩ := List.exists_cons_of_ne_nil (decDigits_ne_nil 7 v)
    have hdigits := isDigit_decDigits 8 v
    have hvalue := digitsValue_decDigits h
    rw [printNumber]
    rw [hcons] at hdigits hvalue ⊢
    obtain ⟨hd, hrest⟩ := List.forall_mem_cons.mp hdigits
    exact ⟨hd, fun c hc => isSymbolRest_of_isDigit (hrest c hc), (numberValue_decimal hrest).trans hvalue⟩

end Sys2Proof.Machine

/-! ## Reading a listing back (30_encoding.md R121, R122, R141, R149, R150) -/

namespace Sys2Proof.Machine

/-! ### The tokens of a printed line -/

/-- The token of what an operand names. -/
def Atom.token : Atom → Token
  | .num v => .number v
  | .sym x => .symbol x

/-- The tokens of an operand's text. -/
def Operand.tokens (o : Operand) : List Token := (if o.negated then [.minus] else []) ++ [o.atom.token]

/-- The tokens of a statement's text. -/
def stmtTokens : Option (Key × List Operand) → List Token
  | none => []
  | some (k, ops) => .symbol (keyName k) :: ops.flatMap Operand.tokens

/-- A format prints an operand so that the lexer reads it back. -/
def Operand.Printable (f : NumFormat) (o : Operand) : Prop :=
  match o.atom with
  | .num v => f.Holds v
  | .sym x => IsSymbol x

/-- Every operand has a format of its own that prints it. -/
def OperandsPrintable : List NumFormat → List Operand → Prop
  | _, [] => True
  | [], _ :: _ => False
  | f :: fs, o :: os => o.Printable f ∧ OperandsPrintable fs os

/-- A statement that is printed as the parser reads it. -/
def StmtPrintable (st : Key × List Operand) : Prop :=
  st.1 ≠ .directive ∧ st.2.length = numOperands st.1 ∧ OperandsPrintable (operandFormats st.1) st.2

theorem lex_printOperand {f : NumFormat} {o : Operand} {tail : Text} (ho : o.Printable f) (htail : Separated tail) :
    lex (printOperand f o ++ tail) = o.tokens ++ lex tail := by
  obtain ⟨negated, atom⟩ := o
  have hatom : lex (printOperand f ⟨false, atom⟩ ++ tail) = atom.token :: lex tail := by
    cases atom with
    | num v => exact lex_number (isNumber_printNumber ho) htail
    | sym x => exact lex_symbol ho htail
  cases negated with
  | false => exact hatom
  | true => exact (lex_minus _).trans (congrArg _ hatom)

theorem separated_newline (tail : Text) : Separated ('\n' :: tail) := ⟨_, _, rfl, rfl⟩

/-- Operands begin with a blank or a comma, and where there is none the line ends. -/
theorem separated_printOperands (first : Bool) (fs : List NumFormat) (os : List Operand) (tail : Text) :
    Separated (printOperands first fs os ++ '\n' :: tail) := by
  cases fs with
  | nil => exact separated_newline tail
  | cons f fs =>
    cases os with
    | nil => exact separated_newline tail
    | cons o os => cases first <;> exact ⟨_, _, rfl, rfl⟩

theorem lex_printOperands (first : Bool) {fs : List NumFormat} {os : List Operand} (h : OperandsPrintable fs os)
    (tail : Text) :
    lex (printOperands first fs os ++ '\n' :: tail) = os.flatMap Operand.tokens ++ .newline :: lex tail := by
  induction os generalizing first fs with
  | nil => cases fs <;> exact lex_newline tail
  | cons o os ih =>
    cases fs with
    | nil => exact h.elim
    | cons f fs =>
      obtain ⟨ho, hos⟩ := h
      have hrest := lex_printOperand ho (separated_printOperands false fs os tail)
      rw [ih false hos] at hrest
      cases first with
      | true => simpa [printOperands, lex_blank (c := ' ') rfl] using hrest
      | false => simpa [printOperands, lex_blank (c := ' ') rfl, lex_blank (c := ',') rfl] using hrest

theorem isSymbol_keyName (k : Key) : IsSymbol (keyName k) := by
  cases k with
  | op m => cases m <;> exact ⟨rfl, List.all_eq_true.mp rfl⟩
  | _ => exact ⟨rfl, List.all_eq_true.mp rfl⟩

theorem keyOf_keyName {k : Key} (h : k ≠ .directive) : keyOf (keyName k) = some k := by
  cases k with
  | op m => cases m <;> rfl
  | directive => exact absurd rfl h
  | _ => rfl

/-- A printed line is read as its tokens and a newline. -/
theorem lex_printLine {st : Option (Key × List Operand)} (h : ∀ s ∈ st, StmtPrintable s) (tail : Text) :
    lex (printLine ⟨none, st⟩ ++ '\n' :: tail) = stmtTokens st ++ .newline :: lex tail := by
  match st with
  | none => exact lex_newline tail
  | some (k, ops) =>
    obtain ⟨-, -, hops⟩ := h _ rfl
    rw [printLine, List.append_assoc, lex_symbol (isSymbol_keyName k) (separated_printOperands _ _ _ _),
      lex_printOperands true hops, stmtTokens, List.cons_append]

/-! ### Parsing the tokens -/

/-- The tokens a listing consists of, newlines apart. -/
def Token.isWord : Token → Bool
  | .symbol _ | .number _ | .minus => true
  | _ => false

theorem isWord_operandTokens (o : Operand) : ∀ t ∈ o.tokens, t.isWord = true := by
  obtain ⟨negated, atom⟩ := o
  cases negated <;> cases atom <;> simp [Operand.tokens, Atom.token, Token.isWord]

theorem isWord_stmtTokens (st : Option (Key × List Operand)) : ∀ t ∈ stmtTokens st, t.isWord = true := by
  match st with
  | none => exact List.forall_mem_nil _
  | some (k, ops) =>
    refine List.forall_mem_cons.mpr ⟨rfl, fun t ht => ?_⟩
    obtain ⟨o, -, ht⟩ := List.mem_flatMap.mp ht
    exact isWord_operandTokens o t ht

theorem parseOperands_tokens (ops : List Operand) :
    parseOperands ops.length (ops.flatMap Operand.tokens) = .ok ops := by
  induction ops with
  | nil => rfl
  | cons o ops ih =>
    obtain ⟨negated, atom⟩ := o
    cases negated <;> cases atom <;>
      simp [Operand.tokens, Atom.token, parseOperands, ih, Except.map]

theorem parseStmt_tokens {st : Option (Key × List Operand)} (h : ∀ s ∈ st, StmtPrintable s) :
    parseStmt (stmtTokens st) = .ok st := by
  match st with
  | none => rfl
  | some (k, ops) =>
    obtain ⟨hkey, hlength, -⟩ := h _ rfl
    have hops := parseOperands_tokens ops
    rw [hlength] at hops
    rw [stmtTokens, parseStmt, keyOf_keyName hkey]
    cases k with
    | directive => exact absurd rfl hkey
    | _ => exact congrArg (Except.map _) hops

theorem parseLine_tokens {st : Option (Key × List Operand)} (h : ∀ s ∈ st, StmtPrintable s) :
    parseLine (stmtTokens st) = .ok ⟨none, st⟩ := by
  have hnoError : (stmtTokens st).contains .error = false := by
    rw [List.contains_eq_mem]
    exact decide_eq_false fun hmem => absurd (isWord_stmtTokens st _ hmem) (by decide)
  have hparse := parseStmt_tokens h
  unfold parseLine
  rw [hnoError]
  match st with
  | none => rfl
  | some (k, ops) => exact congrArg (Except.map _) hparse

/-- A newline ends a line's tokens. -/
theorem splitLines_line {ts : List Token} (h : ∀ t ∈ ts, t.isWord = true) (rest : List Token) :
    splitLines (ts ++ .newline :: rest) = ts :: splitLines rest := by
  induction ts with
  | nil => rfl
  | cons t ts ih =>
    obtain ⟨ht, hts⟩ := List.forall_mem_cons.mp h
    cases t with
    | symbol | number | minus => rw [List.cons_append, splitLines, ih hts] <;> exact Token.noConfusion
    | _ => cases ht

/-- A line of a listing: no label, and a statement that reads back. -/
def LinePrintable (l : Line) : Prop := l.label = none ∧ ∀ s ∈ l.stmt, StmtPrintable s

/-- Printed lines are parsed as themselves. -/
theorem parse_printed {lines : List Line} (h : ∀ l ∈ lines, LinePrintable l) :
    (splitLines (lex ((lines.map printLine).flatMap (fun t => t ++ ['\n'])))).map parseLine = lines.map .ok := by
  induction lines with
  | nil => rfl
  | cons l lines ih =>
    obtain ⟨⟨hlabel, hstmt⟩, hlines⟩ := List.forall_mem_cons.mp h
    obtain ⟨label, st⟩ := l
    cases hlabel
    rw [List.map_cons, List.flatMap_cons, List.append_assoc, List.singleton_append, lex_printLine hstmt,
      splitLines_line (isWord_stmtTokens st), List.map_cons, parseLine_tokens hstmt, ih hlines, List.map_cons]

/-! ### Every line of a listing is printed as the parser reads it -/

theorem printable_regOperand (f : NumFormat) (r : Reg) : (regOperand r).Printable f := by
  have hdigit : ∀ r : Reg, isSymbolRest (Char.ofNat ('0'.toNat + r.val)) = true := by decide
  exact ⟨rfl, List.forall_mem_singleton.mpr (hdigit r)⟩

theorem printable_natNumber {f : NumFormat} {v : Nat} (h : f.Holds v) : (natNumber v).Printable f := h

theorem printable_intOperand {f : NumFormat} {v : Int} (h : f.Holds v.natAbs) : (intOperand v).Printable f := h

/-- Two hexadecimal digits hold every imm7. -/
theorem holds_imm7 {imm : Int} (h : imm7Fits imm = true) : (NumFormat.hex 2).Holds imm.natAbs := by
  have hrange := of_decide_eq_true h
  exact ⟨by decide, by omega⟩

theorem holds_imm6 {imm : Int} (h : imm6Fits imm = true) : (NumFormat.hex 2).Holds imm.natAbs := by
  have hrange := of_decide_eq_true h
  exact ⟨by decide, by omega⟩

theorem holds_word_dec (w : Word) : NumFormat.dec.Holds w.toNat := Nat.lt_trans w.isLt (by decide)

/-- The statement of a listed instruction reads back. -/
theorem stmtPrintable_instr (k : Nat) {i : Instr} (hwf : i.wellFormed = true) :
    StmtPrintable (.op i.mnemonic, instrOperands k i) := by
  refine ⟨Key.noConfusion, by cases i <;> rfl, ?_⟩
  cases i
  case ldw | ldb | stw | stb | adi =>
    exact ⟨printable_regOperand _ _, printable_regOperand _ _, printable_intOperand (holds_imm7 hwf), trivial⟩
  case beq =>
    exact ⟨printable_regOperand _ _, printable_regOperand _ _, printable_natNumber (holds_word_dec _), trivial⟩
  case lui =>
    have hrange := of_decide_eq_true hwf
    exact ⟨printable_regOperand _ _, printable_natNumber ⟨by decide, by omega⟩, trivial⟩
  case jlr j rB imm =>
    have hj := of_decide_eq_true (wellFormed_jlr hwf).1
    exact ⟨printable_regOperand _ _, printable_natNumber (show j < 10 ^ 8 by omega),
      printable_intOperand (holds_imm6 (wellFormed_jlr hwf).2), trivial⟩
  case add | adc | sub | sbb | bic | bis | xor =>
    exact ⟨printable_regOperand _ _, printable_regOperand _ _, printable_regOperand _ _, trivial⟩
  case lsp | lio | ssp | sio | y04 | y05 | y06 =>
    exact ⟨printable_regOperand _ _, printable_regOperand _ _, trivial⟩
  case not | neg | sxt | swb | lsr | lsl | asr => exact ⟨printable_regOperand _ _, trivial⟩
  all_goals exact trivial

/-- A line of a listing reads back at whatever index it stands. -/
def DisLine.Printable (l : DisLine) : Prop := ∀ k, ∀ s ∈ disStmt k l, StmtPrintable s

theorem printable_blank : DisLine.blank.Printable := fun _ _ h => nomatch h

theorem printable_of_stmt {l : DisLine} {st : Nat → Key × List Operand} (hst : ∀ k, disStmt k l = some (st k))
    (h : ∀ k, StmtPrintable (st k)) : l.Printable := by
  intro k s hs
  rw [hst k] at hs
  cases hs
  exact h k

theorem printable_rewriteOne {i : Instr} (hwf : i.wellFormed = true) : (rewriteOne i).Printable := by
  have hplain : (DisLine.instr i).Printable := printable_of_stmt (fun _ => rfl) (fun k => stmtPrintable_instr k hwf)
  unfold rewriteOne
  split
  case h_1 j rB imm =>
    split
    next =>
      have hrange := of_decide_eq_true (wellFormed_jlr hwf).2
      exact printable_of_stmt (fun _ => rfl) (fun _ => ⟨Key.noConfusion, rfl,
        printable_intOperand (show imm.natAbs < 10 ^ 8 by omega), trivial⟩)
    next => exact hplain
  case h_2 rA rB imm =>
    split
    next => exact printable_of_stmt (fun _ => rfl) (fun _ => ⟨Key.noConfusion, rfl, printable_regOperand _ _,
      printable_intOperand (holds_imm7 hwf), trivial⟩)
    next => exact hplain
  case h_3 rA =>
    split
    next => exact printable_of_stmt (fun _ => rfl) (fun _ => ⟨Key.noConfusion, rfl, trivial⟩)
    next => exact hplain
  case h_4 => exact hplain

theorem printable_fusePair {rT : Reg} {upper : Nat} {next : Instr} {l : DisLine}
    (h : fusePair rT upper next = some l) : l.Printable := by
  obtain ⟨low, -, -, -, rfl⟩ | ⟨low, -, -, rfl⟩ | ⟨low, -, -, rfl⟩ := fusePair_cases h
  case inl =>
    exact printable_of_stmt (fun _ => rfl) (fun _ => ⟨Key.noConfusion, rfl, printable_regOperand _ _,
      printable_natNumber ⟨by decide, (ldiValue upper low).isLt⟩, trivial⟩)
  all_goals
    exact printable_of_stmt (fun _ => rfl) (fun _ => ⟨Key.noConfusion, rfl, printable_regOperand _ _,
      printable_natNumber (holds_word_dec _), trivial⟩)

theorem printable_fuse {is : List Instr} (hwf : ∀ i ∈ is, i.wellFormed = true) : ∀ l ∈ fuse is, l.Printable := by
  induction is using fuse.induct with
  | case1 rT upper next rest l hfuse ih =>
    obtain ⟨-, -, hrest⟩ : _ ∧ _ ∧ _ := by simpa only [List.forall_mem_cons] using hwf
    rw [fuse, hfuse]
    exact List.forall_mem_cons.mpr ⟨printable_blank, List.forall_mem_cons.mpr ⟨printable_fusePair hfuse, ih hrest⟩⟩
  | case2 rT upper next rest hfuse ih =>
    obtain ⟨hlui, hrest⟩ := List.forall_mem_cons.mp hwf
    rw [fuse, hfuse]
    exact List.forall_mem_cons.mpr ⟨printable_rewriteOne hlui, ih hrest⟩
  | case3 i rest hnofuse ih =>
    obtain ⟨hi, hrest⟩ := List.forall_mem_cons.mp hwf
    rw [fuse]
    · exact List.forall_mem_cons.mpr ⟨printable_rewriteOne hi, ih hrest⟩
    · exact hnofuse
  | case4 => exact List.forall_mem_nil _

theorem linePrintable_disSource {ls : List DisLine} (h : ∀ l ∈ ls, l.Printable) (k : Nat) :
    ∀ line ∈ disSource k ls, LinePrintable line := by
  induction ls generalizing k with
  | nil => exact List.forall_mem_nil _
  | cons l ls ih =>
    obtain ⟨hl, hls⟩ := List.forall_mem_cons.mp h
    exact List.forall_mem_cons.mpr ⟨⟨rfl, hl k⟩, ih hls (k + 1)⟩

/-! ### The round trip (R150) -/

/-- The generator emits no zero word (R127). -/
theorem emit_ne_zero {i : Instr} {w : Word} (h : emit i = .ok w) : w ≠ 0 := by
  unfold emit at h
  split at h
  next =>
    split at h
    next => cases h
    next hnonzero => cases h; exact hnonzero
  next => cases h

theorem recordWord_ne_zero {labels : Labels} {pc : Nat} {r : Record} {w : Word} (h : recordWord labels pc r = .ok w) :
    w ≠ 0 := by
  unfold recordWord at h
  split at h
  next => exact emit_ne_zero h
  next => cases h

theorem generate_ne_zero (labels : Labels) (rs : List Placed) : ∀ w ∈ (generate labels rs).1, w ≠ 0 := by
  induction rs with
  | nil => exact List.forall_mem_nil _
  | cons r rs ih =>
    rw [generate]
    split
    next w hw => exact List.forall_mem_cons.mpr ⟨recordWord_ne_zero hw, ih⟩
    next => exact ih

/-- What the assembler accepts is a code segment: no zero word, and at most 64 K words (R127, R135). -/
theorem assembleLines_codeSegment {lines : List (Except CodecError Line)} {words : List Word}
    (h : assembleLines lines = .ok words) : (∀ w ∈ words, w ≠ 0) ∧ words.length ≤ maxCodeWords := by
  unfold assembleLines at h
  dsimp only at h
  split_ifs at h with herrors hout hsize
  cases h
  exact ⟨generate_ne_zero _ _, Nat.not_lt.mp hsize⟩

/-- A code segment is listed whole (R140). -/
theorem codeSegment_eq_self {words : List Word} (hnonzero : ∀ w ∈ words, w ≠ 0)
    (hlength : words.length ≤ maxCodeWords) : codeSegment words = words := by
  rw [codeSegment, List.take_of_length_le hlength, List.takeWhile_eq_self_iff]
  intro w hw
  simpa using hnonzero w hw

/-- Settles O60: the source assembles to a code segment (`assembleLines_codeSegment`); the listing of a code segment is parsed
as its lines (`parse_printed`), and those assemble to the words they list (`assembleLines_listing`). -/
theorem sourceRoundTrip : Obligations.SourceRoundTrip := by
  intro source words hassemble
  obtain ⟨hnonzero, hlength⟩ := assembleLines_codeSegment hassemble
  have hwf : ∀ i ∈ words.map decodeWord, i.wellFormed = true := by
    intro i hi
    obtain ⟨w, -, rfl⟩ := List.mem_map.mp hi
    exact wellFormed_decodeWord w
  rw [assemble, disassemble, listingLines, codeSegment_eq_self hnonzero hlength,
    parse_printed (linePrintable_disSource (printable_fuse hwf) 0)]
  exact assembleLines_listing hnonzero hlength

end Sys2Proof.Machine

/-! ## Base memory instructions (41_base_memory.md) -/

namespace Sys2Proof.Machine

/-! ### Decoding the base rows (30_encoding.md R110) -/

/-- An RRI pattern as bit 15 on the left, in numbers. -/
theorem rriPattern_toNat (op : BitVec 3) (i : BitVec 7) (b a : BitVec 3) :
    (op ++ i ++ b ++ a : Word).toNat = op.toNat * 8192 + i.toNat * 64 + b.toNat * 8 + a.toNat := by
  rw [append_toNat, append_toNat, append_toNat]
  omega

/-- An RRI pattern decodes by its op, with rB and rA as written and the immediate sign-extended. -/
theorem decodeWord_rriPattern {op : BitVec 3} {f : Reg → Reg → Int → Instr}
    (hf : ∀ w, fieldOp w = op.toFin → decodeWord w = f (fieldA w) (fieldB w) (fieldImm7 w))
    (i : BitVec 7) (b a : BitVec 3) : decodeWord (op ++ i ++ b ++ a) = f a.toFin b.toFin i.toInt := by
  have hi := i.isLt
  have hb := b.isLt
  have ha := a.isLt
  have hw := rriPattern_toNat op i b a
  have hop : fieldOp (op ++ i ++ b ++ a) = op.toFin := Fin.ext (by rw [fieldOp_val, hw, BitVec.val_toFin]; omega)
  have hA : fieldA (op ++ i ++ b ++ a) = a.toFin := Fin.ext (by rw [fieldA_val, hw, BitVec.val_toFin]; omega)
  have hB : fieldB (op ++ i ++ b ++ a) = b.toFin := Fin.ext (by rw [fieldB_val, hw, BitVec.val_toFin]; omega)
  have hI : (op ++ i ++ b ++ a : Word).extractLsb' 6 7 = i :=
    BitVec.eq_of_toNat_eq (by rw [extractLsb'_val, hw]; omega)
  rw [hf _ hop, hA, hB, fieldImm7, hI]

theorem decodeWord_of_fieldOp_zero {w : Word} (h : fieldOp w = 0) :
    decodeWord w = .ldw (fieldA w) (fieldB w) (fieldImm7 w) := by
  simp only [decodeWord, h]

theorem decodeWord_of_fieldOp_two {w : Word} (h : fieldOp w = 2) :
    decodeWord w = .stw (fieldA w) (fieldB w) (fieldImm7 w) := by
  simp only [decodeWord, h]

theorem decodeWord_of_fieldOp_three {w : Word} (h : fieldOp w = 3) :
    decodeWord w = .stb (fieldA w) (fieldB w) (fieldImm7 w) := by
  simp only [decodeWord, h]

/-- The words below 0x2000 are the ldw row. -/
theorem decodeWord_ldw_row {w : Word} (h : w.toNat < 0x2000) :
    decodeWord w = .ldw (fieldA w) (fieldB w) (fieldImm7 w) :=
  decodeWord_of_fieldOp_zero (Fin.ext (by rw [fieldOp_val]; omega))

/-- 0x0000 is the only word of `ldw r0, r0, 0` (R205). -/
theorem eq_zero_of_decodeWord_ldw_zero {w : Word} (h : decodeWord w = .ldw 0 0 0) : w = 0x0000 := by
  rw [← encode_decodeWord w, h]
  rfl

/-- Settles O5: the decoder, run on each of the nine words. -/
theorem knownWordsDecode : Obligations.KnownWordsDecode :=
  ⟨rfl, rfl, rfl, rfl, rfl, rfl, rfl, rfl, rfl⟩

/-! ### What a load and a store do at an address that translates, and at one that does not (R206) -/

section
variable {s : State} {addr : Word} {wi : Nat} {lane : Bool}

theorem load_untranslated (h : translateData s addr = none) (w : Width) (rA : Reg) :
    load w rA addr s = raise exMemory s := by
  rw [load, memRead, h]

theorem load_word (h : translateData s addr = some (wi, lane)) (rA : Reg) :
    load .word rA addr s = s.setX rA (physRead s.mem wi) := by
  rw [load, memRead, h]

theorem store_untranslated (h : translateData s addr = none) (w : Width) (v : Word) :
    store w addr v s = raise exMemory s := by
  rw [store, memWrite_none h]

theorem store_word (h : translateData s addr = some (wi, lane)) (v : Word) :
    store .word addr v s = { s with mem := physWrite s.mem wi v } := by
  rw [store, memWrite_word h]

theorem store_byte (h : translateData s addr = some (wi, lane)) (v : Word) :
    store .byte addr v s = { s with mem := s.mem.write (2 * wi + lane.toNat) (loByte v) } := by
  rw [store, memWrite_byte h]

end

/-! ### The loads and stores as instructions -/

/-- ldw apart from `ldw r0, r0, 0` is the load of a word (R200). -/
theorem exec_ldw_load {rA rB : Reg} {imm : Int} (h : ¬(rA = 0 ∧ rB = 0 ∧ imm = 0)) (s : State) :
    exec (.ldw rA rB imm) s = .next (load .word rA (basePlusImm s rB imm) s) :=
  congrArg Host.Outcome.next (if_neg h)

/-- `ldw r0, r0, 0` raises ExIllegal in every state: its address is not looked at (R205). -/
theorem exec_ldw_zero (s : State) : exec (.ldw 0 0 0) s = .next (raise exIllegal s) := rfl

theorem exec_stw (rA rB : Reg) (imm : Int) (s : State) :
    exec (.stw rA rB imm) s = .next (store .word (basePlusImm s rB imm) (s.x rA) s) := rfl

theorem exec_stb (rA rB : Reg) (imm : Int) (s : State) :
    exec (.stb rA rB imm) s = .next (store .byte (basePlusImm s rB imm) (s.x rA) s) := rfl

/-- Settles O23: the row by its op; a load at a translated address (`load_word`) and at one that does not translate
(`load_untranslated`), and the excepted word. -/
theorem ldwLoadsWord : Obligations.LdwLoadsWord := by
  refine ⟨decodeWord_rriPattern fun _ => decodeWord_of_fieldOp_zero,
    fun rA rB imm s => ⟨fun hload => ⟨?word, ?fault⟩, ?zero⟩⟩
  case word =>
    intro wi lane hsome
    rw [exec_ldw_load hload, basePlusImm, immWord, load_word hsome]
  case fault =>
    intro hnone
    rw [exec_ldw_load hload, basePlusImm, immWord, load_untranslated hnone]
  case zero =>
    rintro ⟨rfl, rfl, rfl⟩
    exact exec_ldw_zero s

/-- Settles O24: a nonzero word of the row is not `ldw r0, r0, 0` (`eq_zero_of_decodeWord_ldw_zero`), so it is a load, with the
two outcomes of `load_cases`. -/
theorem zeroWordIsIllegal : Obligations.ZeroWordIsIllegal := by
  refine ⟨exec_ldw_zero, fun w s hnonzero hrow => ⟨_, _, _, decodeWord_ldw_row hrow, ?_⟩⟩
  have hdecode := decodeWord_ldw_row hrow
  have hload : ¬(fieldA w = 0 ∧ fieldB w = 0 ∧ fieldImm7 w = 0) := by
    rintro ⟨hA, hB, hI⟩
    rw [hA, hB, hI] at hdecode
    exact hnonzero (eq_zero_of_decodeWord_ldw_zero hdecode)
  rw [hdecode, exec_ldw_load hload]
  obtain ⟨-, hfault⟩ | ⟨_, _, -, hvalue⟩ := load_cases .word (fieldA w) (basePlusImm s (fieldB w) (fieldImm7 w)) s
  · exact .inr (congrArg _ hfault)
  · exact .inl ⟨_, congrArg _ hvalue⟩

/-- Settles O26: the row by its op; the word written (`store_word`), its two bytes read back and the others kept by the memory
laws; nothing written where the address does not translate (`store_untranslated`). -/
theorem stwStoresWord : Obligations.StwStoresWord := by
  refine ⟨decodeWord_rriPattern fun _ => decodeWord_of_fieldOp_two, fun rA rB imm s => ⟨?word, ?fault⟩⟩
  case word =>
    intro wi lane hsome
    refine ⟨_, by rw [exec_stw, basePlusImm, immWord, store_word hsome], rfl, fun hwf => ⟨?low, ?high⟩,
      fun a hlow hhigh => read_physWrite_ne s.mem (s.x rA) hlow hhigh⟩
    case low => exact (read_physWrite hwf ..).trans (if_pos rfl)
    case high => exact (read_physWrite hwf ..).trans ((if_neg (by omega)).trans (if_pos rfl))
  case fault =>
    intro hnone
    rw [exec_stw, basePlusImm, immWord, store_untranslated hnone]

/-- The byte address of a lane, by cases and as a sum. -/
theorem laneAddr_eq (wi : Nat) (lane : Bool) : (if lane then 2 * wi + 1 else 2 * wi) = 2 * wi + lane.toNat := by
  cases lane <;> rfl

/-- Settles O27: the row by its op; the one byte written (`store_byte`), read back and the others kept by the memory laws;
nothing written where the address does not translate (`store_untranslated`). -/
theorem stbStoresByte : Obligations.StbStoresByte := by
  refine ⟨decodeWord_rriPattern fun _ => decodeWord_of_fieldOp_three, fun rA rB imm s => ⟨?byte, ?fault⟩⟩
  case byte =>
    intro wi lane hsome
    rw [laneAddr_eq]
    exact ⟨_, by rw [exec_stb, basePlusImm, immWord, store_byte hsome], rfl, fun hwf => read_write_self hwf _ _,
      fun a ha => read_write_ne s.mem _ ha⟩
  case fault =>
    intro hnone
    rw [exec_stb, basePlusImm, immWord, store_untranslated hnone]

end Sys2Proof.Machine

/-! ## Base branch and immediate instructions (42_base_alu_branch.md) -/

namespace Sys2Proof.Machine

/-! ### The row of lui (30_encoding.md R110) -/

theorem rjxPattern_toNat (op : BitVec 3) (i : BitVec 10) (a : BitVec 3) :
    (op ++ i ++ a : Word).toNat = op.toNat * 8192 + i.toNat * 8 + a.toNat := by
  rw [append_toNat, append_toNat]
  omega

theorem decodeWord_of_fieldOp_six {w : Word} (h : fieldOp w = 6) :
    decodeWord w = .lui (fieldA w) (fieldImm10 w) := by
  simp only [decodeWord, h]

/-- The RJX pattern of op 6 decodes to lui, with rA as written and the immediate unsigned. -/
theorem decodeWord_rjxPattern (i : BitVec 10) (a : BitVec 3) :
    decodeWord (0b110#3 ++ i ++ a) = .lui a.toFin i.toNat := by
  have hi := i.isLt
  have ha := a.isLt
  have hw := rjxPattern_toNat 0b110#3 i a
  have hop : fieldOp (0b110#3 ++ i ++ a) = 6 := Fin.ext (by rw [fieldOp_val, hw, BitVec.toNat_ofNat]; omega)
  have hA : fieldA (0b110#3 ++ i ++ a) = a.toFin := Fin.ext (by rw [fieldA_val, hw, BitVec.val_toFin]; omega)
  have hI : fieldImm10 (0b110#3 ++ i ++ a) = i.toNat := by
    rw [fieldImm10_val, hw, BitVec.toNat_ofNat]
    omega
  rw [decodeWord_of_fieldOp_six hop, hA, hI]

/-! ### The immediate instructions and the values they write -/

theorem exec_lui (rA : Reg) (imm : Nat) (s : State) : exec (.lui rA imm) s = .next (s.setX rA (upperWord imm)) := rfl

theorem exec_adi (rA rB : Reg) (imm : Int) (s : State) :
    exec (.adi rA rB imm) s = .next (s.setX rA (basePlusImm s rB imm)) := rfl

/-- What is written to r1..r7 of the current mode is read back. -/
theorem x_setX_self (s : State) {r : Reg} (v : Word) (hr : r ≠ 0) : (s.setX r v).x r = v := by
  rw [State.x, setX_mode, State.setX, reg_setReg_self s s.mode v hr]

/-- The shift by six as a product, modulo 2^16 (R104). -/
theorem upperWord_eq_mul (imm : Nat) : upperWord imm = BitVec.ofNat 16 (imm * 64) := by
  apply BitVec.eq_of_toNat_eq
  rw [upperWord, BitVec.toNat_shiftLeft, BitVec.toNat_ofNat, BitVec.toNat_ofNat, Nat.shiftLeft_eq]
  omega

/-- Nothing carries out of the low six bits: the sum a lui and an adi leave is the two fields side by side. -/
theorem upperWord_add_immWord_toNat {upper low : Nat} (hupper : upper ≤ 1023) (hlow : low ≤ 63) :
    (upperWord upper + immWord low).toNat = (upper <<< 6) ||| low := by
  rw [upperWord_eq_mul, immWord, BitVec.ofInt_natCast, BitVec.toNat_add, BitVec.toNat_ofNat, BitVec.toNat_ofNat,
    ← Nat.shiftLeft_add_eq_or_of_lt (by omega), Nat.shiftLeft_eq]
  omega

/-- Settles O30: the row by its op (`decodeWord_rjxPattern`); the shift as a product (`upperWord_eq_mul`); the pair by reading
rT back after each of its two writes (`x_setX_self`) and adding without a carry (`upperWord_add_immWord_toNat`). -/
theorem luiLoadsUpper : Obligations.LuiLoadsUpper := by
  refine ⟨decodeWord_rjxPattern, ?product, ?pair⟩
  case product =>
    intro rA imm s _
    rw [exec_lui, upperWord_eq_mul]
  case pair =>
    intro rT upper low s hrT hupper hlow
    refine ⟨_, _, exec_lui rT upper s, exec_adi rT rT low _, ?_⟩
    rw [x_setX_self _ _ hrT, basePlusImm, x_setX_self s _ hrT, upperWord_add_immWord_toNat hupper hlow]

end Sys2Proof.Machine

/-! ## Jump and link register (43_jlr.md) -/

namespace Sys2Proof.Machine

/-! ### The row of jlr (30_encoding.md R110) -/

theorem jlrPattern_toNat (i : BitVec 6) (b j : BitVec 3) :
    (0b1110#4 ++ i ++ b ++ j : Word).toNat = 57344 + i.toNat * 64 + b.toNat * 8 + j.toNat := by
  rw [append_toNat, append_toNat, append_toNat, BitVec.toNat_ofNat]
  omega

/-- Top bits 1110: the word is a jlr. -/
theorem decodeWord_eq_jlr {w : Word} (h : w.toNat / 4096 = 14) :
    decodeWord w = .jlr (fieldA w) (fieldB w) (fieldImm6 w) := by
  have hbit : w.getLsbD 12 = false := by rw [getLsbD_twelve, h]; rfl
  simp only [decodeWord, fieldOp_eq_seven (w := w) (by omega), hbit, Bool.false_eq_true, if_false]

/-- The jlr pattern decodes with j and rB as written and the immediate sign-extended. -/
theorem decodeWord_jlrPattern (i : BitVec 6) (b j : BitVec 3) :
    decodeWord (0b1110#4 ++ i ++ b ++ j) = .jlr j.toNat b.toFin i.toInt := by
  have hi := i.isLt
  have hb := b.isLt
  have hj := j.isLt
  have hw := jlrPattern_toNat i b j
  have hJ : (fieldA (0b1110#4 ++ i ++ b ++ j)).val = j.toNat := by rw [fieldA_val, hw]; omega
  have hB : fieldB (0b1110#4 ++ i ++ b ++ j) = b.toFin := Fin.ext (by rw [fieldB_val, hw, BitVec.val_toFin]; omega)
  have hI : (0b1110#4 ++ i ++ b ++ j : Word).extractLsb' 6 6 = i :=
    BitVec.eq_of_toNat_eq (by rw [extractLsb'_val, hw]; omega)
  rw [decodeWord_eq_jlr (by omega), hJ, hB, fieldImm6, hI]

/-! ### The sub-opcodes of jlr (R243, R244) -/

theorem exec_jlr (j : Nat) (rB : Reg) (imm : Int) (s : State) : exec (.jlr j rB imm) s = execJlr j rB imm s := rfl

/-- j = 2 jumps to base plus immediate. -/
theorem exec_jlr_jump (rB : Reg) (imm : Int) (s : State) :
    exec (.jlr 2 rB imm) s = .next (jumpTo (basePlusImm s rB imm) s) := rfl

/-- j = 3..7 is neither sys nor call nor jump. -/
theorem exec_jlr_reserved {j : Nat} (hj : 3 ≤ j) (rB : Reg) (imm : Int) (s : State) :
    exec (.jlr j rB imm) s = .next (raise exIllegal s) := by
  rw [exec_jlr, execJlr, if_neg (by omega), if_neg (by omega), if_neg (by omega)]

/-- Settles O33: the row with j = 2 (`decodeWord_jlrPattern`), and the jump to base plus immediate (`exec_jlr_jump`). -/
theorem jumpSetsPc : Obligations.JumpSetsPc :=
  ⟨fun i b => decodeWord_jlrPattern i b 0b010#3, exec_jlr_jump⟩

/-! ### A jlr line of the listing (30_encoding.md R125, R127, R145) -/

/-- Only j = 0 is rewritten, to sys. -/
theorem rewriteOne_jlr {j : Nat} (hj : j ≠ 0) (rB : Reg) (imm : Int) :
    rewriteOne (.jlr j rB imm) = .instr (.jlr j rB imm) :=
  if_neg fun hsys => hj hsys.1

/-- A jlr whose operands fit is accepted by the generator: its prefix makes its word nonzero. -/
theorem emittable_jlr {j : Nat} {imm : Int} (hj : j ≤ 7) (himm : -32 ≤ imm ∧ imm ≤ 31) (rB : Reg) :
    Emittable (.jlr j rB imm) := by
  refine ⟨Bool.and_eq_true_iff.mpr ⟨decide_eq_true hj, decide_eq_true himm⟩, fun hzero => ?_⟩
  have hword : (encodeJlr j rB imm).toNat = 0 := congrArg BitVec.toNat hzero
  rw [encodeJlr_toNat] at hword
  omega

/-- The printed operands of an acceptable instruction assemble to its word. -/
theorem recordWord_instrOperands (k : Nat) {i : Instr} (h : Emittable i) :
    recordWord [] k (.plain i.mnemonic (instrOperands k i)) = .ok (encode i) := by
  rw [recordWord, recordInstr, buildInstr_instrOperands k h.1]
  exact emit_of_emittable h

/-- Settles O34: the row for every j (`decodeWord_jlrPattern`); ExIllegal for j = 3..7 (`exec_jlr_reserved`); the line stays a
jlr (`rewriteOne_jlr`), and its operands assemble to its word (`recordWord_instrOperands`). -/
theorem reservedJlrIsIllegal : Obligations.ReservedJlrIsIllegal := by
  refine ⟨decodeWord_jlrPattern, fun j rB imm hlow hhigh => ⟨exec_jlr_reserved hlow rB imm, ?line, ?word⟩⟩
  case line => exact rewriteOne_jlr (by omega) rB imm
  case word =>
    exact fun hmin hmax k => ⟨rfl, recordWord_instrOperands k (emittable_jlr hhigh ⟨hmin, hmax⟩ rB)⟩

end Sys2Proof.Machine

/-! ## XOPs (44_xop.md) -/

namespace Sys2Proof.Machine

/-! ### The XOP rows (30_encoding.md R103, R110) -/

/-- An RRR pattern in numbers: the seven top bits, rC, rB, rA. -/
theorem rrrPattern_toNat (head : BitVec 7) (c b a : BitVec 3) :
    (head ++ c ++ b ++ a : Word).toNat = head.toNat * 512 + c.toNat * 64 + b.toNat * 8 + a.toNat := by
  rw [append_toNat, append_toNat, append_toNat]
  omega

/-- A pattern whose seven top bits are 1111 and an xop decodes by its xop, with rA, rB and rC as written. -/
theorem decodeWord_rrrPattern {head : BitVec 7} {xop : BitVec 3} {f : Reg → Reg → Reg → Instr}
    (hhead : head.toNat = 0b1111 * 8 + xop.toNat)
    (hf : ∀ w, fieldXop w = xop.toFin → decodeXop w = f (fieldA w) (fieldB w) (fieldC w))
    (c b a : BitVec 3) : decodeWord (head ++ c ++ b ++ a) = f a.toFin b.toFin c.toFin := by
  have hx := xop.isLt
  have hc := c.isLt
  have hb := b.isLt
  have ha := a.isLt
  have hw := rrrPattern_toNat head c b a
  have hxop : fieldXop (head ++ c ++ b ++ a) = xop.toFin :=
    Fin.ext (by rw [fieldXop_val, hw, BitVec.val_toFin]; omega)
  have hA : fieldA (head ++ c ++ b ++ a) = a.toFin := Fin.ext (by rw [fieldA_val, hw, BitVec.val_toFin]; omega)
  have hB : fieldB (head ++ c ++ b ++ a) = b.toFin := Fin.ext (by rw [fieldB_val, hw, BitVec.val_toFin]; omega)
  have hC : fieldC (head ++ c ++ b ++ a) = c.toFin := Fin.ext (by rw [fieldC_val, hw, BitVec.val_toFin]; omega)
  rw [decodeWord_eq_decodeXop (by omega), hf _ hxop, hA, hB, hC]

theorem decodeXop_of_fieldXop_four {w : Word} (h : fieldXop w = 4) :
    decodeXop w = .bic (fieldA w) (fieldB w) (fieldC w) := by
  simp only [decodeXop, h]

theorem decodeXop_of_fieldXop_five {w : Word} (h : fieldXop w = 5) :
    decodeXop w = .bis (fieldA w) (fieldB w) (fieldC w) := by
  simp only [decodeXop, h]

theorem decodeXop_of_fieldXop_six {w : Word} (h : fieldXop w = 6) :
    decodeXop w = .xor (fieldA w) (fieldB w) (fieldC w) := by
  simp only [decodeXop, h]

/-! ### The bitwise operations and the values they write (R264 to R266) -/

theorem exec_bic (rA rB rC : Reg) (s : State) :
    exec (.bic rA rB rC) s = .next (s.setX rA (bitClear (s.x rB) (s.x rC))) := rfl

theorem exec_bis (rA rB rC : Reg) (s : State) :
    exec (.bis rA rB rC) s = .next (s.setX rA (s.x rB ||| s.x rC)) := rfl

theorem exec_xor (rA rB rC : Reg) (s : State) :
    exec (.xor rA rB rC) s = .next (s.setX rA (s.x rB ^^^ s.x rC)) := rfl

/-- "rC AND NOT rB": above bit 15 the complement reads as zero too, and there so does rC. -/
theorem getLsbD_bitClear (b c : Word) (i : Nat) : (bitClear b c).getLsbD i = (c.getLsbD i && !b.getLsbD i) := by
  rw [bitClear, BitVec.getLsbD_and, BitVec.getLsbD_not]
  by_cases hi : i < 16
  · rw [decide_eq_true hi, Bool.true_and]
  · rw [BitVec.getLsbD_of_ge c i (Nat.le_of_not_lt hi), Bool.false_and, Bool.false_and]

/-- Settles O38: the rows by their xop (`decodeWord_rrrPattern`); each operation writes one word to rA (`exec_bic`, `exec_bis`,
`exec_xor`), whose bits `getLsbD_bitClear` and the library's laws of or and xor give. -/
theorem bitwiseOperations : Obligations.BitwiseOperations :=
  ⟨decodeWord_rrrPattern (xop := 4) rfl fun _ => decodeXop_of_fieldXop_four,
    decodeWord_rrrPattern (xop := 5) rfl fun _ => decodeXop_of_fieldXop_five,
    decodeWord_rrrPattern (xop := 6) rfl fun _ => decodeXop_of_fieldXop_six,
    fun rA rB rC s =>
      ⟨⟨_, exec_bic rA rB rC s, getLsbD_bitClear (s.x rB) (s.x rC)⟩,
        ⟨_, exec_bis rA rB rC s, fun _ => BitVec.getLsbD_or⟩,
        ⟨_, exec_xor rA rB rC s, fun _ => BitVec.getLsbD_xor⟩⟩⟩

end Sys2Proof.Machine

/-! ## ZOPs (46_zop.md) -/

namespace Sys2Proof.Machine

/-! ### The ZOP rows (30_encoding.md R103, R110) -/

/-- Top bits 1111111111: the word is decoded by its zop. -/
theorem decodeWord_eq_decodeZop {w : Word} (h : w.toNat / 64 = 1023) : decodeWord w = decodeZop w := by
  have hyop : fieldC w = 7 := Fin.ext (by rw [fieldC_val, h]; rfl)
  rw [decodeWord_eq_decodeYop (by omega)]
  simp only [decodeYop, hyop]

/-- A pattern whose thirteen top bits are 1111111111 and a zop decodes by its zop, with rA as written. -/
theorem decodeWord_rxxPattern {head : BitVec 13} {zop : Fin 8} {f : Reg → Instr}
    (hhead : head.toNat = 1023 * 8 + zop.val) (hf : ∀ w, fieldB w = zop → decodeZop w = f (fieldA w))
    (a : BitVec 3) : decodeWord (head ++ a) = f a.toFin := by
  have ha := a.isLt
  have hw : (head ++ a : Word).toNat = head.toNat * 8 + a.toNat := append_toNat head a
  have hB : fieldB (head ++ a) = zop := Fin.ext (by rw [fieldB_val, hw]; omega)
  have hA : fieldA (head ++ a) = a.toFin := Fin.ext (by rw [fieldA_val, hw, BitVec.val_toFin]; omega)
  rw [decodeWord_eq_decodeZop (by omega), hf _ hB, hA]

/-! ### The bits of not, sxt and swb (R320, R322, R323) -/

theorem exec_not (rA : Reg) (s : State) : exec (.not rA) s = .next (s.setX rA (~~~s.x rA)) := rfl

theorem exec_sxt (rA : Reg) (s : State) : exec (.sxt rA) s = .next (s.setX rA (signExtendByte (s.x rA))) := rfl

theorem exec_swb (rA : Reg) (s : State) : exec (.swb rA) s = .next (s.setX rA (swapBytes (s.x rA))) := rfl

theorem getLsbD_loByte (x : Word) {i : Nat} (hi : i < 8) : (loByte x).getLsbD i = x.getLsbD i := by
  rw [loByte, BitVec.getLsbD_extractLsb', decide_eq_true hi, Bool.true_and, Nat.zero_add]

theorem getLsbD_hiByte (x : Word) {i : Nat} (hi : i < 8) : (hiByte x).getLsbD i = x.getLsbD (i + 8) := by
  rw [hiByte, BitVec.getLsbD_extractLsb', decide_eq_true hi, Bool.true_and, Nat.add_comm]

theorem getLsbD_complement (x : Word) {i : Nat} (hi : i < 16) : (~~~x).getLsbD i = !x.getLsbD i := by
  rw [BitVec.getLsbD_not, decide_eq_true hi, Bool.true_and]

/-- Above the low byte every bit is the byte's sign, bit 7. -/
theorem getLsbD_signExtendByte (x : Word) {i : Nat} (hi : i < 16) :
    (signExtendByte x).getLsbD i = x.getLsbD (if i < 8 then i else 7) := by
  rw [signExtendByte, BitVec.getLsbD_signExtend, decide_eq_true hi, Bool.true_and]
  split
  case isTrue hlow => exact getLsbD_loByte x hlow
  case isFalse => rw [BitVec.msb_eq_getLsbD_last, getLsbD_loByte x (by decide)]

/-- Exchanging the bytes moves every bit by eight places, round the word. -/
theorem getLsbD_swapBytes (x : Word) {i : Nat} (hi : i < 16) :
    (swapBytes x).getLsbD i = x.getLsbD ((i + 8) % 16) := by
  rw [swapBytes, getLsbD_wordOfBytes]
  split
  case isTrue hlow => rw [getLsbD_hiByte x hlow, Nat.mod_eq_of_lt (by omega)]
  case isFalse hhigh => rw [getLsbD_loByte x (by omega), show (i + 8) % 16 = i - 8 by omega]

/-- Settles O39: the rows by their zop (`decodeWord_rxxPattern`); each operation writes one word to rA (`exec_not`, `exec_sxt`,
`exec_swb`), whose bits `getLsbD_complement`, `getLsbD_signExtendByte` and `getLsbD_swapBytes` give. -/
theorem complementExtendSwap : Obligations.ComplementExtendSwap :=
  ⟨decodeWord_rxxPattern (zop := 0) rfl fun _ hzop => by simp only [decodeZop, hzop],
    decodeWord_rxxPattern (zop := 2) rfl fun _ hzop => by simp only [decodeZop, hzop],
    decodeWord_rxxPattern (zop := 3) rfl fun _ hzop => by simp only [decodeZop, hzop],
    fun rA s =>
      ⟨⟨_, exec_not rA s, fun _ => getLsbD_complement (s.x rA)⟩,
        ⟨_, exec_sxt rA s, fun _ => getLsbD_signExtendByte (s.x rA)⟩,
        ⟨_, exec_swb rA s, fun _ => getLsbD_swapBytes (s.x rA)⟩⟩⟩

/-! ### The shifts by one, as division and doubling (R324 to R326)

The bit shifted out goes to hc whatever rA is: `alu1Carry` writes it beside the register, and only the register's write is
void for r0. -/

theorem exec_lsr (rA : Reg) (s : State) :
    exec (.lsr rA) s = .next { s.setX rA (shiftRight (s.x rA)).1 with hc := (s.x rA).getLsbD 0 } := rfl

theorem exec_lsl (rA : Reg) (s : State) :
    exec (.lsl rA) s = .next { s.setX rA (shiftLeft (s.x rA)).1 with hc := (s.x rA).getLsbD 15 } := rfl

theorem exec_asr (rA : Reg) (s : State) :
    exec (.asr rA) s = .next { s.setX rA (shiftRightArith (s.x rA)).1 with hc := (s.x rA).getLsbD 0 } := rfl

theorem shiftRight_toNat (x : Word) : (shiftRight x).1.toNat = x.toNat / 2 := by
  rw [shiftRight, BitVec.toNat_ushiftRight, Nat.shiftRight_one]

theorem shiftLeft_toNat (x : Word) : (shiftLeft x).1.toNat = 2 * x.toNat % 0x10000 := by
  rw [shiftLeft, BitVec.toNat_shiftLeft, Nat.shiftLeft_eq, Nat.mul_comm]

/-- Keeping the sign is halving the signed value, rounded down: -1 stays -1. -/
theorem shiftRightArith_toInt (x : Word) : (shiftRightArith x).1.toInt = x.toInt / 2 := by
  rw [shiftRightArith, BitVec.toInt_sshiftRight, Int.shiftRight_eq_div_pow]
  rfl

/-- Settles O40: the rows by their zop (`decodeWord_rxxPattern`); each shift writes one word to rA and the bit shifted out to hc
(`exec_lsr`, `exec_lsl`, `exec_asr`), and the word's value is `shiftRight_toNat`, `shiftLeft_toNat` or
`shiftRightArith_toInt`. -/
theorem shiftsByOne : Obligations.ShiftsByOne :=
  ⟨decodeWord_rxxPattern (zop := 4) rfl fun _ hzop => by simp only [decodeZop, hzop],
    decodeWord_rxxPattern (zop := 5) rfl fun _ hzop => by simp only [decodeZop, hzop],
    decodeWord_rxxPattern (zop := 6) rfl fun _ hzop => by simp only [decodeZop, hzop],
    fun rA s =>
      ⟨⟨_, exec_lsr rA s, shiftRight_toNat (s.x rA)⟩,
        ⟨_, exec_lsl rA s, shiftLeft_toNat (s.x rA)⟩,
        ⟨_, exec_asr rA s, shiftRightArith_toInt (s.x rA)⟩⟩⟩

end Sys2Proof.Machine

/-! ## VOPs (47_vop.md) -/

namespace Sys2Proof.Machine

/-! ### The VOPs as instructions -/

theorem exec_rti (s : State) : exec .rti s = .next (privileged returnFromException s) := rfl

theorem exec_rtl (s : State) : exec .rtl s = .next { s with pc := s.link s.mode } := rfl

theorem exec_di (s : State) : exec .di s = .next (privileged (fun t => { t with en := false }) s) := rfl

theorem exec_ei (s : State) : exec .ei s = .next (privileged (fun t => { t with en := true }) s) := rfl

theorem exec_hlt (s : State) :
    exec .hlt s = .next (privileged (fun t => { t with run := false, haltReason := some .hlt }) s) := rfl

theorem exec_brk (s : State) : exec .brk s = .next (privileged (fun t => t.record (.brk t.pc)) s) := rfl

theorem link_user (s : State) : s.link .user = s.linkU := rfl

theorem link_kernel (s : State) : s.link .kernel = s.linkK := rfl

/-- Settles O48: the one equation of rtl (`exec_rtl`), with the Link that each mode names. -/
theorem rtlReturns : Obligations.RtlReturns := by
  refine ⟨rfl, fun s => ⟨fun huser => ?user, fun hkernel => ?kernel⟩⟩
  case user => rw [exec_rtl, huser, link_user]
  case kernel => rw [exec_rtl, hkernel, link_kernel]

/-! ### Privileged instructions by mode (R358) -/

theorem exec_privileged_user {i : Instr} {f : State → State} {s : State}
    (hexec : exec i s = .next (privileged f s)) (huser : s.mode = .user) : exec i s = .next (raise exIllegal s) := by
  rw [hexec, privileged_user huser]

theorem exec_privileged_kernel {i : Instr} {f : State → State} {s : State}
    (hexec : exec i s = .next (privileged f s)) (hkernel : s.mode = .kernel) : exec i s = .next (f s) := by
  rw [hexec, privileged_kernel hkernel]

/-- Settles O49: di and ei are privileged (`exec_di`, `exec_ei`), so each mode has its own outcome (`exec_privileged_kernel`,
`exec_privileged_user`). -/
theorem disableEnable : Obligations.DisableEnable := by
  refine ⟨rfl, rfl, fun s => ⟨fun hkernel => ?kernel, fun huser => ?user⟩⟩
  case kernel => exact ⟨exec_privileged_kernel (exec_di s) hkernel, exec_privileged_kernel (exec_ei s) hkernel⟩
  case user => exact ⟨exec_privileged_user (exec_di s) huser, exec_privileged_user (exec_ei s) huser⟩

/-- No exception was raised between `s` and `t`: no code was latched, and the run did not stop in a double fault. -/
def RaisesNothing (s t : State) : Prop :=
  (t.ex = 0 ∨ t.ex = s.ex) ∧ ((t.run = s.run ∧ t.haltReason = s.haltReason) ∨ t.haltReason = some .hlt)

/-- The privilege check of one instruction, from what its effect does in kernel mode. `en` is no part of it. -/
theorem privilegeCheck_of_effect {i : Instr} {f : State → State} {s : State}
    (hexec : exec i s = .next (privileged f s)) (heffect : RaisesNothing s (f s)) :
    (s.mode = .user → exec i s = .next (raise exIllegal s)) ∧
      (s.mode = .kernel → ∃ t, exec i s = .next t ∧ RaisesNothing s t) :=
  ⟨exec_privileged_user hexec, fun hkernel => ⟨f s, exec_privileged_kernel hexec hkernel, heffect⟩⟩

/-- Settles O52: each of the five is privileged, and its effect raises nothing (`privilegeCheck_of_effect`): rti clears `ex`, hlt
stops with the reason Hlt, and di, ei and brk leave `ex` and the run as they were. -/
theorem privilegeCheck : Obligations.PrivilegeCheck := by
  rintro i s (rfl | rfl | rfl | rfl | rfl)
  · exact privilegeCheck_of_effect (exec_rti s) ⟨.inl rfl, .inl ⟨rfl, rfl⟩⟩
  · exact privilegeCheck_of_effect (exec_di s) ⟨.inr rfl, .inl ⟨rfl, rfl⟩⟩
  · exact privilegeCheck_of_effect (exec_ei s) ⟨.inr rfl, .inl ⟨rfl, rfl⟩⟩
  · exact privilegeCheck_of_effect (exec_hlt s) ⟨.inr rfl, .inr rfl⟩
  · exact privilegeCheck_of_effect (exec_brk s) ⟨.inr rfl, .inl ⟨rfl, rfl⟩⟩

end Sys2Proof.Machine

/-! ## Exceptions (60_exceptions.md) -/

namespace Sys2Proof.Machine

/-- Settles O12: the codes of the model, and what raising does by `en` (`raise_enabled`, `raise_disabled`). -/
theorem raiseLatchesOrDoubleFaults : Obligations.RaiseLatchesOrDoubleFaults :=
  ⟨rfl, rfl, rfl, fun c _ => ⟨fun henabled => raise_enabled henabled c, fun hdisabled => raise_disabled hdisabled c⟩⟩

/-! ### The fetch, with nothing pending and with a code pending (40_machine_cycle.md R161) -/

theorem fetch_none {s : State} (h : s.ex = 0) : fetch s = fetchAt s := by
  rw [fetch, deliverPending_none h]

theorem fetch_some {s : State} (h : s.ex ≠ 0) : fetch s = fetchAt (deliver s) := by
  rw [fetch, deliverPending_some h]

/-! ### From the fetch to the end of the cycle (40_machine_cycle.md R161, R175) -/

/-- Every arm of `exec` answers a next state: an exception is one too, and none of them is a fault or a refusal. -/
theorem exec_next (i : Instr) (s : State) : ∃ t, exec i s = .next t := by
  cases i <;> exact ⟨_, rfl⟩

theorem step_of_fetch_ended {s t : State} (hrun : s.run = true) (h : fetch s = .ended t) :
    step s = .next (endCycle s t) := by
  rw [step, if_pos hrun, h]

theorem step_of_fetch_word {s t u : State} {ir : Word} (hrun : s.run = true) (h : fetch s = .word ir t)
    (hexec : exec (decodeWord ir) t = .next u) : step s = .next (endCycle s u) := by
  rw [step, if_pos hrun, h]
  simp only [hexec]

/-- The cycle after the fetch stage depends on what was fetched alone; only its end looks at the state it began in. -/
theorem step_of_fetch (f : Fetched) : ∃ u, ∀ s, s.run = true → fetch s = f → step s = .next (endCycle s u) := by
  cases f with
  | ended u => exact ⟨u, fun _ => step_of_fetch_ended⟩
  | word ir t =>
    obtain ⟨u, hexec⟩ := exec_next (decodeWord ir) t
    exact ⟨u, fun _ hrun hfetch => step_of_fetch_word hrun hfetch hexec⟩

/-! ### What the end of a cycle does to `ex` (40_machine_cycle.md R176) -/

/-- The end of a cycle neither stops the machine nor starts it. -/
@[simp] theorem doubleFaulted_endCycle (before u : State) (c : ExCode) :
    (endCycle before u).doubleFaulted c ↔ u.doubleFaulted c := Iff.rfl

theorem endCycle_of_not_doubleFaulted {u : State} (h : ∀ c, ¬u.doubleFaulted c) (before : State) :
    endCycle before u = { u with cycles := u.cycles + 1 } := by
  obtain ⟨-, hex⟩ | ⟨c, hfault, -⟩ := exAtEnd_cases before u
  · rw [endCycle, hex]
  · exact absurd hfault (h c)

theorem endCycle_of_doubleFaulted {u : State} {c : ExCode} (h : u.doubleFaulted c) (before : State) :
    endCycle before u = { u with ex := before.ex, cycles := u.cycles + 1 } := by
  rw [endCycle, exAtEnd_doubleFault h]

/-! ### Delivery (R410) -/

/-- The state delivery leaves, with its words in numbers: the code as the vector, and 0 or 1 for the mode. -/
theorem deliver_eq (s : State) :
    deliver s = { s with
      irr := s.pc
      icr := BitVec.ofNat 16 s.ex.toNat
      imr := if s.mode = .user then 0 else 1
      mode := .kernel
      pc := BitVec.ofNat 16 s.ex.toNat
      en := false
      ex := 0 } := by
  have himr : modeWord s.mode = if s.mode = .user then 0 else 1 := by cases s.mode <;> rfl
  rw [deliver, himr, BitVec.ofNat_toNat]

/-- A cycle that delivers is the cycle of the delivered state, but for the `ex` that a double fault puts back (log 12). -/
theorem step_deliver {s : State} (hpending : s.ex ≠ 0) (hrun : s.run = true) :
    ∃ t, step (deliver s) = .next t ∧
      ((∀ c, ¬t.doubleFaulted c) → step s = .next t) ∧
      ∀ c, t.doubleFaulted c → step s = .next { t with ex := s.ex } := by
  obtain ⟨u, hstep⟩ := step_of_fetch (fetchAt (deliver s))
  have hdelivered : step (deliver s) = .next (endCycle (deliver s) u) := hstep _ hrun (fetch_none (deliver_ex s))
  have hdelivering : step s = .next (endCycle s u) := hstep s hrun (fetch_some hpending)
  refine ⟨_, hdelivered, ?noFault, ?fault⟩ <;> simp only [doubleFaulted_endCycle]
  case noFault =>
    intro hnot
    rw [hdelivering, endCycle_of_not_doubleFaulted hnot s, endCycle_of_not_doubleFaulted hnot (deliver s)]
  case fault =>
    intro c hfault
    rw [hdelivering, endCycle_of_doubleFaulted hfault s]
    rfl

/-- Settles O9: with nothing pending the fetch is at pc (`fetch_none`); with a code pending it is that of the delivered state
(`fetch_some`, `deliver_eq`), and so is the rest of the cycle (`step_deliver`). -/
theorem deliveryTakesPendingException : Obligations.DeliveryTakesPendingException := by
  refine fun s => ⟨fetch_none, fun hpending d hd => ?_⟩
  rw [← deliver_eq] at hd
  rw [hd]
  exact ⟨fetch_some hpending, step_deliver hpending⟩

end Sys2Proof.Machine

/-! ## Decoding gives back what was encoded (30_encoding.md R101, R110, R126) -/

namespace Sys2Proof

/-! ### Operands through their fields -/

/-- A register number survives its three-bit field. -/
@[simp] theorem regBits_toFin (r : Reg) : (regBits r).toFin = r :=
  Fin.ext (by rw [BitVec.val_toFin, regBits_toNat])

theorem ofInt_toInt_of_imm7Fits {imm : Int} (h : imm7Fits imm = true) : (BitVec.ofInt 7 imm).toInt = imm := by
  have hrange := of_decide_eq_true h
  rw [BitVec.toInt_ofInt_eq_self] <;> omega

theorem ofInt_toInt_of_imm6Fits {imm : Int} (h : imm6Fits imm = true) : (BitVec.ofInt 6 imm).toInt = imm := by
  have hrange := of_decide_eq_true h
  rw [BitVec.toInt_ofInt_eq_self] <;> omega

/-! ### One lemma per format: an encoding is the pattern of its row, and decodes as such -/

open Machine

theorem decodeWord_encodeRri {op : BitVec 3} {f : Reg → Reg → Int → Instr}
    (hf : ∀ w, fieldOp w = op.toFin → decodeWord w = f (fieldA w) (fieldB w) (fieldImm7 w))
    (rA rB : Reg) {imm : Int} (himm : imm7Fits imm = true) : decodeWord (encodeRri op rA rB imm) = f rA rB imm := by
  have hpattern : encodeRri op rA rB imm = op ++ BitVec.ofInt 7 imm ++ regBits rB ++ regBits rA :=
    BitVec.eq_of_toNat_eq (by rw [encodeRri_toNat, rriPattern_toNat, regBits_toNat, regBits_toNat])
  rw [hpattern, decodeWord_rriPattern hf, regBits_toFin, regBits_toFin, ofInt_toInt_of_imm7Fits himm]

theorem decodeWord_encodeRjx (rA : Reg) {imm : Nat} (himm : imm10Fits imm = true) :
    decodeWord (encodeRjx rA imm) = .lui rA imm := by
  have hrange := of_decide_eq_true himm
  have hself : (BitVec.ofNat 10 imm).toNat = imm := by rw [BitVec.toNat_ofNat]; omega
  have hpattern : encodeRjx rA imm = 0b110#3 ++ BitVec.ofNat 10 imm ++ regBits rA :=
    BitVec.eq_of_toNat_eq (by rw [encodeRjx_toNat, rjxPattern_toNat, regBits_toNat, hself, BitVec.toNat_ofNat]; omega)
  rw [hpattern, decodeWord_rjxPattern, regBits_toFin, hself]

theorem decodeWord_encodeJlr {j : Nat} (rB : Reg) {imm : Int} (hj : subopFits j = true) (himm : imm6Fits imm = true) :
    decodeWord (encodeJlr j rB imm) = .jlr j rB imm := by
  have hrange := of_decide_eq_true hj
  have hself : (BitVec.ofNat 3 j).toNat = j := by rw [BitVec.toNat_ofNat]; omega
  have hpattern : encodeJlr j rB imm = 0b1110#4 ++ BitVec.ofInt 6 imm ++ regBits rB ++ BitVec.ofNat 3 j :=
    BitVec.eq_of_toNat_eq (by rw [encodeJlr_toNat, jlrPattern_toNat, regBits_toNat, hself]; omega)
  rw [hpattern, decodeWord_jlrPattern, regBits_toFin, hself, ofInt_toInt_of_imm6Fits himm]

theorem decodeWord_encodeRrr {xop : BitVec 3} {f : Reg → Reg → Reg → Instr}
    (hf : ∀ w, fieldXop w = xop.toFin → decodeXop w = f (fieldA w) (fieldB w) (fieldC w)) (rA rB rC : Reg) :
    decodeWord (encodeRrr xop rA rB rC) = f rA rB rC := by
  have hhead : (0b1111#4 ++ xop).toNat = 0b1111 * 8 + xop.toNat := append_toNat _ _
  have hpattern : encodeRrr xop rA rB rC = (0b1111#4 ++ xop) ++ regBits rC ++ regBits rB ++ regBits rA :=
    BitVec.eq_of_toNat_eq (by rw [encodeRrr_toNat, rrrPattern_toNat, hhead]; simp only [regBits_toNat]; omega)
  rw [hpattern, decodeWord_rrrPattern hhead hf]
  simp only [regBits_toFin]

theorem decodeWord_encodeRrx {yop : BitVec 3} {f : Reg → Reg → Instr}
    (hf : ∀ w, fieldC w = yop.toFin → decodeYop w = f (fieldA w) (fieldB w)) (rA rB : Reg) :
    decodeWord (encodeRrx yop rA rB) = f rA rB := by
  have htop : (0b1111111#7 ++ yop).toNat = 127 * 8 + yop.toNat := append_toNat _ _
  have hpattern : encodeRrx yop rA rB = (0b1111111#7 ++ yop) ++ regBits rB ++ regBits rA :=
    BitVec.eq_of_toNat_eq (by rw [encodeRrx_toNat, rrxPattern_toNat, htop]; simp only [regBits_toNat]; omega)
  rw [hpattern, decodeWord_rrxPattern htop hf, regBits_toFin, regBits_toFin]

theorem decodeWord_encodeRxx {zop : BitVec 3} {f : Reg → Instr}
    (hf : ∀ w, fieldB w = zop.toFin → decodeZop w = f (fieldA w)) (rA : Reg) :
    decodeWord (encodeRxx zop rA) = f rA := by
  have hhead : (0b1111111111#10 ++ zop).toNat = 1023 * 8 + zop.toNat := append_toNat _ _
  have hpattern : encodeRxx zop rA = (0b1111111111#10 ++ zop) ++ regBits rA :=
    BitVec.eq_of_toNat_eq (by rw [encodeRxx_toNat, append_toNat, hhead, regBits_toNat]; omega)
  rw [hpattern, decodeWord_rxxPattern hhead hf, regBits_toFin]

/-- Settles O1: each instruction by its format; what the decoder does with the format's selector is its own equation, and the
VOPs are eight closed words. -/
theorem decodeInvertsEncode : Obligations.DecodeInvertsEncode := by
  intro i hwf
  cases i
  case lui rA imm => exact decodeWord_encodeRjx rA hwf
  case jlr j rB imm => exact decodeWord_encodeJlr rB (wellFormed_jlr hwf).1 (wellFormed_jlr hwf).2
  case ldw | ldb | stw | stb | beq | adi =>
    exact decodeWord_encodeRri (fun _ hop => by simp only [decodeWord, hop]; rfl) _ _ hwf
  case add | adc | sub | sbb | bic | bis | xor =>
    exact decodeWord_encodeRrr (fun _ hxop => by simp only [decodeXop, hxop]; rfl) _ _ _
  case lsp | lio | ssp | sio | y04 | y05 | y06 =>
    exact decodeWord_encodeRrx (fun _ hyop => by simp only [decodeYop, hyop]; rfl) _ _
  case not | neg | sxt | swb | lsr | lsl | asr =>
    exact decodeWord_encodeRxx (fun _ hzop => by simp only [decodeZop, hzop]; rfl) _
  case rti | rtl | di | ei | hlt | brk | v06 | die => rfl

/-- Settles O2: re-encoding (`encode_decodeWord`) and the ranges of the decoded operands (`wellFormed_decodeWord`). -/
theorem encodeInvertsDecode : Obligations.EncodeInvertsDecode :=
  fun w => ⟨encode_decodeWord w, wellFormed_decodeWord w⟩

end Sys2Proof

namespace Sys2Proof.Machine

/-- One line per word: a fusion leaves a blank line in the place of the word it consumed (R148). -/
theorem length_fuse (is : List Instr) : (fuse is).length = is.length := by
  induction is using fuse.induct with
  | case1 rT upper next rest l hfuse ih => simp only [fuse, hfuse, List.length_cons, ih]
  | case2 rT upper next rest hfuse ih => simp only [fuse, hfuse, List.length_cons, ih]
  | case3 i rest hnofuse ih =>
    rw [fuse, List.length_cons, List.length_cons, ih]
    exact hnofuse
  | case4 => rfl

/-- Settles O59: the listing has a line per word (`length_fuse`), and its lines assemble to the words
(`assembleLines_listing`). -/
theorem listingReassembles : Obligations.ListingReassembles :=
  fun _ hnonzero hlength => ⟨(length_fuse _).trans (List.length_map _), assembleLines_listing hnonzero hlength⟩

end Sys2Proof.Machine

/-! ## The rows of the opcode table and the classes (30_encoding.md R103, R105) -/

namespace Sys2Proof

/-! ### Matching a row: by its mask, by its block of numbers -/

/-- The encoded word of every instruction lies in a row of its own mnemonic. -/
theorem rowRecognises : ∀ i : Instr, Laws.RowRecognises.Statement i
  | .ldw rA rB imm => Laws.RowRecognises.ldw rA rB imm
  | .ldb rA rB imm => Laws.RowRecognises.ldb rA rB imm
  | .stw rA rB imm => Laws.RowRecognises.stw rA rB imm
  | .stb rA rB imm => Laws.RowRecognises.stb rA rB imm
  | .beq rA rB imm => Laws.RowRecognises.beq rA rB imm
  | .adi rA rB imm => Laws.RowRecognises.adi rA rB imm
  | .lui rA imm => Laws.RowRecognises.lui rA imm
  | .jlr j rB imm => Laws.RowRecognises.jlr j rB imm
  | .add rA rB rC => Laws.RowRecognises.add rA rB rC
  | .adc rA rB rC => Laws.RowRecognises.adc rA rB rC
  | .sub rA rB rC => Laws.RowRecognises.sub rA rB rC
  | .sbb rA rB rC => Laws.RowRecognises.sbb rA rB rC
  | .bic rA rB rC => Laws.RowRecognises.bic rA rB rC
  | .bis rA rB rC => Laws.RowRecognises.bis rA rB rC
  | .xor rA rB rC => Laws.RowRecognises.xor rA rB rC
  | .lsp rA rB => Laws.RowRecognises.lsp rA rB
  | .lio rA rB => Laws.RowRecognises.lio rA rB
  | .ssp rA rB => Laws.RowRecognises.ssp rA rB
  | .sio rA rB => Laws.RowRecognises.sio rA rB
  | .y04 rA rB => Laws.RowRecognises.y04 rA rB
  | .y05 rA rB => Laws.RowRecognises.y05 rA rB
  | .y06 rA rB => Laws.RowRecognises.y06 rA rB
  | .not rA => Laws.RowRecognises.not rA
  | .neg rA => Laws.RowRecognises.neg rA
  | .sxt rA => Laws.RowRecognises.sxt rA
  | .swb rA => Laws.RowRecognises.swb rA
  | .lsr rA => Laws.RowRecognises.lsr rA
  | .lsl rA => Laws.RowRecognises.lsl rA
  | .asr rA => Laws.RowRecognises.asr rA
  | .rti => Laws.RowRecognises.rti
  | .rtl => Laws.RowRecognises.rtl
  | .di => Laws.RowRecognises.di
  | .ei => Laws.RowRecognises.ei
  | .hlt => Laws.RowRecognises.hlt
  | .brk => Laws.RowRecognises.brk
  | .v06 => Laws.RowRecognises.v06
  | .die => Laws.RowRecognises.die

/-- The opcode of a row has no bit set outside the row's fixed top bits. -/
theorem opcode_within_mask : ∀ r ∈ opcodeTable, r.opcode >>> (16 - r.nbits) <<< (16 - r.nbits) = r.opcode := by decide

/-- Masking keeps the top bits that recognition compares. -/
theorem and_mask_eq (r : OpcodeRow) (w : Word) : w &&& r.mask = w >>> (16 - r.nbits) <<< (16 - r.nbits) := by
  ext i hi
  simp only [OpcodeRow.mask, BitVec.getElem_and, BitVec.getElem_shiftLeft, BitVec.getElem_ushiftRight,
    BitVec.getElem_allOnes]
  by_cases hlow : i < 16 - r.nbits
  · simp [hlow]
  · simp [hlow, BitVec.getLsbD_eq_getElem hi, show 16 - r.nbits + (i - (16 - r.nbits)) = i by omega]

/-- Clearing the low k bits, in numbers. -/
theorem ushiftRight_shiftLeft_toNat (w : Word) (k : Nat) : (w >>> k <<< k).toNat = w.toNat / 2 ^ k * 2 ^ k := by
  have hle : w.toNat / 2 ^ k * 2 ^ k ≤ w.toNat := Nat.div_mul_le_self _ _
  rw [BitVec.toNat_shiftLeft, BitVec.toNat_ushiftRight, Nat.shiftLeft_eq, Nat.shiftRight_eq_div_pow,
    Nat.mod_eq_of_lt (Nat.lt_of_le_of_lt hle w.isLt)]

/-- For a row of the table, the mask comparison is recognition (R105). -/
theorem and_mask_eq_opcode_iff {r : OpcodeRow} (hr : r ∈ opcodeTable) (w : Word) :
    w &&& r.mask = r.opcode ↔ r.recognises w = true := by
  have hopcode := congrArg BitVec.toNat (opcode_within_mask r hr)
  rw [ushiftRight_shiftLeft_toNat] at hopcode
  rw [recognises_iff, and_mask_eq, ← BitVec.toNat_inj, ushiftRight_shiftLeft_toNat]
  constructor
  · intro h
    exact Nat.mul_right_cancel (Nat.two_pow_pos _) (h.trans hopcode.symm)
  · intro h
    rw [h, hopcode]

/-! ### No two rows share a word (R106) -/

/-- No row of at most as many fixed bits recognises another row's own opcode. -/
theorem row_eq_of_recognises_opcode :
    ∀ q ∈ opcodeTable, ∀ r ∈ opcodeTable, q.nbits ≤ r.nbits → q.recognises r.opcode = true → q = r := by decide

/-- Numbers that agree above bit k agree above every higher bit. -/
theorem div_two_pow_eq_of_le {a b k l : Nat} (h : a / 2 ^ k = b / 2 ^ k) (hle : k ≤ l) : a / 2 ^ l = b / 2 ^ l := by
  obtain ⟨d, rfl⟩ := Nat.exists_eq_add_of_le hle
  rw [Nat.pow_add, ← Nat.div_div_eq_div_mul, ← Nat.div_div_eq_div_mul, h]

/-- A row of at most as many fixed bits that shares a word with another recognises that row's opcode. -/
theorem recognises_opcode_of_recognises {q r : OpcodeRow} {w : Word} (hq : q.recognises w = true)
    (hr : r.recognises w = true) (hle : q.nbits ≤ r.nbits) : q.recognises r.opcode = true := by
  rw [recognises_iff] at hq hr ⊢
  rw [← hq]
  exact (div_two_pow_eq_of_le hr (by omega)).symm

theorem row_eq_of_recognises {q r : OpcodeRow} {w : Word} (hq : q ∈ opcodeTable) (hr : r ∈ opcodeTable)
    (hqw : q.recognises w = true) (hrw : r.recognises w = true) : q = r := by
  rcases Nat.le_total q.nbits r.nbits with hle | hle
  · exact row_eq_of_recognises_opcode q hq r hr hle (recognises_opcode_of_recognises hqw hrw hle)
  · exact (row_eq_of_recognises_opcode r hr q hq hle (recognises_opcode_of_recognises hrw hqw hle)).symm

/-- Recognition by table finds the row that recognises the word, wherever it stands in the table. -/
theorem recognise_of_recognises {r : OpcodeRow} {w : Word} (hr : r ∈ opcodeTable) (hrw : r.recognises w = true) :
    recognise w = some r.mnemonic := by
  rw [recognise]
  cases hfind : opcodeTable.find? (·.recognises w) with
  | none => exact absurd hrw (List.find?_eq_none.mp hfind r hr)
  | some q =>
    rw [row_eq_of_recognises (List.mem_of_find?_eq_some hfind) hr
      (List.find?_some (p := fun x : OpcodeRow => x.recognises w) hfind) hrw, Option.map_some]

/-- Settles O3: the row of the decoded instruction recognises the word, since the word is the one that instruction encodes to
(`rowRecognises`, `encode_decodeWord`); recognition is the mask comparison (`and_mask_eq_opcode_iff`), and no other row
recognises the word (`row_eq_of_recognises`). -/
theorem everyWordMatchesExactlyOneRow : Obligations.EveryWordMatchesExactlyOneRow := by
  intro w
  obtain ⟨r, hr, hmnemonic, hrecognises⟩ := rowRecognises (decodeWord w)
  rw [encode_decodeWord] at hrecognises
  refine ⟨r, hr, ⟨(and_mask_eq_opcode_iff hr w).mpr hrecognises, hmnemonic, recognise_of_recognises hr hrecognises⟩, ?_⟩
  intro q hq hmatch
  exact row_eq_of_recognises hq hr ((and_mask_eq_opcode_iff hq w).mp hmatch) hrecognises

/-! ### The classes (R103) -/

theorem opClass_decodeVop (w : Word) : (decodeVop w).mnemonic.opClass = .vop := by
  unfold decodeVop
  split <;> rfl

theorem opClass_decodeZop (w : Word) :
    (decodeZop w).mnemonic.opClass = if fieldB w = 7 then .vop else .zop := by
  unfold decodeZop
  split
  case h_8 hzop => rw [hzop]; exact opClass_decodeVop w
  all_goals rw [‹fieldB w = _›]; rfl

theorem opClass_decodeYop (w : Word) :
    (decodeYop w).mnemonic.opClass = if fieldC w = 7 then (decodeZop w).mnemonic.opClass else .yop := by
  unfold decodeYop
  split
  case h_8 hyop => rw [hyop]; rfl
  all_goals rw [‹fieldC w = _›]; rfl

theorem opClass_decodeXop (w : Word) :
    (decodeXop w).mnemonic.opClass = if fieldXop w = 7 then (decodeYop w).mnemonic.opClass else .xop := by
  unfold decodeXop
  split
  case h_8 hxop => rw [hxop]; rfl
  all_goals rw [‹fieldXop w = _›]; rfl

theorem opClass_decodeWord (w : Word) :
    (decodeWord w).mnemonic.opClass =
      if fieldOp w = 7 then (if w.getLsbD 12 then (decodeXop w).mnemonic.opClass else .jlr) else .base := by
  unfold decodeWord
  split
  case h_8 hop =>
    rw [hop]
    split <;> rfl
  all_goals rw [‹fieldOp w = _›]; rfl

/-- A three-bit selector is 7 exactly when its number is. -/
theorem eq_seven_iff (r : Fin 8) : r = 7 ↔ r.val = 7 := Fin.ext_iff

/-- The class tests in numbers, in the order of R103. -/
def testedClass (w : Word) : OpClass :=
  if w.toNat / 8 = 0x1FFF then .vop
  else if w.toNat / 64 = 0x3FF then .zop
  else if w.toNat / 512 = 0x7F then .yop
  else if w.toNat / 4096 = 0xF then .xop
  else if w.toNat / 4096 = 0xE then .jlr
  else .base

/-- The class of the decoded instruction: each test is the one of the class it nests in, and a selector of 7. -/
theorem opClass_decodeWord_eq_testedClass (w : Word) :
    (decodeWord w).mnemonic.opClass = testedClass w := by
  have hw : w.toNat < 65536 := w.isLt
  have hjlr : w.toNat / 4096 = 0xE ↔ w.toNat / 8192 % 8 = 7 ∧ ¬w.toNat / 4096 % 2 = 1 := by omega
  have hxop : w.toNat / 4096 = 0xF ↔ w.toNat / 8192 % 8 = 7 ∧ w.toNat / 4096 % 2 = 1 := by omega
  have hyop : w.toNat / 512 = 0x7F ↔ w.toNat / 4096 = 0xF ∧ w.toNat / 512 % 8 = 7 := by omega
  have hzop : w.toNat / 64 = 0x3FF ↔ w.toNat / 512 = 0x7F ∧ w.toNat / 64 % 8 = 7 := by omega
  have hvop : w.toNat / 8 = 0x1FFF ↔ w.toNat / 64 = 0x3FF ∧ w.toNat / 8 % 8 = 7 := by omega
  rw [opClass_decodeWord, opClass_decodeXop, opClass_decodeYop, opClass_decodeZop, getLsbD_twelve]
  simp only [testedClass, eq_seven_iff, fieldOp_val, fieldXop_val, fieldC_val, fieldB_val, decide_eq_true_eq, hvop, hzop,
    hyop, hxop, hjlr]
  grind

/-- A class test compares the bits from lo up. -/
theorem extractLsb'_eq_iff {lo len : Nat} (w : Word) (hlen : 2 ^ 16 ≤ 2 ^ lo * 2 ^ len) (v : BitVec len) :
    w.extractLsb' lo len = v ↔ w.toNat / 2 ^ lo = v.toNat := by
  have hlt : w.toNat / 2 ^ lo < 2 ^ len := Nat.div_lt_of_lt_mul (Nat.lt_of_lt_of_le w.isLt hlen)
  rw [← BitVec.toNat_inj, extractLsb'_val, Nat.mod_eq_of_lt hlt]

theorem classify_eq_testedClass (w : Word) : classify w = testedClass w := by
  have hvop := extractLsb'_eq_iff (lo := 3) w (by decide) 0x1FFF#13
  have hzop := extractLsb'_eq_iff (lo := 6) w (by decide) 0x3FF#10
  have hyop := extractLsb'_eq_iff (lo := 9) w (by decide) 0x7F#7
  have hxop := extractLsb'_eq_iff (lo := 12) w (by decide) 0xF#4
  have hjlr := extractLsb'_eq_iff (lo := 12) w (by decide) 0xE#4
  simp only [classify, hvop, hzop, hyop, hxop, hjlr]
  rfl

/-- Settles O4: the decoder's nesting (`opClass_decodeWord_eq_testedClass`) and the tests by extracted bits
(`classify_eq_testedClass`) are the same tests in numbers. -/
theorem classFollowsPrefixes : Obligations.ClassFollowsPrefixes :=
  fun w => ⟨(opClass_decodeWord_eq_testedClass w).trans (classify_eq_testedClass w).symm, classify_eq_testedClass w⟩

end Sys2Proof

/-! ## Special-register numbers (10_state.md R31) -/

namespace Sys2Proof.Machine

/-- The numbers of each special register, and the unassigned ones. -/
def Spr.Numbered : Spr → Nat → Prop
  | .pc, n => n = 0
  | .link, n => n = 1
  | .irr, n => n = 2
  | .icr, n => n = 3
  | .imr, n => n = 4
  | .cycleLow, n => n = 6
  | .cycleHigh, n => n = 7
  | .userReg r, n => n = 16 + r.val
  | .userLink, n => n = 25
  | .mmu k, n => n = 32 + k.val
  | .unassigned, n => n = 5 ∨ (8 ≤ n ∧ n ≤ 15) ∨ n = 24 ∨ (26 ≤ n ∧ n ≤ 31)

/-- The map by number, over the 64 numbers. -/
theorem sprOf_eq_iff (n : BitVec 6) (r : Spr) : sprOf n = r ↔ r.Numbered n.toNat := by
  cases r with
  | userReg r => simp only [Spr.Numbered]; revert n r; decide
  | mmu k => simp only [Spr.Numbered]; revert n k; decide
  | _ => simp only [Spr.Numbered]; revert n; decide

/-- The SPR number of lsp and ssp is x[rB] modulo 64. -/
theorem sprNumber_toNat (alu : Word) : (sprNumber alu).toNat = alu.toNat % 64 := by
  simp only [sprNumber, extractLsb'_val, Nat.pow_zero, Nat.div_one, Nat.reducePow]

theorem sprOf_sprNumber_iff (alu : Word) (r : Spr) : sprOf (sprNumber alu) = r ↔ r.Numbered (alu.toNat % 64) := by
  rw [sprOf_eq_iff, sprNumber_toNat]

/-! ## What an instruction can do

Every outcome of `exec` is one of the effects below, each a state written out with the operations of the model. The frames over
all instructions, the invariant and the ways a run stops are case analyses of it. -/

/-- What an instruction leaves from the state `s` that the fetch stage left. -/
inductive Effect (s : State) : Instr → State → Prop
  /-- an exception, in any class (40_machine_cycle.md R165) -/
  | fault {i : Instr} {c : ExCode} (hcode : validCode c) : Effect s i (raise c s)
  /-- the writeback of the instruction's register (R170) -/
  | writeReg {i : Instr} {r : Reg} (hdest : i.destination = some r) (v : Word) : Effect s i (s.setX r v)
  /-- the writeback with the carry beside it (10_state.md R29) -/
  | writeRegHc {i : Instr} {r : Reg} (hdest : i.destination = some r) (hhc : i.writesHc = true) (v : Word) (carry : Bool) :
      Effect s i { s.setX r v with hc := carry }
  /-- a control transfer, also the one to the next instruction (R168) -/
  | jump {i : Instr} (target : Word) : Effect s i (jumpTo target s)
  /-- stw at an address that translates (41_base_memory.md R202) -/
  | storeWord {rA rB : Reg} {imm : Int} {wi : Nat} {lane : Bool}
      (haddr : translateData s (basePlusImm s rB imm) = some (wi, lane)) (v : Word) :
      Effect s (.stw rA rB imm) { s with mem := physWrite s.mem wi v }
  /-- stb at an address that translates (R203) -/
  | storeByte {rA rB : Reg} {imm : Int} {wi : Nat} {lane : Bool}
      (haddr : translateData s (basePlusImm s rB imm) = some (wi, lane)) (v : Byte) :
      Effect s (.stb rA rB imm) { s with mem := s.mem.write (2 * wi + lane.toNat) v }
  /-- jlr with sub-opcode 1 (43_jlr.md R242) -/
  | call {rB : Reg} {imm : Int} (target : Word) : Effect s (.jlr 1 rB imm) (jumpTo target (s.setLink s.mode s.pc))
  /-- ssp of SPR 1, in both modes (45_yop.md R302) -/
  | sprLink {rA rB : Reg} (hn : (s.x rB).toNat % 64 = 1) (v : Word) : Effect s (.ssp rA rB) (s.setLink s.mode v)
  /-- ssp of SPR 2, kernel mode -/
  | sprIrr {rA rB : Reg} (hmode : s.mode = .kernel) (hn : (s.x rB).toNat % 64 = 2) (v : Word) :
      Effect s (.ssp rA rB) { s with irr := v }
  /-- ssp of SPR 3, kernel mode -/
  | sprIcr {rA rB : Reg} (hmode : s.mode = .kernel) (hn : (s.x rB).toNat % 64 = 3) (v : Word) :
      Effect s (.ssp rA rB) { s with icr := v }
  /-- ssp of SPR 4, kernel mode -/
  | sprImr {rA rB : Reg} (hmode : s.mode = .kernel) (hn : (s.x rB).toNat % 64 = 4) (v : Word) :
      Effect s (.ssp rA rB) { s with imr := v }
  /-- ssp of SPR 16 to 23, kernel mode -/
  | sprUserReg {rA rB r : Reg} (hmode : s.mode = .kernel) (hn : (s.x rB).toNat % 64 = 16 + r.val) (v : Word) :
      Effect s (.ssp rA rB) (s.setReg .user r v)
  /-- ssp of SPR 25, kernel mode -/
  | sprUserLink {rA rB : Reg} (hmode : s.mode = .kernel) (hn : (s.x rB).toNat % 64 = 25) (v : Word) :
      Effect s (.ssp rA rB) (s.setLink .user v)
  /-- ssp of SPR 32 to 63, kernel mode -/
  | sprMmu {rA rB : Reg} {k : Fin 32} (hmode : s.mode = .kernel) (hn : (s.x rB).toNat % 64 = 32 + k.val) (v : Word) :
      Effect s (.ssp rA rB) (s.setMmu .kernel k v)
  /-- lio from a slot that exists (R291, 20_memory.md R80) -/
  | lio {rA rB : Reg} {slot : Nat} (hslot : slot < 2 ^ s.params.ioBits) (v : Word) :
      Effect s (.lio rA rB) ((ioRead s slot).setX rA v)
  /-- sio to a slot that exists (R293) -/
  | sio {rA rB : Reg} {slot : Nat} (hslot : slot < 2 ^ s.params.ioBits) (v : Word) :
      Effect s (.sio rA rB) (ioWrite s slot v)
  /-- rti, kernel mode (47_vop.md R350) -/
  | rti (hmode : s.mode = .kernel) : Effect s .rti (returnFromException s)
  /-- di, kernel mode (R352) -/
  | di (hmode : s.mode = .kernel) : Effect s .di { s with en := false }
  /-- ei, kernel mode (R353) -/
  | ei (hmode : s.mode = .kernel) : Effect s .ei { s with en := true }
  /-- hlt, kernel mode (R354) -/
  | hlt (hmode : s.mode = .kernel) : Effect s .hlt { s with run := false, haltReason := some .hlt }
  /-- brk, kernel mode (R355) -/
  | brk (hmode : s.mode = .kernel) : Effect s .brk (s.record (.brk s.pc))

/-! ### Each meaning has one of the effects -/

theorem validCode_exIllegal : validCode exIllegal := by decide

theorem validCode_exMemory : validCode exMemory := by decide

theorem validCode_exMachine : validCode exMachine := by decide

/-- A trap number of sys is an exception code (43_jlr.md R241). -/
theorem validCode_trap {n : Int} (h : n % 2 = 0 ∧ 2 ≤ n ∧ n ≤ 30) : validCode (BitVec.ofInt 6 n) := by
  have hval : (BitVec.ofInt 6 n).toNat = n.toNat := by rw [BitVec.toNat_ofInt]; omega
  refine ⟨fun hzero => ?_, ?_⟩
  · have hnat : n.toNat = 0 := hval.symm.trans (congrArg BitVec.toNat hzero)
    omega
  · rw [BitVec.getLsbD, hval, Nat.testBit_zero, decide_eq_false_iff_not]
    omega

theorem effect_illegal (s : State) (i : Instr) : Effect s i (raise exIllegal s) := .fault validCode_exIllegal

/-- An instruction without effect goes on to the next one. -/
theorem effect_none (s : State) (i : Instr) : Effect s i s := .jump s.pc

theorem effect_load (s : State) {i : Instr} {rA : Reg} (hdest : i.destination = some rA) (w : Width) (addr : Word) :
    Effect s i (load w rA addr s) := by
  obtain ⟨-, hfault⟩ | ⟨_, _, -, hvalue⟩ := load_cases w rA addr s
  · rw [hfault]; exact .fault validCode_exMemory
  · rw [hvalue]; exact .writeReg hdest _

theorem effect_stw (s : State) (rA rB : Reg) (imm : Int) :
    Effect s (.stw rA rB imm) (store .word (basePlusImm s rB imm) (s.x rA) s) := by
  obtain ⟨-, hfault⟩ | ⟨_, _, haddr, hstore⟩ := store_cases .word (basePlusImm s rB imm) (s.x rA) s
  · rw [hfault]; exact .fault validCode_exMemory
  · rw [hstore]; exact .storeWord haddr _

theorem effect_stb (s : State) (rA rB : Reg) (imm : Int) :
    Effect s (.stb rA rB imm) (store .byte (basePlusImm s rB imm) (s.x rA) s) := by
  obtain ⟨-, hfault⟩ | ⟨_, _, haddr, hstore⟩ := store_cases .byte (basePlusImm s rB imm) (s.x rA) s
  · rw [hfault]; exact .fault validCode_exMemory
  · rw [hstore]; exact .storeByte haddr _

theorem effect_sysTrap (s : State) (i : Instr) (n : Int) : Effect s i (sysTrap n s) := by
  unfold sysTrap
  split
  next htrap => exact .fault (validCode_trap htrap)
  next => exact effect_illegal s i

theorem effect_jlr (s : State) (j : Nat) (rB : Reg) (imm : Int) :
    ∃ t, exec (.jlr j rB imm) s = .next t ∧ Effect s (.jlr j rB imm) t := by
  refine ⟨_, rfl, ?_⟩
  split_ifs with hsys hcall hjump
  · exact effect_sysTrap s _ imm
  · subst hcall; exact .call _
  · exact .jump _
  · exact effect_illegal s _

theorem effect_sprWrite {s t : State} {rA rB : Reg} {v : Word} (h : sprWrite s (sprNumber (s.x rB)) v = some t) :
    Effect s (.ssp rA rB) t := by
  have hcases := sprWrite_cases h
  simp only [sprOf_sprNumber_iff, Spr.Numbered] at hcases
  obtain ⟨hn, rfl⟩ | ⟨hmode, ⟨hn, rfl⟩ | ⟨hn, rfl⟩ | ⟨hn, rfl⟩ | ⟨r, hn, rfl⟩ | ⟨hn, rfl⟩ | ⟨k, hn, rfl⟩⟩ := hcases
  · exact .sprLink hn v
  · exact .sprIrr hmode hn v
  · exact .sprIcr hmode hn v
  · exact .sprImr hmode hn v
  · exact .sprUserReg hmode hn v
  · exact .sprUserLink hmode hn v
  · exact .sprMmu hmode hn v

theorem ioSlot_lt (s : State) (addr : Word) : ioSlot s addr < 2 ^ s.params.ioBits := Nat.mod_lt _ (Nat.two_pow_pos _)

/-- A privileged effect in kernel mode, ExIllegal in user mode (47_vop.md R358). -/
theorem effect_privileged {s : State} {i : Instr} {f : State → State} (heffect : s.mode = .kernel → Effect s i (f s)) :
    Effect s i (privileged f s) := by
  obtain ⟨-, hfault⟩ | ⟨hmode, hkernel⟩ := privileged_cases f s
  · rw [hfault]; exact effect_illegal s i
  · rw [hkernel]; exact heffect hmode

/-- Every instruction answers a next state, with one of the effects. -/
theorem exec_has_effect (i : Instr) (s : State) : ∃ t, exec i s = .next t ∧ Effect s i t := by
  cases i
  case ldw rA rB imm =>
    refine ⟨_, rfl, ?_⟩
    split
    next => exact effect_illegal s _
    next => exact effect_load s rfl .word _
  case ldb rA rB imm => exact ⟨_, rfl, effect_load s rfl .byte _⟩
  case stw rA rB imm => exact ⟨_, rfl, effect_stw s rA rB imm⟩
  case stb rA rB imm => exact ⟨_, rfl, effect_stb s rA rB imm⟩
  case beq rA rB imm =>
    refine ⟨_, rfl, ?_⟩
    split
    next => exact .jump _
    next => exact effect_none s _
  case adi | lui | add | sub | bic | bis | xor | not | neg | sxt | swb => exact ⟨_, rfl, .writeReg rfl _⟩
  case adc | sbb | lsr | lsl | asr => exact ⟨_, rfl, .writeRegHc rfl rfl _ _⟩
  case jlr j rB imm => exact effect_jlr s j rB imm
  case lsp rA rB =>
    refine ⟨_, rfl, ?_⟩
    split
    next => exact effect_illegal s _
    next => exact .writeReg rfl _
  case ssp rA rB =>
    refine ⟨_, rfl, ?_⟩
    split
    next => exact effect_illegal s _
    next hwrite => exact effect_sprWrite hwrite
  case lio rA rB => exact ⟨_, rfl, .lio (ioSlot_lt s (s.x rB)) _⟩
  case sio rA rB => exact ⟨_, rfl, .sio (ioSlot_lt s (s.x rB)) _⟩
  case y04 | y05 | y06 | v06 | die => exact ⟨_, rfl, effect_illegal s _⟩
  case rtl => exact ⟨_, rfl, .jump _⟩
  case rti => exact ⟨_, rfl, effect_privileged .rti⟩
  case di => exact ⟨_, rfl, effect_privileged .di⟩
  case ei => exact ⟨_, rfl, effect_privileged .ei⟩
  case hlt => exact ⟨_, rfl, effect_privileged .hlt⟩
  case brk => exact ⟨_, rfl, effect_privileged .brk⟩

theorem effect_of_exec {i : Instr} {s t : State} (h : exec i s = .next t) : Effect s i t := by
  obtain ⟨u, hexec, heffect⟩ := exec_has_effect i s
  rw [h] at hexec
  cases hexec
  exact heffect

end Sys2Proof.Machine

/-! ## Frames over all instructions (10_state.md R22 to R38, 20_memory.md R71, 40_machine_cycle.md R166) -/

namespace Sys2Proof.Machine

/-- A register write changes at most its own register of its own file. -/
theorem reg_setReg_frame (s : State) (m n : Mode) (r q : Reg) (v : Word) :
    (s.setReg n q v).reg m r = s.reg m r ∨ (m = n ∧ r = q) := by
  by_cases h : m = n ∧ r = q
  · exact .inr h
  · exact .inl (reg_setReg_ne s v (by tauto))

namespace Effect

variable {s t : State} {i : Instr}

/-! ### The general registers -/

theorem reg_frame (h : Effect s i t) (m : Mode) (r : Reg) :
    t.reg m r = s.reg m r ∨ (m = s.mode ∧ i.destination = some r) ∨
      ∃ rA rB, i = .ssp rA rB ∧ s.mode = .kernel ∧ m = .user ∧ (s.x rB).toNat % 64 = 16 + r.val := by
  cases h
  case writeReg q v hdest | writeRegHc q v carry hdest hhc =>
    obtain hsame | ⟨hmode, rfl⟩ := reg_setReg_frame s m s.mode r q v
    · exact .inl hsame
    · exact .inr (.inl ⟨hmode, hdest⟩)
  case lio rA rB slot hslot v =>
    obtain hsame | ⟨hmode, rfl⟩ := reg_setReg_frame (ioRead s slot) m s.mode r rA v
    · exact .inl hsame
    · exact .inr (.inl ⟨hmode, rfl⟩)
  case sprUserReg rA rB q hmode hn v =>
    obtain hsame | ⟨huser, rfl⟩ := reg_setReg_frame s m .user r q v
    · exact .inl hsame
    · exact .inr (.inr ⟨rA, rB, rfl, hmode, huser, hn⟩)
  all_goals exact .inl (reg_congr (by simp) (by simp) m r)

/-! ### The special state, field by field -/

theorem hc_frame (h : Effect s i t) : t.hc = s.hc ∨ i.writesHc = true := by
  cases h
  case writeRegHc hhc => exact .inr hhc
  all_goals exact .inl (by simp)

theorem link_frame (h : Effect s i t) (m : Mode) :
    t.link m = s.link m ∨ (m = s.mode ∧ ∃ rB imm, i = .jlr 1 rB imm) ∨
      ∃ rA rB, i = .ssp rA rB ∧
        (((s.x rB).toNat % 64 = 1 ∧ m = s.mode) ∨ ((s.x rB).toNat % 64 = 25 ∧ s.mode = .kernel ∧ m = .user)) := by
  cases h
  case call rB imm target =>
    by_cases hm : m = s.mode
    · exact .inr (.inl ⟨hm, rB, imm, rfl⟩)
    · exact .inl ((link_setLink s s.mode m s.pc).trans (if_neg hm))
  case sprLink rA rB hn v =>
    by_cases hm : m = s.mode
    · exact .inr (.inr ⟨rA, rB, rfl, .inl ⟨hn, hm⟩⟩)
    · exact .inl ((link_setLink s s.mode m v).trans (if_neg hm))
  case sprUserLink rA rB hmode hn v =>
    by_cases hm : m = .user
    · exact .inr (.inr ⟨rA, rB, rfl, .inr ⟨hn, hmode, hm⟩⟩)
    · exact .inl ((link_setLink s .user m v).trans (if_neg hm))
  all_goals exact .inl (link_congr (by simp) (by simp) m)

theorem mmuU_eq (h : Effect s i t) : t.mmuU = s.mmuU := by
  cases h
  all_goals simp

theorem kernelMmu_frame (h : Effect s i t) (k : Fin 32) :
    t.mmu .kernel k = s.mmu .kernel k ∨
      ∃ rA rB, i = .ssp rA rB ∧ s.mode = .kernel ∧ (s.x rB).toNat % 64 = 32 + k.val := by
  cases h
  case sprMmu rA rB q hmode hn v =>
    by_cases hk : k = q
    · subst hk; exact .inr ⟨rA, rB, rfl, hmode, hn⟩
    · exact .inl ((mmu_setMmu s .kernel .kernel q k v).trans (if_neg fun hboth => hk hboth.2))
  all_goals exact .inl (mmu_congr (by simp) (by simp) .kernel k)

theorem irr_frame (h : Effect s i t) :
    t.irr = s.irr ∨ ∃ rA rB, i = .ssp rA rB ∧ s.mode = .kernel ∧ (s.x rB).toNat % 64 = 2 := by
  cases h
  case sprIrr rA rB hmode hn v => exact .inr ⟨rA, rB, rfl, hmode, hn⟩
  all_goals exact .inl (by simp)

theorem icr_frame (h : Effect s i t) :
    t.icr = s.icr ∨ ∃ rA rB, i = .ssp rA rB ∧ s.mode = .kernel ∧ (s.x rB).toNat % 64 = 3 := by
  cases h
  case sprIcr rA rB hmode hn v => exact .inr ⟨rA, rB, rfl, hmode, hn⟩
  all_goals exact .inl (by simp)

theorem imr_frame (h : Effect s i t) :
    t.imr = s.imr ∨ ∃ rA rB, i = .ssp rA rB ∧ s.mode = .kernel ∧ (s.x rB).toNat % 64 = 4 := by
  cases h
  case sprImr rA rB hmode hn v => exact .inr ⟨rA, rB, rfl, hmode, hn⟩
  all_goals exact .inl (by simp)

theorem mode_frame (h : Effect s i t) : t.mode = s.mode ∨ (i = .rti ∧ s.mode = .kernel) := by
  cases h
  case rti hmode => exact .inr ⟨rfl, hmode⟩
  all_goals exact .inl (by simp)

theorem en_frame (h : Effect s i t) : t.en = s.en ∨ ((i = .rti ∨ i = .ei ∨ i = .di) ∧ s.mode = .kernel) := by
  cases h
  case rti hmode => exact .inr ⟨.inl rfl, hmode⟩
  case ei hmode => exact .inr ⟨.inr (.inl rfl), hmode⟩
  case di hmode => exact .inr ⟨.inr (.inr rfl), hmode⟩
  all_goals exact .inl (by simp)

theorem cycles_eq (h : Effect s i t) : t.cycles = s.cycles := by
  cases h
  all_goals simp

theorem params_eq (h : Effect s i t) : t.params = s.params := by
  cases h
  all_goals simp

theorem events_frame (h : Effect s i t) :
    t.events = s.events ∨ (i = .brk ∧ s.mode = .kernel) ∨ ∃ rA rB, i = .lio rA rB ∨ i = .sio rA rB := by
  cases h
  case brk hmode => exact .inr (.inl ⟨rfl, hmode⟩)
  case lio rA rB slot hslot v => exact .inr (.inr ⟨rA, rB, .inl rfl⟩)
  case sio rA rB slot hslot v => exact .inr (.inr ⟨rA, rB, .inr rfl⟩)
  all_goals exact .inl (by simp)

theorem ioDraws_frame (h : Effect s i t) : t.ioDraws = s.ioDraws ∨ ∃ rA rB, i = .lio rA rB := by
  cases h
  case lio rA rB slot hslot v => exact .inr ⟨rA, rB, rfl⟩
  all_goals exact .inl (by simp)

/-! ### Memory -/

/-- Memory changes only by a store at an address that translates. -/
theorem mem_frame (h : Effect s i t) :
    t.mem = s.mem ∨
      (∃ rA rB imm wi lane v, i = .stw rA rB imm ∧ translateData s (basePlusImm s rB imm) = some (wi, lane) ∧
        t.mem = physWrite s.mem wi v) ∨
      ∃ rA rB imm wi lane v, i = .stb rA rB imm ∧ translateData s (basePlusImm s rB imm) = some (wi, lane) ∧
        t.mem = s.mem.write (2 * wi + lane.toNat) v := by
  cases h
  case storeWord haddr v => exact .inr (.inl ⟨_, _, _, _, _, v, rfl, haddr, rfl⟩)
  case storeByte haddr v => exact .inr (.inr ⟨_, _, _, _, _, v, rfl, haddr, rfl⟩)
  all_goals exact .inl (by simp)

/-! ### Exceptions and the run -/

/-- An instruction either raises an exception and does nothing else, or raises none. -/
theorem fault_or_raisesNothing (h : Effect s i t) : (∃ c, validCode c ∧ t = raise c s) ∨ RaisesNothing s t := by
  cases h
  case fault c hcode => exact .inl ⟨c, hcode, rfl⟩
  case rti => exact .inr ⟨.inl rfl, .inl ⟨rfl, rfl⟩⟩
  case hlt => exact .inr ⟨.inr rfl, .inr rfl⟩
  all_goals exact .inr ⟨.inr (by simp), .inl ⟨by simp, by simp⟩⟩

/-- An instruction stops the run only as hlt in kernel mode, or by an exception while `en` is false. -/
theorem run_frame (h : Effect s i t) :
    t.run = s.run ∨ (i = .hlt ∧ s.mode = .kernel ∧ t.haltReason = some .hlt) ∨
      ∃ c, s.en = false ∧ t = { s with run := false, haltReason := some (.doubleFault c) } := by
  cases h
  case fault c hcode =>
    rcases Bool.eq_false_or_eq_true s.en with hen | hen
    · exact .inl (by rw [raise_enabled hen])
    · exact .inr (.inr ⟨c, hen, raise_disabled hen c⟩)
  case hlt hmode => exact .inr (.inl ⟨rfl, hmode, rfl⟩)
  all_goals exact .inl (by simp)

end Effect

/-! ### The frames as stated -/

/-- Settles O53: the register frame of the effects (`Effect.reg_frame`). -/
theorem generalRegisterFrame : Obligations.GeneralRegisterFrame :=
  fun _ _ _ h => (effect_of_exec h).reg_frame

/-- Settles O54: the frame of each field. -/
theorem specialStateFrame : Obligations.SpecialStateFrame := by
  intro i s t h
  have heffect := effect_of_exec h
  exact ⟨heffect.hc_frame, heffect.link_frame, fun k => congrArg (·[k]) heffect.mmuU_eq, heffect.kernelMmu_frame,
    heffect.irr_frame, heffect.icr_frame, heffect.imr_frame, heffect.mode_frame, heffect.en_frame, heffect.cycles_eq,
    heffect.params_eq, heffect.events_frame, heffect.ioDraws_frame⟩

/-- Settles O55: memory is as before, or the instruction is a store at a translated address (`Effect.mem_frame`), and then the
memory laws frame the bytes it writes. -/
theorem memoryFrame : Obligations.MemoryFrame := by
  intro i s t h
  obtain hsame | ⟨rA, rB, imm, wi, lane, v, rfl, haddr, hmem⟩ | ⟨rA, rB, imm, wi, lane, v, rfl, haddr, hmem⟩ :=
    (effect_of_exec h).mem_frame
  · exact ⟨fun _ => hsame, fun _ _ _ _ _ => hsame, fun _ _ _ _ _ _ _ _ _ _ => by rw [hsame],
      fun _ _ _ _ _ _ _ _ _ => by rw [hsame]⟩
  · refine ⟨fun hnot => absurd rfl (hnot rA rB imm).1, ?none, ?word, ?byte⟩
    case none =>
      rintro _ _ _ (heq | heq) hnone <;> cases heq
      rw [haddr] at hnone
      cases hnone
    case word =>
      rintro _ _ _ _ _ heq hsome a hlow hhigh
      cases heq
      rw [haddr] at hsome
      cases hsome
      rw [hmem, read_physWrite_ne s.mem v hlow hhigh]
    case byte => rintro _ _ _ _ _ heq; cases heq
  · refine ⟨fun hnot => absurd rfl (hnot rA rB imm).2, ?none, ?word, ?byte⟩
    case none =>
      rintro _ _ _ (heq | heq) hnone <;> cases heq
      rw [haddr] at hnone
      cases hnone
    case word => rintro _ _ _ _ _ heq; cases heq
    case byte =>
      rintro _ _ _ _ _ heq hsome a ha
      cases heq
      rw [haddr] at hsome
      cases hsome
      rw [hmem, read_write_ne s.mem v ha]

/-- Settles O56: an instruction that raises nothing leaves nothing latched and no double fault; one that raises is the raise of a
valid code (`Effect.fault_or_raisesNothing`), which latches it or stops the machine. -/
theorem preciseExceptions : Obligations.PreciseExceptions := by
  intro i s t hex hhalt h
  obtain ⟨c, hcode, rfl⟩ | ⟨hnone, hrun⟩ := (effect_of_exec h).fault_or_raisesNothing
  · rcases Bool.eq_false_or_eq_true s.en with hen | hen
    · rw [raise_enabled hen]
      exact ⟨fun _ => ⟨hen, rfl, hcode⟩, fun _ hfault => by simp [hhalt] at hfault⟩
    · rw [raise_disabled hen]
      refine ⟨fun hpending => absurd hex hpending, fun d hfault => ?_⟩
      cases hfault
      exact ⟨hen, rfl, hcode⟩
  · refine ⟨fun hpending => absurd ?_ hpending, fun d hfault => ?_⟩
    · exact hnone.elim id (·.trans hex)
    · rw [hhalt, hfault] at hrun
      simp at hrun

end Sys2Proof.Machine

/-! ## A machine cycle by its cases (40_machine_cycle.md R160 to R176) -/

namespace Sys2Proof.Machine

/-! ### Delivery and the advance, field by field -/

/-- The pending exception is delivered to kernel mode, or nothing is pending and nothing happens. -/
theorem deliverPending_cases (s : State) :
    (s.ex = 0 ∧ deliverPending s = s) ∨ (s.ex ≠ 0 ∧ deliverPending s = deliver s) := by
  by_cases h : s.ex = 0
  · exact .inl ⟨h, deliverPending_none h⟩
  · exact .inr ⟨h, deliverPending_some h⟩

@[simp] theorem deliverPending_mmuU (s : State) : (deliverPending s).mmuU = s.mmuU := by
  obtain ⟨-, h⟩ | ⟨-, h⟩ := deliverPending_cases s <;> simp [h]

@[simp] theorem deliverPending_run (s : State) : (deliverPending s).run = s.run := by
  obtain ⟨-, h⟩ | ⟨-, h⟩ := deliverPending_cases s <;> simp [h]

@[simp] theorem deliverPending_cycles (s : State) : (deliverPending s).cycles = s.cycles := by
  obtain ⟨-, h⟩ | ⟨-, h⟩ := deliverPending_cases s <;> simp [h]

@[simp] theorem deliverPending_params (s : State) : (deliverPending s).params = s.params := by
  obtain ⟨-, h⟩ | ⟨-, h⟩ := deliverPending_cases s <;> simp [h]

/-! ### What a cycle can do after delivery -/

/-- What a cycle leaves before its end, from the state `d` that delivery left: a fetch fault, or the effect of the instruction at
the translated pc, run with pc advanced (R161 to R163). -/
inductive CycleEffect (d : State) : State → Prop
  | fetchFault {c : ExCode} (hcode : validCode c) : CycleEffect d (raise c (advancePc d))
  | instr {pa : Nat} {u : State} (hfetch : translateCode d d.pc = some pa)
      (heffect : Effect (advancePc d) (decodeWord (physRead d.mem pa)) u) : CycleEffect d u

/-- A step that answers a next state is a running machine's: delivery, what the cycle does, and the end of the cycle. -/
theorem step_cycleEffect {s t : State} (h : step s = .next t) :
    s.run = true ∧ ∃ u, CycleEffect (deliverPending s) u ∧ t = endCycle s u := by
  obtain ⟨hrun, ⟨u, hfetch, rfl⟩ | ⟨ir, v, u, hfetch, hexec, rfl⟩⟩ := step_cases h
  · refine ⟨hrun, u, ?_, rfl⟩
    obtain ⟨-, hended⟩ | ⟨pa, -, -, hended⟩ | ⟨pa, -, -, hword⟩ := fetch_cases s
    · rw [hfetch] at hended; cases hended; exact .fetchFault validCode_exMemory
    · rw [hfetch] at hended; cases hended; exact .fetchFault validCode_exMachine
    · rw [hfetch] at hword; cases hword
  · refine ⟨hrun, u, ?_, rfl⟩
    obtain ⟨-, hended⟩ | ⟨pa, -, -, hended⟩ | ⟨pa, htranslate, -, hword⟩ := fetch_cases s
    · rw [hfetch] at hended; cases hended
    · rw [hfetch] at hended; cases hended
    · rw [hfetch] at hword; cases hword; exact .instr htranslate (effect_of_exec hexec)

namespace CycleEffect

variable {d u : State}

theorem cycles_eq (h : CycleEffect d u) : u.cycles = d.cycles := by
  cases h with
  | fetchFault => simp
  | instr _ heffect => simp [heffect.cycles_eq]

theorem params_eq (h : CycleEffect d u) : u.params = d.params := by
  cases h with
  | fetchFault => simp
  | instr _ heffect => simp [heffect.params_eq]

theorem mmuU_eq (h : CycleEffect d u) : u.mmuU = d.mmuU := by
  cases h with
  | fetchFault => simp
  | instr _ heffect => simp [heffect.mmuU_eq]

theorem mode_frame (h : CycleEffect d u) :
    u.mode = d.mode ∨
      (d.mode = .kernel ∧ ∃ pa, translateCode d d.pc = some pa ∧ decodeWord (physRead d.mem pa) = .rti) := by
  cases h with
  | fetchFault => exact .inl (by simp)
  | instr hfetch heffect => exact heffect.mode_frame.imp id fun ⟨hrti, hmode⟩ => ⟨hmode, _, hfetch, hrti⟩

/-- A cycle stops a running machine as hlt in kernel mode, or in a double fault while `en` is false. -/
theorem run_frame (h : CycleEffect d u) (hrun : d.run = true) (hstop : u.run = false) :
    (u.haltReason = some .hlt ∧ d.mode = .kernel ∧
      ∃ pa, translateCode d d.pc = some pa ∧ decodeWord (physRead d.mem pa) = .hlt) ∨
    ∃ c, u.doubleFaulted c ∧ d.en = false := by
  cases h with
  | @fetchFault c =>
    rcases Bool.eq_false_or_eq_true d.en with hen | hen
    · simp [hen, hrun] at hstop
    · exact .inr ⟨c, ⟨hstop, by simp [hen]⟩, hen⟩
  | instr hfetch heffect =>
    obtain hsame | ⟨hhlt, hmode, hreason⟩ | ⟨c, hen, hfault⟩ := heffect.run_frame
    · rw [hsame, advancePc_run, hrun] at hstop; cases hstop
    · exact .inl ⟨hreason, hmode, _, hfetch, hhlt⟩
    · exact .inr ⟨c, ⟨hstop, by rw [hfault]⟩, hen⟩

end CycleEffect

/-- Settles O10: the fetch of a running machine leads to a next state (`step_of_fetch`), and no cycle effect touches the count or
the parameters; the end of the cycle adds one. -/
theorem runningMachineAlwaysSteps : Obligations.RunningMachineAlwaysSteps := by
  intro s hrun
  obtain ⟨u, hstep⟩ := step_of_fetch (fetch s)
  have hnext := hstep s hrun rfl
  obtain ⟨-, v, hcycle, heq⟩ := step_cycleEffect hnext
  refine ⟨_, hnext, ?cycles, ?params⟩ <;> rw [heq]
  case cycles => rw [endCycle_cycles, hcycle.cycles_eq, deliverPending_cycles]
  case params => rw [endCycle_params, hcycle.params_eq, deliverPending_params]

/-- Settles O11: how a cycle stops a running machine (`CycleEffect.run_frame`), and the `ex` that the end of a cycle puts back
after a double fault (`exAtEnd_doubleFault`). -/
theorem onlyHltAndDoubleFaultStop : Obligations.OnlyHltAndDoubleFaultStop := by
  rintro s _ t rfl h hstop
  obtain ⟨hrun, u, hcycle, rfl⟩ := step_cycleEffect h
  obtain ⟨hreason, hhlt⟩ | ⟨c, hfault, hen⟩ := hcycle.run_frame (by rw [deliverPending_run, hrun]) hstop
  · exact .inl ⟨hreason, hhlt⟩
  · exact .inr ⟨c, hfault.2, hen, exAtEnd_doubleFault hfault s⟩

/-- Settles O16: what a cycle does to mode and to the user entries (`CycleEffect.mode_frame`, `CycleEffect.mmuU_eq`), and what
delivery does (`deliverPending_cases`). -/
theorem modeAndUserMmuOverAStep : Obligations.ModeAndUserMmuOverAStep := by
  rintro s _ t rfl h
  obtain ⟨-, u, hcycle, rfl⟩ := step_cycleEffect h
  refine ⟨fun k => ?userMmu, hcycle.mode_frame.resolve_left, fun hmode => ?delivery⟩
  case userMmu => exact congrArg (·[k]) (hcycle.mmuU_eq.trans (deliverPending_mmuU s))
  case delivery =>
    obtain ⟨-, hsame⟩ | ⟨hpending, hdeliver⟩ := deliverPending_cases s
    · rw [hsame] at hmode; exact absurd rfl hmode
    · rw [hdeliver, deliver_mode] at hmode
      refine ⟨hpending, ?_⟩
      cases huser : s.mode
      · rfl
      · exact absurd huser.symm hmode

/-! ### A step that runs an instruction, and one whose fetch raises -/

/-- The fetch is not of the last word of the address space exactly when the advance does not wrap. -/
theorem pc_add_one_eq_zero_iff (pc : Word) : pc + 1 = 0 ↔ pc = 0xFFFF := by
  constructor <;> intro h <;> bv_omega

theorem fetch_word {s : State} {pa : Nat} (htranslate : translateCode (deliverPending s) (deliverPending s).pc = some pa)
    (hpc : (deliverPending s).pc ≠ 0xFFFF) :
    fetch s = .word (physRead (deliverPending s).mem pa) (advancePc (deliverPending s)) := by
  simp only [fetch, fetchAt, htranslate, pc_add_one_eq_zero_iff, hpc, if_false]

theorem fetch_untranslated {s : State} (htranslate : translateCode (deliverPending s) (deliverPending s).pc = none) :
    fetch s = .ended (raise exMemory (advancePc (deliverPending s))) := by
  simp only [fetch, fetchAt, htranslate]

theorem fetch_wrap {s : State} {pa : Nat} (htranslate : translateCode (deliverPending s) (deliverPending s).pc = some pa)
    (hpc : (deliverPending s).pc = 0xFFFF) :
    fetch s = .ended (raise exMachine (advancePc (deliverPending s))) := by
  rw [hpc] at htranslate
  simp only [fetch, fetchAt, hpc, htranslate, pc_add_one_eq_zero_iff, if_true]

/-- Settles O6: the fetch is the word at the translated pc (`fetch_word`), the decoder's instruction has a next state
(`exec_next`), and the end of the cycle looks at whether it double-faulted. -/
theorem stepRunsDecodedInstruction : Obligations.StepRunsDecodedInstruction := by
  rintro s _ pa i hrun rfl htranslate hpc hdecode
  have hi : decodeWord (physRead (deliverPending s).mem pa) = i := (Prod.mk.inj (Except.ok.inj hdecode)).1
  obtain ⟨u, hexec⟩ := exec_next i (advancePc (deliverPending s))
  have hstep := step_of_fetch_word hrun (fetch_word htranslate hpc) (hi ▸ hexec)
  refine ⟨u, hexec, fun hnone => ?next, fun c hfault => ?fault⟩
  case next => rw [hstep, endCycle_of_not_doubleFaulted hnone]
  case fault => rw [hstep, endCycle_of_doubleFaulted hfault]

/-- A stopped machine's step answers the reason of the stop (R176). -/
theorem step_stopped {s : State} (hstop : s.run = false) : step s = .fault (stopReason s) := by
  rw [step, hstop, if_neg Bool.false_ne_true]

/-- Settles O7: the step of a stopped machine is a fault (`step_stopped`), which the halt reason chooses. -/
theorem haltedStateIsFinal : Obligations.HaltedStateIsFinal := by
  intro s hstop
  refine ⟨fun t => ?none, fun hhlt => ?hlt, fun c hfault => ?fault⟩ <;> rw [step_stopped hstop]
  case none => exact nofun
  case hlt => rw [stopReason, hhlt]
  case fault => rw [stopReason, hfault]

/-- A cycle whose fetch stage raised, while `en` is true and while it is false (R162, R163, R176). -/
theorem step_of_fetch_raised {s d : State} {c : ExCode} (hrun : s.run = true) (hd : d.run = true)
    (hfetch : fetch s = .ended (raise c (advancePc d))) :
    (d.en = true → step s = .next { d with pc := d.pc + 1, cycles := d.cycles + 1, ex := c }) ∧
    (d.en = false →
      step s = .next
        { d with pc := d.pc + 1, cycles := d.cycles + 1, run := false, haltReason := some (.doubleFault c), ex := s.ex }) := by
  have hstep := step_of_fetch_ended hrun hfetch
  refine ⟨fun henabled => ?latched, fun hdisabled => ?doubleFault⟩
  case latched =>
    have hnone : ∀ c', ¬(raise c (advancePc d)).doubleFaulted c' := by simp [State.doubleFaulted, henabled, hd]
    rw [hstep, endCycle_of_not_doubleFaulted hnone, raise_enabled (by rw [advancePc_en, henabled])]
    rfl
  case doubleFault =>
    have hfault : (raise c (advancePc d)).doubleFaulted c := by simp [State.doubleFaulted, hdisabled]
    rw [hstep, endCycle_of_doubleFaulted hfault, raise_disabled (by rw [advancePc_en, hdisabled])]
    rfl

/-- Settles O8: each of the two faults ends the fetch stage in its raise (`fetch_untranslated`, `fetch_wrap`), and the cycle ends
from there (`step_of_fetch_raised`). -/
theorem fetchExceptions : Obligations.FetchExceptions := by
  intro s d hrun hdelivered code hcode
  have hd : d.run = true := by rw [hdelivered, deliverPending_run, hrun]
  subst hdelivered
  obtain ⟨htranslate, rfl⟩ | ⟨pa, htranslate, hpc, rfl⟩ := hcode
  · exact step_of_fetch_raised hrun hd (fetch_untranslated htranslate)
  · exact step_of_fetch_raised hrun hd (fetch_wrap htranslate hpc)

end Sys2Proof.Machine

/-! ## The invariant of the machine (10_state.md section 6) -/

namespace Sys2Proof.Machine

/-! ### The clauses under single updates -/

/-- No register write reaches the entry behind r0. -/
theorem gprWrite_getElem_zero (file : Vector Word 8) (r : Reg) (v : Word) : (gprWrite file r v)[0] = file[0] := by
  unfold gprWrite
  split
  next => rfl
  next hr => exact Vector.getElem_set_ne _ _ fun h => hr (Fin.ext h)

theorem readCount_append (xs ys : List Event) : readCount (xs ++ ys) = readCount xs + readCount ys := by
  induction xs with
  | nil => exact (Nat.zero_add _).symm
  | cons e xs ih => cases e <;> simp only [List.cons_append, readCount, ih]; omega

namespace State.Inv

variable {s : State}

theorem setReg (h : s.Inv) (m : Mode) (r : Reg) (v : Word) : (s.setReg m r v).Inv := by
  cases m
  case user => exact { h with userZero := (gprWrite_getElem_zero s.xu r v).trans h.userZero }
  case kernel => exact { h with kernelZero := (gprWrite_getElem_zero s.xk r v).trans h.kernelZero }

theorem setLink (h : s.Inv) (m : Mode) (v : Word) : (s.setLink m v).Inv := by
  cases m <;> exact { h with }

/-- A byte written where memory exists. -/
theorem write (h : s.Inv) {a : Nat} (ha : a < 2 * s.params.physWords) (v : Byte) :
    State.Inv { s with mem := s.mem.write a v } :=
  { h with
    memCanonical := write_wf h.memCanonical a v
    memExists := fun c hc => (mem_cells_write hc).elim (h.memExists c) fun heq => by rw [heq]; exact ha }

/-- A word written where memory exists: its two bytes. -/
theorem physWrite (h : s.Inv) {wi : Nat} (hwi : wi < s.params.physWords) (v : Word) :
    State.Inv { s with mem := Machine.physWrite s.mem wi v } :=
  (h.write (a := 2 * wi) (by omega) (loByte v)).write (a := 2 * wi + 1) (by dsimp only; omega) (hiByte v)

/-- An event that is no read, with a slot that exists where it has one. -/
theorem record (h : s.Inv) {e : Event} (hslot : slotExists s.params e) (hread : readCount [e] = 0) :
    (s.record e).Inv :=
  { h with
    drawsCounted := by rw [record_ioDraws, record_events, readCount_append, hread]; exact h.drawsCounted
    slotsExist := List.forall_mem_append.mpr ⟨h.slotsExist, List.forall_mem_singleton.mpr hslot⟩ }

/-- A read is drawn and recorded. -/
theorem ioRead (h : s.Inv) {slot : Nat} (hslot : slot < 2 ^ s.params.ioBits) : (ioRead s slot).Inv :=
  { h with
    drawsCounted := (congrArg (· + 1) h.drawsCounted).trans (readCount_append s.events [.ioRead slot _]).symm
    slotsExist := List.forall_mem_append.mpr ⟨h.slotsExist, List.forall_mem_singleton.mpr hslot⟩ }

theorem haltReason_of_running (h : s.Inv) (hrun : s.run = true) : s.haltReason = none := h.haltStatus.mpr hrun

/-- A valid code raised while the machine runs: latched, or a double fault. -/
theorem raise (h : s.Inv) (hrun : s.run = true) {c : ExCode} (hcode : validCode c) :
    (raise c s).Inv := by
  rcases Bool.eq_false_or_eq_true s.en with hen | hen
  · rw [raise_enabled hen]
    exact { h with
      pendingValid := fun _ => hcode
      pendingEnabled := fun _ _ => hen
      haltedClear := fun hhlt => by simp [h.haltReason_of_running hrun] at hhlt }
  · rw [raise_disabled hen]
    exact { h with
      pendingEnabled := nofun
      haltedClear := nofun
      haltStatus := ⟨nofun, nofun⟩
      faultValid := fun d hd => by cases hd; exact hcode }

/-! ### Delivery, effects and the end of a cycle -/

theorem deliverPending (h : s.Inv) : (deliverPending s).Inv := by
  obtain ⟨-, hsame⟩ | ⟨-, hdeliver⟩ := deliverPending_cases s
  · rw [hsame]; exact h
  · rw [hdeliver]
    exact { h with
      pendingValid := fun hpending => absurd rfl hpending
      pendingEnabled := fun _ hpending => absurd rfl hpending
      haltedClear := fun _ => rfl
      userEnabled := nofun }

theorem advancePc (h : s.Inv) : (advancePc s).Inv := { h with }

/-- Every effect of an instruction keeps the invariant: the machine runs and nothing is pending where it starts. -/
theorem effect (h : s.Inv) (hrun : s.run = true) (hex : s.ex = 0) {i : Instr} {t : State} (heffect : Effect s i t) :
    t.Inv := by
  cases heffect
  case fault c hcode => exact h.raise hrun hcode
  case writeReg r v hdest => exact h.setReg s.mode r v
  case writeRegHc r v carry hdest hhc => exact { h.setReg s.mode r v with }
  case jump target => exact { h with }
  case storeWord haddr v => exact h.physWrite (translateData_some haddr).1 v
  case storeByte lane haddr v =>
    have hexists := (translateData_some haddr).1
    have hlane := lane.toNat_lt
    exact h.write (by omega) v
  case call target => exact { h.setLink s.mode s.pc with }
  case sprLink hn v => exact h.setLink s.mode v
  case sprUserReg r hmode hn v => exact h.setReg .user r v
  case sprUserLink hmode hn v => exact h.setLink .user v
  case sprIrr | sprIcr | sprImr | sprMmu => exact { h with }
  case lio slot hslot v => exact (h.ioRead hslot).setReg s.mode _ v
  case sio slot hslot v => exact h.record hslot rfl
  case brk => exact h.record trivial rfl
  case rti =>
    exact { h with
      pendingValid := fun hpending => absurd rfl hpending
      pendingEnabled := fun _ _ => rfl
      haltedClear := fun _ => rfl
      userEnabled := fun _ => rfl }
  case di hmode =>
    exact { h with
      pendingEnabled := fun _ hpending => absurd hex hpending
      userEnabled := fun huser => by rw [hmode] at huser; cases huser }
  case ei => exact { h with pendingEnabled := fun _ _ => rfl, userEnabled := fun _ => rfl }
  case hlt =>
    exact { h with
      pendingEnabled := nofun
      haltedClear := fun _ => hex
      haltStatus := ⟨nofun, nofun⟩
      faultValid := nofun }

theorem cycleEffect (h : s.Inv) (hrun : s.run = true) (hex : s.ex = 0) {u : State} (hcycle : CycleEffect s u) :
    u.Inv := by
  cases hcycle with
  | fetchFault hcode => exact h.advancePc.raise hrun hcode
  | instr _ heffect => exact h.advancePc.effect hrun hex heffect

/-- The end of a cycle counts, and after a double fault puts back a code that was valid when the cycle began (log 12). -/
theorem endCycle {before : State} (hbefore : before.Inv) (h : s.Inv) : (endCycle before s).Inv := by
  obtain ⟨hnone, -⟩ | ⟨c, hfault, -⟩ := exAtEnd_cases before s
  · rw [endCycle_of_not_doubleFaulted hnone]
    exact { h with }
  · rw [endCycle_of_doubleFaulted hfault]
    exact { h with
      pendingValid := hbefore.pendingValid
      pendingEnabled := fun hrun => by simp [hfault.1] at hrun
      haltedClear := fun hhlt => by simp [hfault.2] at hhlt }

end State.Inv

/-- Settles O13: delivery, what the cycle does, and the end of the cycle each keep the invariant. -/
theorem invariantKeptByEveryStep : Obligations.InvariantKeptByEveryStep := by
  intro s t h hstep
  obtain ⟨hrun, u, hcycle, rfl⟩ := step_cycleEffect hstep
  exact h.endCycle (h.deliverPending.cycleEffect (by rw [deliverPending_run, hrun]) (deliverPending_ex s) hcycle)

/-! ### Reset -/

theorem inv_afterReset (p : Params) {m : Memory} (hwf : m.wf) (hexists : ∀ c ∈ m.cells, c.1 < 2 * p.physWords) :
    (State.afterReset p m).Inv where
  memCanonical := hwf
  memExists := hexists
  userZero := rfl
  kernelZero := rfl
  pendingValid hpending := absurd rfl hpending
  pendingEnabled _ hpending := absurd rfl hpending
  haltedClear := nofun
  userEnabled := nofun
  haltStatus := ⟨fun _ => rfl, fun _ => rfl⟩
  faultValid := nofun
  drawsCounted := rfl
  slotsExist := nofun

/-- Settles O14: the empty memory is one of the memories a reset may find. -/
theorem resetMeetsInvariant : Obligations.ResetMeetsInvariant :=
  ⟨inv_afterReset _ empty_wf nofun, fun p _ => inv_afterReset p⟩

theorem reg_afterReset (p : Params) (mem : Memory) (m : Mode) (r : Reg) : (State.afterReset p mem).reg m r = 0 := by
  cases m <;> simp [State.reg, gprRead, State.afterReset]

theorem mmu_afterReset (p : Params) (mem : Memory) (m : Mode) (k : Fin 32) : (State.afterReset p mem).mmu m k = 0 := by
  cases m <;> simp [State.mmu, State.afterReset]

/-- Settles O15: the register files and the MMU entries hold zeros (`reg_afterReset`, `mmu_afterReset`); each other field is the
one that `State.afterReset` names. -/
theorem resetValues : Obligations.ResetValues := by
  refine ⟨rfl, fun _ => rfl, ?_⟩
  rintro p mem _ rfl
  exact ⟨reg_afterReset p mem, fun m => by cases m <;> rfl, mmu_afterReset p mem, rfl, rfl, rfl, rfl, rfl, rfl, rfl, rfl, rfl,
    rfl, rfl, rfl, rfl, rfl⟩

end Sys2Proof.Machine

/-! ## The kernel-only part of the state under a user program (60_exceptions.md R435 to R437)

In user mode every operation an instruction is made of commutes with replacing the kernel-only part: what it reads is outside
that part, and so is what it writes. -/

namespace Sys2Proof.Machine

section

variable {s : State} (k : KernelPart)

/-! ### What a user program reads -/

theorem x_withKernelPart (huser : s.mode = .user) (r : Reg) : (s.withKernelPart k).x r = s.x r := by
  simp only [State.x, State.withKernelPart, huser, State.reg]

theorem link_withKernelPart (huser : s.mode = .user) : (s.withKernelPart k).link s.mode = s.link s.mode := by
  simp only [State.withKernelPart, huser, State.link]

theorem translateCode_withKernelPart (huser : s.mode = .user) (va : Word) :
    translateCode (s.withKernelPart k) va = translateCode s va := by
  simp only [translateCode, codeWordAddr, State.withKernelPart, huser, State.mmu]

theorem translateData_withKernelPart (huser : s.mode = .user) (va : Word) :
    translateData (s.withKernelPart k) va = translateData s va := by
  simp only [translateData, dataByteAddr, State.withKernelPart, huser, State.mmu]

theorem basePlusImm_withKernelPart (huser : s.mode = .user) (rB : Reg) (imm : Int) :
    basePlusImm (s.withKernelPart k) rB imm = basePlusImm s rB imm := by
  rw [basePlusImm, basePlusImm, x_withKernelPart k huser]

theorem memRead_withKernelPart (huser : s.mode = .user) (addr : Word) (w : Width) :
    memRead (s.withKernelPart k) addr w = memRead s addr w := by
  rw [memRead, memRead, translateData_withKernelPart k huser]
  rfl

/-- Outside kernel mode an SPR read is of pc, the user Link or the cycle count (45_yop.md R301). -/
theorem sprRead_withKernelPart (huser : s.mode = .user) (n : BitVec 6) :
    sprRead (s.withKernelPart k) n = sprRead s n := by
  have huser' : (s.withKernelPart k).mode = .user := huser
  unfold sprRead
  rw [huser, huser']
  cases sprOf n <;> rfl

/-! ### What it writes -/

theorem raise_withKernelPart (c : ExCode) : raise c (s.withKernelPart k) = (raise c s).withKernelPart k := by
  rcases Bool.eq_false_or_eq_true s.en with hen | hen
  · rw [raise_enabled hen, raise_enabled (s := s.withKernelPart k) hen]; rfl
  · rw [raise_disabled hen, raise_disabled (s := s.withKernelPart k) hen]; rfl

theorem setX_withKernelPart (huser : s.mode = .user) (r : Reg) (v : Word) :
    (s.withKernelPart k).setX r v = (s.setX r v).withKernelPart k := by
  simp only [State.setX, State.withKernelPart, huser, State.setReg]

theorem setLink_withKernelPart (huser : s.mode = .user) (v : Word) :
    (s.withKernelPart k).setLink s.mode v = (s.setLink s.mode v).withKernelPart k := by
  simp only [State.withKernelPart, huser, State.setLink]

theorem memWrite_withKernelPart (huser : s.mode = .user) (addr : Word) (w : Width) (v : Word) :
    memWrite (s.withKernelPart k) addr w v = (memWrite s addr w v).map (·.withKernelPart k) := by
  rw [memWrite, memWrite, translateData_withKernelPart k huser]
  cases translateData s addr with
  | none => rfl
  | some p => cases w <;> rfl

/-- Outside kernel mode an SPR write is of the user Link (R302). -/
theorem sprWrite_withKernelPart (huser : s.mode = .user) (n : BitVec 6) (v : Word) :
    sprWrite (s.withKernelPart k) n v = (sprWrite s n v).map (·.withKernelPart k) := by
  have huser' : (s.withKernelPart k).mode = .user := huser
  unfold sprWrite
  rw [huser, huser']
  cases sprOf n <;> rfl

/-! ### The shared operations -/

theorem load_withKernelPart (huser : s.mode = .user) (w : Width) (rA : Reg) (addr : Word) :
    load w rA addr (s.withKernelPart k) = (load w rA addr s).withKernelPart k := by
  rw [load, load, memRead_withKernelPart k huser]
  cases memRead s addr w with
  | none => exact raise_withKernelPart k exMemory
  | some v => exact setX_withKernelPart k huser rA v

theorem store_withKernelPart (huser : s.mode = .user) (w : Width) (addr v : Word) :
    store w addr v (s.withKernelPart k) = (store w addr v s).withKernelPart k := by
  rw [store, store, memWrite_withKernelPart k huser]
  cases memWrite s addr w v with
  | none => exact raise_withKernelPart k exMemory
  | some t => rfl

theorem sysTrap_withKernelPart (n : Int) : sysTrap n (s.withKernelPart k) = (sysTrap n s).withKernelPart k := by
  unfold sysTrap
  split <;> exact raise_withKernelPart k _

theorem callTo_withKernelPart (huser : s.mode = .user) (target : Word) :
    callTo target (s.withKernelPart k) = (callTo target s).withKernelPart k :=
  congrArg (jumpTo target) (setLink_withKernelPart k huser s.pc)

/-- A privileged effect is ExIllegal here, whatever the effect. -/
theorem privileged_withKernelPart (huser : s.mode = .user) (f : State → State) :
    privileged f (s.withKernelPart k) = (privileged f s).withKernelPart k := by
  rw [privileged_user huser, privileged_user (s := s.withKernelPart k) huser, raise_withKernelPart]

theorem alu1_withKernelPart (huser : s.mode = .user) (f : Word → Word) (rA : Reg) :
    alu1 f rA (s.withKernelPart k) = (alu1 f rA s).withKernelPart k := by
  rw [alu1, x_withKernelPart k huser, setX_withKernelPart k huser, alu1]

theorem alu1Carry_withKernelPart (huser : s.mode = .user) (f : Word → Word × Bool) (rA : Reg) :
    alu1Carry f rA (s.withKernelPart k) = (alu1Carry f rA s).withKernelPart k := by
  rw [alu1Carry, x_withKernelPart k huser, setX_withKernelPart k huser]
  rfl

theorem alu2_withKernelPart (huser : s.mode = .user) (f : Word → Word → Word) (rA rB rC : Reg) :
    alu2 f rA rB rC (s.withKernelPart k) = (alu2 f rA rB rC s).withKernelPart k := by
  rw [alu2, x_withKernelPart k huser, x_withKernelPart k huser, setX_withKernelPart k huser, alu2]

theorem alu2Carry_withKernelPart (huser : s.mode = .user) (f : Word → Word → Bool → Word × Bool) (rA rB rC : Reg) :
    alu2Carry f rA rB rC (s.withKernelPart k) = (alu2Carry f rA rB rC s).withKernelPart k := by
  rw [alu2Carry, x_withKernelPart k huser, x_withKernelPart k huser, setX_withKernelPart k huser]
  rfl

/-! ### The instructions and the cycle -/

/-- An instruction of a user program does the same whatever the kernel-only part is, and leaves that part. -/
theorem exec_withKernelPart (huser : s.mode = .user) (i : Instr) :
    ∃ t, exec i s = .next t ∧ exec i (s.withKernelPart k) = .next (t.withKernelPart k) := by
  cases i
  case ldw rA rB imm =>
    refine ⟨_, rfl, congrArg Host.Outcome.next ?_⟩
    rw [basePlusImm_withKernelPart k huser]
    split
    next => exact raise_withKernelPart k exIllegal
    next => exact load_withKernelPart k huser .word rA _
  case ldb rA rB imm =>
    refine ⟨_, rfl, congrArg Host.Outcome.next ?_⟩
    rw [basePlusImm_withKernelPart k huser, load_withKernelPart k huser]
  case stw rA rB imm | stb rA rB imm =>
    refine ⟨_, rfl, congrArg Host.Outcome.next ?_⟩
    rw [basePlusImm_withKernelPart k huser, x_withKernelPart k huser, store_withKernelPart k huser]
  case beq rA rB imm =>
    refine ⟨_, rfl, congrArg Host.Outcome.next ?_⟩
    rw [x_withKernelPart k huser, x_withKernelPart k huser]
    split <;> rfl
  case adi rA rB imm =>
    refine ⟨_, rfl, congrArg Host.Outcome.next ?_⟩
    rw [basePlusImm_withKernelPart k huser, setX_withKernelPart k huser]
  case lui rA imm => exact ⟨_, rfl, congrArg Host.Outcome.next (setX_withKernelPart k huser rA _)⟩
  case jlr j rB imm =>
    refine ⟨_, rfl, congrArg Host.Outcome.next ?_⟩
    rw [basePlusImm_withKernelPart k huser]
    split_ifs
    · exact sysTrap_withKernelPart k imm
    · exact callTo_withKernelPart k huser _
    · rfl
    · exact raise_withKernelPart k exIllegal
  case add | sub | bic | bis | xor => exact ⟨_, rfl, congrArg Host.Outcome.next (alu2_withKernelPart k huser _ _ _ _)⟩
  case adc | sbb => exact ⟨_, rfl, congrArg Host.Outcome.next (alu2Carry_withKernelPart k huser _ _ _ _)⟩
  case not | neg | sxt | swb => exact ⟨_, rfl, congrArg Host.Outcome.next (alu1_withKernelPart k huser _ _)⟩
  case lsr | lsl | asr => exact ⟨_, rfl, congrArg Host.Outcome.next (alu1Carry_withKernelPart k huser _ _)⟩
  case lsp rA rB =>
    refine ⟨_, rfl, congrArg Host.Outcome.next ?_⟩
    rw [x_withKernelPart k huser, sprRead_withKernelPart k huser]
    cases sprRead s (sprNumber (s.x rB)) with
    | none => exact raise_withKernelPart k exIllegal
    | some v => exact setX_withKernelPart k huser rA v
  case ssp rA rB =>
    refine ⟨_, rfl, congrArg Host.Outcome.next ?_⟩
    rw [x_withKernelPart k huser, x_withKernelPart k huser, sprWrite_withKernelPart k huser]
    cases sprWrite s (sprNumber (s.x rB)) (s.x rA) with
    | none => exact raise_withKernelPart k exIllegal
    | some t => rfl
  case lio rA rB =>
    refine ⟨_, rfl, congrArg Host.Outcome.next ?_⟩
    rw [x_withKernelPart k huser]
    exact setX_withKernelPart (s := ioRead s (ioSlot s (s.x rB))) k huser rA _
  case sio rA rB =>
    refine ⟨_, rfl, congrArg Host.Outcome.next ?_⟩
    rw [x_withKernelPart k huser, x_withKernelPart k huser]
    rfl
  case y04 | y05 | y06 | v06 | die => exact ⟨_, rfl, congrArg Host.Outcome.next (raise_withKernelPart k exIllegal)⟩
  case rtl =>
    exact ⟨_, rfl, congrArg (fun target => Host.Outcome.next (jumpTo target _)) (link_withKernelPart k huser)⟩
  case rti | di | ei | hlt | brk =>
    exact ⟨_, rfl, congrArg Host.Outcome.next (privileged_withKernelPart k huser _)⟩

/-- The end of a cycle looks at no kernel-only part. -/
theorem endCycle_withKernelPart (u : State) :
    endCycle (s.withKernelPart k) (u.withKernelPart k) = (endCycle s u).withKernelPart k := rfl

end

/-- A fetch outcome with the kernel-only part of its state replaced. -/
def Fetched.withKernelPart (k : KernelPart) : Fetched → Fetched
  | .word ir s => .word ir (s.withKernelPart k)
  | .ended s => .ended (s.withKernelPart k)

theorem fetchAt_withKernelPart {s : State} (k : KernelPart) (huser : s.mode = .user) :
    fetchAt (s.withKernelPart k) = (fetchAt s).withKernelPart k := by
  have hadvance : advancePc (s.withKernelPart k) = (advancePc s).withKernelPart k := rfl
  have hpc : (s.withKernelPart k).pc = s.pc := rfl
  rw [fetchAt, fetchAt, hpc, translateCode_withKernelPart k huser, hadvance, raise_withKernelPart, raise_withKernelPart]
  cases translateCode s s.pc with
  | none => rfl
  | some pa => dsimp only; split <;> rfl

/-- A running user program's step, with the kernel-only part of the state replaced before and after. -/
theorem step_withKernelPart {s : State} (k : KernelPart) (huser : s.mode = .user) (hex : s.ex = 0) (hrun : s.run = true) :
    ∃ t, step s = .next t ∧ step (s.withKernelPart k) = .next (t.withKernelPart k) := by
  have hfetch := fetchAt_withKernelPart k huser
  rw [← fetch_none (s := s) hex, ← fetch_none (s := s.withKernelPart k) hex] at hfetch
  cases hfetched : fetch s with
  | ended u =>
    rw [hfetched] at hfetch
    refine ⟨_, step_of_fetch_ended hrun hfetched, ?_⟩
    rw [← endCycle_withKernelPart]
    exact step_of_fetch_ended (s := s.withKernelPart k) hrun hfetch
  | word ir u =>
    rw [hfetched] at hfetch
    have huser' : u.mode = .user := by
      obtain ⟨-, hend⟩ | ⟨-, -, -, hend⟩ | ⟨pa, -, -, hword⟩ := fetch_cases s
      · rw [hfetched] at hend; cases hend
      · rw [hfetched] at hend; cases hend
      · rw [hfetched, deliverPending_none hex] at hword; cases hword; exact huser
    obtain ⟨v, hexec, hexec'⟩ := exec_withKernelPart k huser' (decodeWord ir)
    refine ⟨_, step_of_fetch_word hrun hfetched hexec, ?_⟩
    rw [← endCycle_withKernelPart]
    exact step_of_fetch_word (s := s.withKernelPart k) hrun hfetch hexec'

/-- Settles O57: a running user program's step commutes with replacing the kernel-only part (`step_withKernelPart`); a stopped
machine answers its reason, which is no part of it. -/
theorem userStepIgnoresKernelPart : Obligations.UserStepIgnoresKernelPart := by
  intro s k huser hex
  rcases Bool.eq_false_or_eq_true s.run with hrun | hrun
  · obtain ⟨t, hstep, hstep'⟩ := step_withKernelPart k huser hex hrun
    rw [hstep]
    exact hstep'
  · rw [step_stopped hrun]
    exact step_stopped (s := s.withKernelPart k) hrun

end Sys2Proof.Machine

/-! ## Translation with the default memory, and word accesses at odd addresses (20_memory.md R67, R72) -/

namespace Sys2Proof.Machine

theorem translateCode_eq_none_iff (s : State) (va : Word) :
    translateCode s va = none ↔ s.params.physWords ≤ codeWordAddr s va := by
  rw [translateCode, ite_eq_right_iff, ← Nat.not_lt]
  simp

/-- Settles O19: a byte address has 24 bits, so a word index made from one is below 2^23; a code word index has 24 bits, and its
upper twelve are the entry's. -/
theorem defaultMemoryTranslation : Obligations.DefaultMemoryTranslation := by
  intro s va hwords
  refine ⟨?data, fun page hpage => ?code⟩
  case data =>
    have hbyte : dataByteAddr s va < 2 ^ 24 := BitVec.isLt _
    rw [translateData, hwords, if_pos (by omega)]
    exact Option.some_ne_none _
  case code =>
    rw [translateCode_eq_none_iff, hwords, codeWordAddr_eq s hpage]
    omega

/-- The word index of a data address does not depend on bit 0. -/
theorem dataByteAddr_div_two (s : State) (va : Word) :
    dataByteAddr s va / 2 = (s.mmu s.mode (dataEntry (pageOf va))).toNat % 4096 * 2048 + va.toNat / 2 % 2048 := by
  rw [dataByteAddr, physAddr_toNat]
  omega

/-- Flipping bit 0 leaves the bits above it. -/
theorem xor_one_toNat_div_two (va : Word) : (va ^^^ 1).toNat / 2 = va.toNat / 2 := by
  rw [BitVec.toNat_xor, ← Nat.shiftRight_one, ← Nat.shiftRight_one, Nat.shiftRight_xor_distrib]
  exact Nat.xor_zero _

theorem pageOf_xor_one (va : Word) : pageOf (va ^^^ 1) = pageOf va := by
  have hhalf := xor_one_toNat_div_two va
  exact Fin.ext (by rw [pageOf_val, pageOf_val]; omega)

theorem dataByteAddr_xor_one_div_two (s : State) (va : Word) :
    dataByteAddr s (va ^^^ 1) / 2 = dataByteAddr s va / 2 := by
  rw [dataByteAddr_div_two, dataByteAddr_div_two, pageOf_xor_one, xor_one_toNat_div_two]

/-- A word read by the word index alone. -/
theorem memRead_word (s : State) (addr : Word) :
    memRead s addr .word =
      if dataByteAddr s addr / 2 < s.params.physWords then some (physRead s.mem (dataByteAddr s addr / 2)) else none := by
  rw [memRead, translateData]
  split_ifs <;> rfl

/-- A word write by the word index alone. -/
theorem memWrite_word_eq (s : State) (addr v : Word) :
    memWrite s addr .word v =
      if dataByteAddr s addr / 2 < s.params.physWords then
        some { s with mem := physWrite s.mem (dataByteAddr s addr / 2) v }
      else none := by
  rw [memWrite, translateData]
  split_ifs <;> rfl

/-- Settles O20: a word access is by the word index (`memRead_word`, `memWrite_word_eq`), where bit 0 has no part
(`dataByteAddr_xor_one_div_two`). -/
theorem wordAccessDropsBitZero : Obligations.WordAccessDropsBitZero := by
  intro s addr v
  constructor
  · rw [memRead_word, memRead_word, dataByteAddr_xor_one_div_two]
  · rw [memWrite_word_eq, memWrite_word_eq, dataByteAddr_xor_one_div_two]

end Sys2Proof.Machine

/-! ## The remaining base, branch and jlr instructions (41_base_memory.md R201, 42_base_alu_branch.md, 43_jlr.md) -/

namespace Sys2Proof.Machine

theorem exec_ldb (rA rB : Reg) (imm : Int) (s : State) :
    exec (.ldb rA rB imm) s = .next (load .byte rA (basePlusImm s rB imm) s) := rfl

/-- A byte load at an address that translates: the byte of the lane, zero-extended. -/
theorem load_byte {s : State} {addr : Word} {wi : Nat} {lane : Bool} (h : translateData s addr = some (wi, lane)) (rA : Reg) :
    load .byte rA addr s = s.setX rA ((s.mem.read (2 * wi + lane.toNat)).setWidth 16) := by
  rw [load, memRead, h]
  cases lane <;> simp [physRead]

/-- Settles O25: the row by its op; the byte of the lane (`load_byte`), and ExMemory where the address does not translate
(`load_untranslated`). -/
theorem ldbLoadsByte : Obligations.LdbLoadsByte := by
  refine ⟨decodeWord_rriPattern fun _ hop => by simp only [decodeWord, hop]; rfl, fun rA rB imm s => ⟨?byte, ?fault⟩⟩
  case byte =>
    intro wi lane hsome
    rw [exec_ldb, basePlusImm, immWord, load_byte hsome, laneAddr_eq, BitVec.ofNat_toNat]
  case fault =>
    intro hnone
    rw [exec_ldb, basePlusImm, immWord, load_untranslated hnone]

/-- Settles O28: the row by its op, and the two branches of the comparison. -/
theorem beqBranches : Obligations.BeqBranches := by
  refine ⟨decodeWord_rriPattern fun _ hop => by simp only [decodeWord, hop]; rfl, fun rA rB imm s => ⟨?taken, ?notTaken⟩⟩
  case taken => exact fun heq => congrArg Host.Outcome.next (if_pos heq)
  case notTaken => exact fun hne => congrArg Host.Outcome.next (if_neg hne)

/-- The sum of a word and an immediate, narrowed at the end. -/
theorem basePlusImm_eq_ofInt (s : State) (rB : Reg) (imm : Int) :
    basePlusImm s rB imm = BitVec.ofInt 16 (((s.x rB).toNat : Int) + imm) := by
  rw [basePlusImm, immWord, BitVec.ofInt_add, BitVec.ofInt_natCast, BitVec.ofNat_toNat, BitVec.setWidth_eq]

/-- Settles O29: the row by its op, and the sum as an integer (`basePlusImm_eq_ofInt`). -/
theorem adiAddsImmediate : Obligations.AdiAddsImmediate :=
  ⟨decodeWord_rriPattern fun _ hop => by simp only [decodeWord, hop]; rfl,
    fun rA rB imm s => by rw [exec_adi, basePlusImm_eq_ofInt]⟩

theorem exec_jlr_sys (rB : Reg) (n : Int) (s : State) : exec (.jlr 0 rB n) s = .next (sysTrap n s) := rfl

theorem exec_jlr_call (rB : Reg) (imm : Int) (s : State) :
    exec (.jlr 1 rB imm) s = .next (callTo (basePlusImm s rB imm) s) := rfl

/-- A call writes the Link of the mode it runs in. -/
theorem callTo_of_mode {s : State} {m : Mode} (h : s.mode = m) (target : Word) :
    callTo target s = jumpTo target (s.setLink m s.pc) := by
  rw [callTo, h]

/-- Settles O31: the row with j = 0 (`decodeWord_jlrPattern`), and the two branches of the trap number's test. -/
theorem sysTraps : Obligations.SysTraps := by
  refine ⟨fun n b => decodeWord_jlrPattern n b 0b000#3, fun rB n s => ⟨fun htrap => ?trap, fun hnot => ?illegal⟩⟩
  case trap => rw [exec_jlr_sys, sysTrap, if_pos htrap]
  case illegal => rw [exec_jlr_sys, sysTrap, if_neg hnot]

/-- Settles O32: the row with j = 1 (`decodeWord_jlrPattern`), and the Link that each mode names
(`callTo_of_mode`). -/
theorem callSetsLink : Obligations.CallSetsLink := by
  refine ⟨fun i b => decodeWord_jlrPattern i b 0b001#3, fun rB imm s => ⟨fun huser => ?user, fun hkernel => ?kernel⟩⟩
  case user => exact (exec_jlr_call rB imm s).trans (congrArg _ (callTo_of_mode huser _))
  case kernel => exact (exec_jlr_call rB imm s).trans (congrArg _ (callTo_of_mode hkernel _))

end Sys2Proof.Machine

/-! ## Sums and differences (44_xop.md R260 to R263, 46_zop.md R321) -/

namespace Sys2Proof.Machine

theorem exec_add (rA rB rC : Reg) (s : State) : exec (.add rA rB rC) s = .next (s.setX rA (s.x rB + s.x rC)) := rfl

theorem exec_sub (rA rB rC : Reg) (s : State) :
    exec (.sub rA rB rC) s = .next (s.setX rA (subResult s.params.subOrder (s.x rB) (s.x rC))) := rfl

theorem exec_neg (rA : Reg) (s : State) : exec (.neg rA) s = .next (s.setX rA (0 - s.x rA)) := rfl

/-- A difference of words is the difference of their numbers, narrowed. -/
theorem sub_eq_ofInt (a b : Word) : a - b = BitVec.ofInt 16 ((a.toNat : Int) - b.toNat) := by
  rw [Int.sub_eq_add_neg, BitVec.ofInt_add, BitVec.ofInt_neg, BitVec.ofInt_natCast, BitVec.ofInt_natCast,
    BitVec.ofNat_toNat, BitVec.ofNat_toNat, BitVec.setWidth_eq, BitVec.setWidth_eq, BitVec.sub_eq_add_neg]

/-- Settles O35: the rows by their xop and zop; each operation writes one word to rA (`exec_add`, `exec_sub`, `exec_neg`), a sum or
difference of words, which is that of their numbers narrowed. -/
theorem addSubNegWrap : Obligations.AddSubNegWrap := by
  refine ⟨decodeWord_rrrPattern (xop := 0) rfl fun _ hxop => by simp only [decodeXop, hxop]; rfl,
    decodeWord_rrrPattern (xop := 2) rfl fun _ hxop => by simp only [decodeXop, hxop]; rfl,
    decodeWord_rxxPattern (zop := 1) rfl fun _ hzop => by simp only [decodeZop, hzop],
    fun rA rB rC s => ⟨?add, fun horder => ?cMinusB, fun horder => ?bMinusC, ?neg⟩⟩
  case add => rw [exec_add, BitVec.ofNat_add, BitVec.ofNat_toNat, BitVec.ofNat_toNat, BitVec.setWidth_eq, BitVec.setWidth_eq]
  case cMinusB => rw [exec_sub, horder, subResult, subOperands, sub_eq_ofInt]
  case bMinusC => rw [exec_sub, horder, subResult, subOperands, sub_eq_ofInt]
  case neg => rw [exec_neg, sub_eq_ofInt]; congr 3; exact Int.zero_sub _

theorem exec_adc (rA rB rC : Reg) (s : State) :
    exec (.adc rA rB rC) s =
      .next { s.setX rA (addCarry (s.x rB) (s.x rC) s.hc).1 with hc := (addCarry (s.x rB) (s.x rC) s.hc).2 } := rfl

theorem exec_sbb (rA rB rC : Reg) (s : State) :
    exec (.sbb rA rB rC) s =
      .next { s.setX rA (sbbResult s.params.subOrder (s.x rB) (s.x rC) s.hc).1 with
        hc := (sbbResult s.params.subOrder (s.x rB) (s.x rC) s.hc).2 } := rfl

/-- The 17-bit sum: the low part and the carry make it up. -/
theorem addCarry_sum (x y : Word) (hc : Bool) :
    (addCarry x y hc).1.toNat + 0x10000 * (addCarry x y hc).2.toNat = x.toNat + y.toNat + hc.toNat := by
  have hx := x.isLt
  have hy := y.isLt
  have hhc := hc.toNat_le
  simp only [addCarry, BitVec.toNat_ofNat]
  by_cases hcarry : 2 ^ 16 ≤ x.toNat + y.toNat + hc.toNat
  · rw [decide_eq_true hcarry, Bool.toNat_true]; omega
  · rw [decide_eq_false hcarry, Bool.toNat_false]; omega

/-- The difference and the borrow make up the subtraction. -/
theorem subBorrow_sum (x y : Word) (hc : Bool) :
    x.toNat + 0x10000 * (subBorrow x y hc).2.toNat = y.toNat + hc.toNat + (subBorrow x y hc).1.toNat := by
  have hx := x.isLt
  have hy := y.isLt
  have hhc := hc.toNat_le
  have hdifference : subInt x y hc = (x.toNat : Int) - y.toNat - hc.toNat := rfl
  simp only [subBorrow, BitVec.toNat_ofInt]
  by_cases hborrow : subInt x y hc < 0
  · rw [decide_eq_true hborrow, Bool.toNat_true]; omega
  · rw [decide_eq_false hborrow, Bool.toNat_false]; omega

/-- Settles O36: the row by its xop; the sum to rA and the carry to hc (`exec_adc`), which make up the 17-bit sum. -/
theorem adcAddsWithCarry : Obligations.AdcAddsWithCarry :=
  ⟨decodeWord_rrrPattern (xop := 1) rfl fun _ hxop => by simp only [decodeXop, hxop]; rfl,
    fun rA rB rC s => ⟨_, _, exec_adc rA rB rC s, addCarry_sum (s.x rB) (s.x rC) s.hc⟩⟩

/-- Settles O37: the row by its xop; the difference to rA and the borrow to hc (`exec_sbb`), of the operands in either order. -/
theorem sbbSubtractsWithBorrow : Obligations.SbbSubtractsWithBorrow := by
  refine ⟨decodeWord_rrrPattern (xop := 3) rfl fun _ hxop => by simp only [decodeXop, hxop]; rfl,
    fun rA rB rC s => ⟨_, _, exec_sbb rA rB rC s, fun horder => ?cMinusB, fun horder => ?bMinusC⟩⟩
  case cMinusB => rw [horder]; exact subBorrow_sum (s.x rC) (s.x rB) s.hc
  case bMinusC => rw [horder]; exact subBorrow_sum (s.x rB) (s.x rC) s.hc

end Sys2Proof.Machine

/-! ## Special registers and I/O (45_yop.md) -/

namespace Sys2Proof.Machine

/-! ### lsp and ssp by what their number names (R300 to R302) -/

section

variable {rA rB : Reg} {s : State}

theorem exec_lsp_value {v : Word} (h : sprRead s (sprNumber (s.x rB)) = some v) :
    exec (.lsp rA rB) s = .next (s.setX rA v) := by
  rw [show exec (.lsp rA rB) s = execLsp rA rB s from rfl, execLsp, h]

theorem exec_lsp_illegal (h : sprRead s (sprNumber (s.x rB)) = none) :
    exec (.lsp rA rB) s = .next (raise exIllegal s) := by
  rw [show exec (.lsp rA rB) s = execLsp rA rB s from rfl, execLsp, h]

theorem exec_ssp_value {t : State} (h : sprWrite s (sprNumber (s.x rB)) (s.x rA) = some t) :
    exec (.ssp rA rB) s = .next t := by
  rw [show exec (.ssp rA rB) s = execSsp rA rB s from rfl, execSsp, h]

theorem exec_ssp_illegal (h : sprWrite s (sprNumber (s.x rB)) (s.x rA) = none) :
    exec (.ssp rA rB) s = .next (raise exIllegal s) := by
  rw [show exec (.ssp rA rB) s = execSsp rA rB s from rfl, execSsp, h]

/-- lsp of a number that names `r` reads what `r` holds. -/
theorem exec_lsp_of_numbered {n : Nat} {v : Word} (r : Spr) (hn : n = (s.x rB).toNat % 64) (hnumber : r.Numbered n)
    (hread : ∀ m, sprOf m = r → sprRead s m = some v) : exec (.lsp rA rB) s = .next (s.setX rA v) :=
  exec_lsp_value (hread _ ((sprOf_sprNumber_iff _ r).mpr (hn ▸ hnumber)))

/-- ssp of a number that names `r` writes `r`. -/
theorem exec_ssp_of_numbered {n : Nat} {t : State} (r : Spr) (hn : n = (s.x rB).toNat % 64) (hnumber : r.Numbered n)
    (hwrite : ∀ m, sprOf m = r → sprWrite s m (s.x rA) = some t) : exec (.ssp rA rB) s = .next t :=
  exec_ssp_value (hwrite _ ((sprOf_sprNumber_iff _ r).mpr (hn ▸ hnumber)))

end

/-- Settles O41: the row by its yop; each number names its register (`Spr.Numbered`), which the mode lets lsp read. -/
theorem lspReadsSpecialRegisters : Obligations.LspReadsSpecialRegisters := by
  refine ⟨decodeWord_rrxPattern (yop := 0) rfl fun _ hyop => by simp only [decodeYop, hyop], fun rA rB s n hn =>
    ⟨fun h => ?pc, fun h => ?link, fun h => ?cycleLow, fun h => ?cycleHigh, fun hmode =>
      ⟨fun h => ?irr, fun h => ?icr, fun h => ?imr, fun r h => ?userReg, fun h => ?userLink, fun k h => ?mmu⟩⟩⟩
  case pc => exact exec_lsp_of_numbered .pc hn h fun m hm => by simp only [sprRead, hm]
  case link => exact exec_lsp_of_numbered .link hn h fun m hm => by simp only [sprRead, hm]
  case cycleLow =>
    refine exec_lsp_of_numbered .cycleLow hn h fun m hm => ?_
    have hlow : s.cycles.extractLsb' 0 16 = BitVec.ofNat 16 (s.cycles.toNat % 0x10000) :=
      BitVec.eq_of_toNat_eq (by rw [extractLsb'_val, BitVec.toNat_ofNat]; omega)
    simp only [sprRead, hm, hlow]
  case cycleHigh =>
    refine exec_lsp_of_numbered .cycleHigh hn h fun m hm => ?_
    have hhigh : s.cycles.extractLsb' 16 16 = BitVec.ofNat 16 (s.cycles.toNat / 0x10000) :=
      BitVec.eq_of_toNat_eq (by rw [extractLsb'_val, BitVec.toNat_ofNat]; omega)
    simp only [sprRead, hm, hhigh]
  case irr => exact exec_lsp_of_numbered .irr hn h fun m hm => by simp only [sprRead, hm, hmode]
  case icr => exact exec_lsp_of_numbered .icr hn h fun m hm => by simp only [sprRead, hm, hmode]
  case imr => exact exec_lsp_of_numbered .imr hn h fun m hm => by simp only [sprRead, hm, hmode]
  case userReg => exact exec_lsp_of_numbered (.userReg r) hn h fun m hm => by simp only [sprRead, hm, hmode]
  case userLink => exact exec_lsp_of_numbered .userLink hn h fun m hm => by simp only [sprRead, hm, hmode]
  case mmu => exact exec_lsp_of_numbered (.mmu k) hn h fun m hm => by simp only [sprRead, hm, hmode]

/-- Settles O43: the row by its yop; each number names its register (`Spr.Numbered`), which the mode lets ssp write. -/
theorem sspWritesSpecialRegisters : Obligations.SspWritesSpecialRegisters := by
  refine ⟨decodeWord_rrxPattern (yop := 2) rfl fun _ hyop => by simp only [decodeYop, hyop], fun rA rB s n hn =>
    ⟨fun h hmode => ?linkU, fun hmode => ⟨fun h => ?linkK, fun h => ?irr, fun h => ?icr, fun h => ?imr, fun h => ?zero,
      fun r hr h => ?userReg, fun h => ?userLink, fun k h => ?mmu⟩⟩⟩
  case linkU => exact exec_ssp_of_numbered .link hn h fun m hm => by simp only [sprWrite, hm, hmode, State.setLink]
  case linkK => exact exec_ssp_of_numbered .link hn h fun m hm => by simp only [sprWrite, hm, hmode, State.setLink]
  case irr => exact exec_ssp_of_numbered .irr hn h fun m hm => by simp only [sprWrite, hm, hmode]
  case icr => exact exec_ssp_of_numbered .icr hn h fun m hm => by simp only [sprWrite, hm, hmode]
  case imr => exact exec_ssp_of_numbered .imr hn h fun m hm => by simp only [sprWrite, hm, hmode]
  case zero =>
    exact exec_ssp_of_numbered (.userReg 0) hn h fun m hm => by simp only [sprWrite, hm, hmode, setReg_zero]
  case userReg =>
    exact exec_ssp_of_numbered (.userReg r) hn h fun m hm => by
      simp only [sprWrite, hm, hmode, State.setReg, gprWrite, hr, if_false]
  case userLink => exact exec_ssp_of_numbered .userLink hn h fun m hm => by simp only [sprWrite, hm, hmode, State.setLink]
  case mmu => exact exec_ssp_of_numbered (.mmu k) hn h fun m hm => by simp only [sprWrite, hm, hmode, State.setMmu]

/-! ### The numbers that no access reaches (R302) -/

/-- A number of a kernel-only register (10_state.md R31). -/
def KernelOnlyNumber (n : Nat) : Prop := (2 ≤ n ∧ n ≤ 4) ∨ (16 ≤ n ∧ n ≤ 23) ∨ n = 25 ∨ 32 ≤ n

section

variable {s : State} {n : BitVec 6}

theorem sprRead_unassigned (h : sprOf n = .unassigned) : sprRead s n = none := by
  simp only [sprRead, h]

/-- What user mode reads has none of the kernel-only numbers. -/
theorem sprRead_kernelOnly (huser : s.mode = .user) (h : KernelOnlyNumber n.toNat) : sprRead s n = none := by
  have hnumber := (sprOf_eq_iff n _).mp rfl
  cases hspr : sprOf n
  case pc | link | cycleLow | cycleHigh =>
    simp only [hspr, Spr.Numbered] at hnumber
    unfold KernelOnlyNumber at h
    omega
  all_goals simp only [sprRead, hspr, huser]

/-- pc and the cycle count are read-only (D13). -/
theorem sprWrite_readOnly (h : sprOf n = .pc ∨ sprOf n = .cycleLow ∨ sprOf n = .cycleHigh ∨ sprOf n = .unassigned)
    (v : Word) : sprWrite s n v = none := by
  obtain h | h | h | h := h <;> simp only [sprWrite, h]

/-- What user mode writes, the user Link, has none of the kernel-only numbers. -/
theorem sprWrite_kernelOnly (huser : s.mode = .user) (h : KernelOnlyNumber n.toNat) (v : Word) :
    sprWrite s n v = none := by
  have hnumber := (sprOf_eq_iff n _).mp rfl
  cases hspr : sprOf n
  case link =>
    simp only [hspr, Spr.Numbered] at hnumber
    unfold KernelOnlyNumber at h
    omega
  all_goals simp only [sprWrite, hspr, huser]

end

/-- Settles O42: an unassigned number reads nothing (`sprRead_unassigned`), and user mode reads nothing kernel-only
(`sprRead_kernelOnly`). -/
theorem lspTraps : Obligations.LspTraps := by
  rintro rA rB s _ rfl
  refine ⟨fun hunassigned => ?unassigned, fun huser hkernel => ?kernelOnly⟩
  case unassigned => exact exec_lsp_illegal (sprRead_unassigned ((sprOf_sprNumber_iff _ .unassigned).mpr hunassigned))
  case kernelOnly => exact exec_lsp_illegal (sprRead_kernelOnly huser (by rw [sprNumber_toNat]; exact hkernel))

/-- Settles O44: an unassigned or read-only number writes nothing (`sprWrite_readOnly`), and user mode writes nothing kernel-only
(`sprWrite_kernelOnly`). -/
theorem sspTraps : Obligations.SspTraps := by
  rintro rA rB s _ rfl
  refine ⟨fun hreadOnly => ?readOnly, fun huser hkernel => ?kernelOnly⟩
  case readOnly =>
    refine exec_ssp_illegal (sprWrite_readOnly ?_ _)
    simp only [sprOf_sprNumber_iff, Spr.Numbered]
    omega
  case kernelOnly => exact exec_ssp_illegal (sprWrite_kernelOnly huser (by rw [sprNumber_toNat]; exact hkernel) _)

/-! ### lio and sio (R291, R293) -/

/-- The read's record and the register's write are of different fields. -/
theorem setReg_ioRead (s : State) (slot : Nat) (m : Mode) (r : Reg) (v : Word) :
    (ioRead s slot).setReg m r v =
      { s.setReg m r v with events := s.events ++ [.ioRead slot (ioAnswer s slot)], ioDraws := s.ioDraws + 1 } := by
  cases m <;> rfl

/-- Settles O45: the rows by their yop; lio's answer is recorded beside the register's write (`setReg_ioRead`), and sio records what
it wrote. -/
theorem ioTransactions : Obligations.IoTransactions := by
  refine ⟨decodeWord_rrxPattern (yop := 1) rfl fun _ hyop => by simp only [decodeYop, hyop],
    decodeWord_rrxPattern (yop := 3) rfl fun _ hyop => by simp only [decodeYop, hyop], ?_⟩
  rintro rA rB s _ rfl
  exact ⟨⟨_, congrArg Host.Outcome.next (setReg_ioRead s _ s.mode rA _)⟩, rfl⟩

end Sys2Proof.Machine

/-! ## The remaining VOPs (47_vop.md) -/

namespace Sys2Proof.Machine

/-- The mode of a word by its parity (R350). -/
theorem modeOfWord_eq (w : Word) : modeOfWord w = if w.toNat % 2 = 0 then .user else .kernel := by
  rw [modeOfWord, BitVec.getLsbD, Nat.testBit_zero]
  rcases Nat.mod_two_eq_zero_or_one w.toNat with h | h <;> simp [h]

/-- Settles O47: rti is privileged (`exec_rti`), and the mode it restores is bit 0 of imr (`modeOfWord_eq`). -/
theorem rtiReturns : Obligations.RtiReturns := by
  refine ⟨rfl, fun s hkernel => ?_⟩
  rw [exec_privileged_kernel (exec_rti s) hkernel, returnFromException, modeOfWord_eq]

/-- Settles O50: hlt and brk are privileged (`exec_hlt`, `exec_brk`), and in kernel mode have their effect. -/
theorem haltAndBreakpoint : Obligations.HaltAndBreakpoint :=
  ⟨rfl, rfl, fun s hkernel =>
    ⟨exec_privileged_kernel (exec_hlt s) hkernel, exec_privileged_kernel (exec_brk s) hkernel⟩⟩

/-- Settles O51: each of the two meanings raises ExIllegal whatever the state, so in both modes. -/
theorem unnamedVopsAreIllegal : Obligations.UnnamedVopsAreIllegal :=
  ⟨rfl, rfl, fun _ => ⟨rfl, rfl⟩⟩

end Sys2Proof.Machine

/-! ## The host load (70_reset_and_hazards.md R455, R456) -/

namespace Sys2Proof.Machine

/-! ### The bytes of a file in memory -/

/-- A file's bytes leave every byte outside their range alone, whatever the memory. -/
theorem read_loadBytes_outside (m : Memory) {base a : Nat} (file : List Byte)
    (h : a < base ∨ base + file.length ≤ a) : (loadBytes m base file).read a = m.read a := by
  induction file generalizing m base with
  | nil => rfl
  | cons b rest ih =>
    rw [List.length_cons] at h
    rw [loadBytes, ih _ (by omega), read_write_ne m b (by omega)]

/-- Byte k of a file is at base + k. -/
theorem read_loadBytes {m : Memory} (hwf : m.wf) (base : Nat) (file : List Byte) {k : Nat} (h : k < file.length) :
    (loadBytes m base file).read (base + k) = file[k] := by
  induction file generalizing m base k with
  | nil => exact absurd h (Nat.not_lt_zero k)
  | cons b rest ih =>
    rw [loadBytes]
    cases k with
    | zero =>
      rw [read_loadBytes_outside _ rest (.inl (by omega)), Nat.add_zero, read_write_self hwf]
      rfl
    | succ k =>
      rw [show base + (k + 1) = base + 1 + k by omega, ih (write_wf hwf base b) (base + 1) (Nat.lt_of_succ_lt_succ h)]
      rfl

/-! ### One image -/

section

variable {s : State} {base : Nat} {file : List Byte}

theorem loadImage_tooLarge (h : 0x30000 < file.length) : loadImage s base file = .error .fileTooLarge := by
  rw [loadImage, maxImageBytes, if_pos h]

theorem loadImage_beyond (hlength : file.length ≤ 0x30000) (h : s.params.physWords < (base + file.length + 1) / 2) :
    loadImage s base file = .error .beyondMemory := by
  rw [loadImage, maxImageBytes, if_neg (Nat.not_lt.mpr hlength), if_pos h]

theorem loadImage_fits (hlength : file.length ≤ 0x30000) (h : (base + file.length + 1) / 2 ≤ s.params.physWords) :
    loadImage s base file = .ok { s with mem := loadBytes s.mem base file } := by
  rw [loadImage, maxImageBytes, if_neg (Nat.not_lt.mpr hlength), if_neg (Nat.not_lt.mpr h)]

/-- Everything the load of an image can do: an error that the parameters alone decide, or the bytes placed. -/
theorem loadImage_cases (s : State) (base : Nat) (file : List Byte) :
    (∃ e, ∀ t : State, t.params = s.params → loadImage t base file = .error e) ∨
      loadImage s base file = .ok { s with mem := loadBytes s.mem base file } := by
  rcases Nat.lt_or_ge 0x30000 file.length with hlarge | hlength
  · exact .inl ⟨_, fun t _ => loadImage_tooLarge hlarge⟩
  · rcases Nat.lt_or_ge s.params.physWords ((base + file.length + 1) / 2) with hbeyond | hfits
    · exact .inl ⟨_, fun t hparams => loadImage_beyond hlength (by rw [hparams]; exact hbeyond)⟩
    · exact .inr (loadImage_fits hlength hfits)

end

/-! ### The load of both images -/

/-- Memory after the load: the kernel image, then the user image where there is one. -/
def loadedMemory (m : Memory) (kernelFile : List Byte) : Option (List Byte) → Memory
  | none => loadBytes m kernelBase kernelFile
  | some file => loadBytes (loadBytes m kernelBase kernelFile) userBase file

theorem loadedMemory_wf {m : Memory} (hwf : m.wf) (kernelFile : List Byte) (userFile : Option (List Byte)) :
    (loadedMemory m kernelFile userFile).wf := by
  cases userFile with
  | none => exact loadBytes_wf hwf _ _
  | some file => exact loadBytes_wf (loadBytes_wf hwf _ _) _ _

/-- The user image lies above every kernel image. -/
theorem read_loadedMemory_kernel {m : Memory} (hwf : m.wf) {kernelFile : List Byte} (hlength : kernelFile.length ≤ 0x30000)
    (userFile : Option (List Byte)) {k : Nat} (h : k < kernelFile.length) :
    (loadedMemory m kernelFile userFile).read k = kernelFile[k] := by
  have hkernel : (loadBytes m kernelBase kernelFile).read k = kernelFile[k] := by
    simpa [kernelBase] using read_loadBytes hwf kernelBase kernelFile h
  cases userFile with
  | none => exact hkernel
  | some file =>
    rw [loadedMemory, read_loadBytes_outside _ file (.inl (by unfold userBase; omega)), hkernel]

theorem read_loadedMemory_user {m : Memory} (hwf : m.wf) (kernelFile file : List Byte) {k : Nat} (h : k < file.length) :
    (loadedMemory m kernelFile (some file)).read (0x30000 + k) = file[k] :=
  read_loadBytes (loadBytes_wf hwf _ _) userBase file h

theorem read_loadedMemory_outside (m : Memory) {kernelFile : List Byte} {userFile : Option (List Byte)} {a : Nat}
    (hkernel : kernelFile.length ≤ a) (huser : ∀ file, userFile = some file → a < 0x30000 ∨ 0x30000 + file.length ≤ a) :
    (loadedMemory m kernelFile userFile).read a = m.read a := by
  have houtside : (loadBytes m kernelBase kernelFile).read a = m.read a :=
    read_loadBytes_outside m kernelFile (.inr (by unfold kernelBase; omega))
  cases userFile with
  | none => exact houtside
  | some file => exact (read_loadBytes_outside _ file (huser file rfl)).trans houtside

section

variable {s : State} {kernelFile : List Byte} {userFile : Option (List Byte)}

/-- Where both images fit, the load is the two images and the preload over the loaded memory. -/
theorem hostLoad_fits (preload : List MmuValue) (hlength : kernelFile.length ≤ 0x30000)
    (hfits : (kernelFile.length + 1) / 2 ≤ s.params.physWords)
    (huser : ∀ file, userFile = some file → file.length ≤ 0x30000 ∧ (0x30000 + file.length + 1) / 2 ≤ s.params.physWords) :
    hostLoad s kernelFile userFile preload =
      .ok (applyPreload { s with mem := loadedMemory s.mem kernelFile userFile } preload) := by
  have hkernel := loadImage_fits (s := s) (base := kernelBase) hlength (by unfold kernelBase; omega)
  rw [hostLoad, hkernel]
  cases userFile with
  | none => rfl
  | some file =>
    obtain ⟨hlength', hfits'⟩ := huser file rfl
    simp only [loadImage_fits (s := { s with mem := loadBytes s.mem kernelBase kernelFile }) (base := userBase) hlength'
      hfits', loadedMemory]

theorem hostLoad_kernelError {e : LoadError} (preload : List MmuValue) (h : loadImage s 0 kernelFile = .error e) :
    hostLoad s kernelFile userFile preload = .error e := by
  rw [hostLoad, kernelBase, h]

theorem hostLoad_userError {t : State} {file : List Byte} {e : LoadError} (preload : List MmuValue)
    (hkernel : loadImage s 0 kernelFile = .ok t) (h : loadImage s 0x30000 file = .error e) :
    hostLoad s kernelFile (some file) preload = .error e := by
  have hparams : t.params = s.params := by
    obtain ⟨e', herror⟩ | hok := loadImage_cases s 0 kernelFile
    · rw [herror s rfl] at hkernel; cases hkernel
    · rw [hok] at hkernel; cases hkernel; rfl
  have huser : loadImage t 0x30000 file = .error e := by
    obtain ⟨e', herror⟩ | hok := loadImage_cases s 0x30000 file
    · rw [herror t hparams, ← h, herror s rfl]
    · rw [hok] at h; cases h
  rw [hostLoad, kernelBase, hkernel]
  simp only [userBase, huser]

end

/-! ### The preload -/

theorem applyPreload_append (s : State) (preload : List MmuValue) (p : MmuValue) :
    applyPreload s (preload ++ [p]) = (applyPreload s preload).setMmu p.mode p.entry p.value :=
  List.foldl_concat ..

theorem mmu_setMmu_ne (s : State) {m m' : Mode} {k k' : Fin 32} (v : Word) (h : ¬(m' = m ∧ k' = k)) :
    (s.setMmu m k v).mmu m' k' = s.mmu m' k' := by
  rw [mmu_setMmu, if_neg h]

/-- An entry no value of the preload is for stays. -/
theorem mmu_applyPreload_of_not_mem (s : State) {preload : List MmuValue} {m : Mode} {k : Fin 32}
    (h : ∀ p ∈ preload, ¬(m = p.mode ∧ k = p.entry)) : (applyPreload s preload).mmu m k = s.mmu m k := by
  induction preload generalizing s with
  | nil => rfl
  | cons p rest ih =>
    obtain ⟨hp, hrest⟩ := List.forall_mem_cons.mp h
    exact (ih (s.setMmu p.mode p.entry p.value) hrest).trans (mmu_setMmu_ne s p.value hp)

/-- Where no later value is for the same entry, each value of the preload is what its entry holds. -/
theorem mmu_applyPreload_of_mem (s : State) {preload : List MmuValue} {p : MmuValue}
    (hdistinct : preload.Pairwise fun p q => ¬(p.mode = q.mode ∧ p.entry = q.entry)) (hp : p ∈ preload) :
    (applyPreload s preload).mmu p.mode p.entry = p.value := by
  induction preload generalizing s with
  | nil => cases hp
  | cons q rest ih =>
    obtain ⟨hq, hrest⟩ := List.pairwise_cons.mp hdistinct
    rcases List.mem_cons.mp hp with rfl | hp
    · exact (mmu_applyPreload_of_not_mem (s.setMmu p.mode p.entry p.value) hq).trans
        ((mmu_setMmu s _ _ _ _ _).trans (if_pos ⟨rfl, rfl⟩))
    · exact ih (s.setMmu q.mode q.entry q.value) hrest hp

/-- LAYOUT names each of the 64 entries once. -/
theorem layout_distinct : layout.Pairwise fun p q => ¬(p.mode = q.mode ∧ p.entry = q.entry) := by decide

theorem mmu_layout (s : State) {page : Fin 16} {p : MmuValue} (hp : p ∈ layoutPage page) :
    (applyPreload s layout).mmu p.mode p.entry = p.value :=
  mmu_applyPreload_of_mem s layout_distinct (List.mem_flatMap.mpr ⟨page, List.mem_finRange page, hp⟩)

/-- A word made from a small number holds it. -/
theorem ofNat_toNat_of_lt {n : Nat} (h : n < 65536) : (BitVec.ofNat 16 n).toNat = n := by
  rw [BitVec.toNat_ofNat, Nat.mod_eq_of_lt h]

/-- The entries of LAYOUT for one page, as numbers (R456). -/
theorem layout_entries (s : State) (p : Fin 16) :
    ((applyPreload s layout).mmu .kernel (codeEntry p)).toNat = p.val ∧
    ((applyPreload s layout).mmu .kernel (dataEntry p)).toNat = 0x020 + p.val ∧
    ((applyPreload s layout).mmu .user (codeEntry p)).toNat = 0x018 + p.val ∧
    ((applyPreload s layout).mmu .user (dataEntry p)).toNat = 0x050 + p.val := by
  obtain ⟨hkernelCode, hkernelData, huserCode, huserData, -⟩ : _ ∧ _ ∧ _ ∧ _ ∧ _ := by
    simpa only [layoutPage, List.forall_mem_cons] using fun q => mmu_layout s (page := p) (p := q)
  rw [hkernelCode, hkernelData, huserCode, huserData]
  refine ⟨?_, ?_, ?_, ?_⟩ <;> exact ofNat_toNat_of_lt (by omega)

/-- Settles O58: the errors of the two images (`hostLoad_kernelError`, `hostLoad_userError`), the loaded memory byte by byte, one
image at any address, the preload value by value, and LAYOUT's entries. -/
theorem hostLoadPlacesImages : Obligations.HostLoadPlacesImages := by
  refine ⟨fun _ _ _ _ _ => rfl, fun s kernelFile userFile preload hwf => ⟨?kernelError, ?userError, ?loaded⟩,
    fun s base file hwf => ⟨loadImage_tooLarge, loadImage_beyond, ?image⟩,
    fun s => ⟨rfl, applyPreload_append s⟩, layout_entries⟩
  case kernelError => exact fun e => hostLoad_kernelError preload
  case userError =>
    rintro t file e hkernel rfl herror
    exact hostLoad_userError preload hkernel herror
  case loaded =>
    intro hlength hfits huser
    refine ⟨_, hostLoad_fits preload hlength hfits huser, rfl, loadedMemory_wf hwf kernelFile userFile, ?_, ?_, ?_⟩
    · exact fun k h => read_loadedMemory_kernel hwf hlength userFile h
    · rintro file rfl k h
      exact read_loadedMemory_user hwf kernelFile file h
    · exact fun a hkernel houtside => read_loadedMemory_outside s.mem hkernel houtside
  case image =>
    intro hlength hfits
    exact ⟨_, loadImage_fits hlength hfits, rfl, loadBytes_wf hwf base file, fun k h => read_loadBytes hwf base file h,
      fun a h => read_loadBytes_outside s.mem file h⟩

end Sys2Proof.Machine
